-- ==== Sys2Proof/Word.lean ====
section
/-! DEFINITION. The word types of the NTT256 engine (00_scope.md R6, 10_state.md R10). -/

namespace Sys2Proof

/-- A command word or a 32-bit control register (R50, 10_state.md section 3). -/
abbrev Word := BitVec 32

/-- A byte of `BUF` or of the XOF stream (R6). -/
abbrev Byte := BitVec 8

/-- A coefficient: a signed 32-bit two's-complement integer (R6), read by `BitVec.toInt`. -/
abbrev Coeff := BitVec 32

/-- The number of a polynomial register, `p0` to `p15` (R10). -/
abbrev PReg := Fin 16

/-- A RingElement: "exactly 256 signed 32-bit coefficients" (R10). Place `i` is the coefficient of `X^i`. -/
abbrev RingElement := Vector Coeff 256

end Sys2Proof
end

