-- ==== Sys2Proof/Config.lean ====
section
/-! DEFINITION. What is fixed for the hardware: the parameters of 00_scope.md R3 and R4, the free XOF stream
(R18), and the model's own choice of how many draws of a rejection sampler one step makes. -/

namespace Sys2Proof.Config

/-- `q = 2^23 - 2^13 + 1` (R3). -/
def q : Int := 8380417

/-- `2 * GAMMA2 = (q - 1) / 16` (R3). -/
def twoGamma2 : Int := 523776

/-- `GAMMA2 = (q - 1) / 32` (R3). -/
def gamma2 : Int := 261888

/-- `TAU`, the weight of the challenge polynomial (R3). -/
def tau : Nat := 60

/-- `OMEGA`, the most ones a hint vector may hold (R3). -/
def omega : Nat := 75

/-- `K`, the rows of a hint vector (R3). -/
def rowsK : Nat := 8

/-- `BUF_BYTES`, the size of the buffer memory (R4, R19). -/
def bufBytes : Nat := 8192

/-- The free XOF streams: `xofByte n k` is byte `k` of stream number `n`. The XOF source is outside the block and
a model takes its output "as an unconstrained oracle: any byte sequence" (R18, U8): no value of it can be proved
(log entry 1). -/
opaque xofByte : Nat → Nat → Byte

/-- How many draws of a rejection sampler one step of the model makes before it shows `BUSY = 1` (log entry 2).
DESIGN CHOICE. Safe for what a sampler gives when it ends: one that has not ended goes on in the next step. Unsafe for where a
reset or a `STATUS` read finds a running sampler, which the spec leaves open: in the model it is a whole number of these
bursts after its start (log entry 20). -/
def burstDraws : Nat := 4096

end Sys2Proof.Config
end

