-- ==== Sys2Proof/Syntax.lean ====
section
/-! DEFINITION. The 36 commands of 30_encoding.md R57, one constructor per row of spec/opcode_table.json. -/

namespace Sys2Proof

/-- A command with its operands. A register operand is a register number (R56); `addr` is the byte address of a
format M command, a plain number whose bound `addr < 65536` is checked by `Instr.wellFormed`. -/
inductive Instr where
  /-- NOP (R70). -/
  | nop
  /-- CLRERR (R71). -/
  | clrerr
  /-- ZEROIZE (R72). -/
  | zeroize
  /-- LDRAW (R73). -/
  | ldraw (pd : PReg) (addr : Nat)
  /-- STRAW (R74). -/
  | straw (pa : PReg) (addr : Nat)
  /-- PMOV (R83). -/
  | pmov (pd pa : PReg)
  /-- PRED (R84). -/
  | pred (pd pa : PReg)
  /-- PCADDQ (R85). -/
  | pcaddq (pd pa : PReg)
  /-- NTT (R92). -/
  | ntt (pd pa : PReg)
  /-- INTT (R93). -/
  | intt (pd pa : PReg)
  /-- P2RHI (R102). -/
  | p2rhi (pd pa : PReg)
  /-- P2RLO (R103). -/
  | p2rlo (pd pa : PReg)
  /-- DECHI (R104). -/
  | dechi (pd pa : PReg)
  /-- DECLO (R105). -/
  | declo (pd pa : PReg)
  /-- MKHINT (R106). -/
  | mkhint (pd pa pb : PReg)
  /-- USEHINT (R107). -/
  | usehint (pd pa pb : PReg)
  /-- SAMPU (R111). -/
  | sampu (pd : PReg)
  /-- SAMPE (R112). -/
  | sampe (pd : PReg)
  /-- SAMPG (R113). -/
  | sampg (pd : PReg)
  /-- SAMPC (R114). -/
  | sampc (pd : PReg)
  /-- PADD (R120). -/
  | padd (pd pa pb : PReg)
  /-- PSUB (R121). -/
  | psub (pd pa pb : PReg)
  /-- PWMUL (R122). -/
  | pwmul (pd pa pb : PReg)
  /-- PWMAC (R123). -/
  | pwmac (pd pa pb : PReg)
  /-- PKT1 (R134). -/
  | pkt1 (pa : PReg) (addr : Nat)
  /-- PKT0 (R135). -/
  | pkt0 (pa : PReg) (addr : Nat)
  /-- PKETA (R136). -/
  | pketa (pa : PReg) (addr : Nat)
  /-- PKZ (R137). -/
  | pkz (pa : PReg) (addr : Nat)
  /-- PKW1 (R138). -/
  | pkw1 (pa : PReg) (addr : Nat)
  /-- UPT1 (R139). -/
  | upt1 (pd : PReg) (addr : Nat)
  /-- UPT0 (R140). -/
  | upt0 (pd : PReg) (addr : Nat)
  /-- UPETA (R141). -/
  | upeta (pd : PReg) (addr : Nat)
  /-- UPZ (R142). -/
  | upz (pd : PReg) (addr : Nat)
  /-- UPW1 (R143). -/
  | upw1 (pd : PReg) (addr : Nat)
  /-- HINTENC (R151). -/
  | hintenc (pa : PReg) (addr : Nat)
  /-- HINTDEC (R152). -/
  | hintdec (pd : PReg) (addr : Nat)
  deriving DecidableEq, Repr

/-- The mnemonic of a command as R57 spells it. -/
def Instr.mnemonic : Instr → String
  | .nop => "NOP"
  | .clrerr => "CLRERR"
  | .zeroize => "ZEROIZE"
  | .ldraw _ _ => "LDRAW"
  | .straw _ _ => "STRAW"
  | .pmov _ _ => "PMOV"
  | .pred _ _ => "PRED"
  | .pcaddq _ _ => "PCADDQ"
  | .ntt _ _ => "NTT"
  | .intt _ _ => "INTT"
  | .p2rhi _ _ => "P2RHI"
  | .p2rlo _ _ => "P2RLO"
  | .dechi _ _ => "DECHI"
  | .declo _ _ => "DECLO"
  | .mkhint _ _ _ => "MKHINT"
  | .usehint _ _ _ => "USEHINT"
  | .sampu _ => "SAMPU"
  | .sampe _ => "SAMPE"
  | .sampg _ => "SAMPG"
  | .sampc _ => "SAMPC"
  | .padd _ _ _ => "PADD"
  | .psub _ _ _ => "PSUB"
  | .pwmul _ _ _ => "PWMUL"
  | .pwmac _ _ _ => "PWMAC"
  | .pkt1 _ _ => "PKT1"
  | .pkt0 _ _ => "PKT0"
  | .pketa _ _ => "PKETA"
  | .pkz _ _ => "PKZ"
  | .pkw1 _ _ => "PKW1"
  | .upt1 _ _ => "UPT1"
  | .upt0 _ _ => "UPT0"
  | .upeta _ _ => "UPETA"
  | .upz _ _ => "UPZ"
  | .upw1 _ _ => "UPW1"
  | .hintenc _ _ => "HINTENC"
  | .hintdec _ _ => "HINTDEC"

end Sys2Proof
end

