-- ==== Sys2Proof/WellFormed.lean ====
section
/-! DEFINITION. Which commands have an encoding: every register operand is one by its type, and the byte address
of format M must fit its 16-bit field (30_encoding.md R55, R56). -/

namespace Sys2Proof

/-- `addr` fits the 16-bit field of format M (R55). -/
def addrFits (addr : Nat) : Bool := addr < 65536

/-- The command has an encoding. -/
def Instr.wellFormed : Instr → Bool
  | .nop => true
  | .clrerr => true
  | .zeroize => true
  | .ldraw _ addr => addrFits addr
  | .straw _ addr => addrFits addr
  | .pmov _ _ => true
  | .pred _ _ => true
  | .pcaddq _ _ => true
  | .ntt _ _ => true
  | .intt _ _ => true
  | .p2rhi _ _ => true
  | .p2rlo _ _ => true
  | .dechi _ _ => true
  | .declo _ _ => true
  | .mkhint _ _ _ => true
  | .usehint _ _ _ => true
  | .sampu _ => true
  | .sampe _ => true
  | .sampg _ => true
  | .sampc _ => true
  | .padd _ _ _ => true
  | .psub _ _ _ => true
  | .pwmul _ _ _ => true
  | .pwmac _ _ _ => true
  | .pkt1 _ addr => addrFits addr
  | .pkt0 _ addr => addrFits addr
  | .pketa _ addr => addrFits addr
  | .pkz _ addr => addrFits addr
  | .pkw1 _ addr => addrFits addr
  | .upt1 _ addr => addrFits addr
  | .upt0 _ addr => addrFits addr
  | .upeta _ addr => addrFits addr
  | .upz _ addr => addrFits addr
  | .upw1 _ addr => addrFits addr
  | .hintenc _ addr => addrFits addr
  | .hintdec _ addr => addrFits addr

end Sys2Proof
end

