-- ==== Sys2Proof/Decode.lean ====
section
/-! DEFINITION. Command words: the decoder, total on every 32-bit word, and after it the encoder (30_encoding.md
R50 to R59). -/

namespace Sys2Proof

/-- Why a word is no command (R59). -/
inductive DecodeReject where
  /-- The opcode is none of the 36 (R59 (a)). -/
  | unusedOpcode
  /-- A reserved bit of the opcode's format is 1 (R59 (b)). -/
  | reservedBit
  deriving DecidableEq, Repr

/-- What a word decodes to: a command, or a rejection by name. -/
inductive Decoded where
  | instr (i : Instr)
  | reject (r : DecodeReject)
  deriving DecidableEq, Repr

/-- Bits 31:24 (R50). -/
def opcodeField (w : Word) : Byte := w.extractLsb' 24 8

/-- The 4-bit register field whose lowest bit is `lo` (R56). -/
def regField (w : Word) (lo : Nat) : PReg := Fin.ofNat 16 (w.extractLsb' lo 4).toNat

/-- Bits 15:0 of format M, an unsigned byte address (R55, R56). -/
def addrField (w : Word) : Nat := (w.extractLsb' 0 16).toNat

/-- Accept `i` when the reserved bits are all 0 (R59 (b)). -/
def checkReserved (clear : Bool) (i : Instr) : Decoded :=
  if clear then .instr i else .reject .reservedBit

/-- Format Z: bits 23:0 reserved (R51). -/
def decodeZ (w : Word) (i : Instr) : Decoded := checkReserved (w.extractLsb' 0 24 == 0) i

/-- Format P2: `pd` 23:20, `pa` 19:16, bits 15:0 reserved (R52). -/
def decodeP2 (w : Word) (f : PReg → PReg → Instr) : Decoded :=
  checkReserved (w.extractLsb' 0 16 == 0) (f (regField w 20) (regField w 16))

/-- Format P3: `pd` 23:20, `pa` 19:16, `pb` 15:12, bits 11:0 reserved (R53). -/
def decodeP3 (w : Word) (f : PReg → PReg → PReg → Instr) : Decoded :=
  checkReserved (w.extractLsb' 0 12 == 0) (f (regField w 20) (regField w 16) (regField w 12))

/-- Format S: `pd` 23:20, bits 19:0 reserved (R54). -/
def decodeS (w : Word) (f : PReg → Instr) : Decoded :=
  checkReserved (w.extractLsb' 0 20 == 0) (f (regField w 20))

/-- Format M: `pr` 23:20, bits 19:16 reserved, `addr` 15:0 (R55). -/
def decodeM (w : Word) (f : PReg → Nat → Instr) : Decoded :=
  checkReserved (w.extractLsb' 16 4 == 0) (f (regField w 20) (addrField w))

/-- The command a word stands for (R57), or why it is illegal (R59). -/
def decode (w : Word) : Decoded :=
  match opcodeField w with
  | 0x00#8 => decodeZ w .nop
  | 0x01#8 => decodeZ w .clrerr
  | 0x02#8 => decodeZ w .zeroize
  | 0x08#8 => decodeM w .ldraw
  | 0x09#8 => decodeM w .straw
  | 0x10#8 => decodeP2 w .pmov
  | 0x11#8 => decodeP2 w .pred
  | 0x12#8 => decodeP2 w .pcaddq
  | 0x18#8 => decodeP2 w .ntt
  | 0x19#8 => decodeP2 w .intt
  | 0x20#8 => decodeP2 w .p2rhi
  | 0x21#8 => decodeP2 w .p2rlo
  | 0x22#8 => decodeP2 w .dechi
  | 0x23#8 => decodeP2 w .declo
  | 0x24#8 => decodeP3 w .mkhint
  | 0x25#8 => decodeP3 w .usehint
  | 0x30#8 => decodeS w .sampu
  | 0x31#8 => decodeS w .sampe
  | 0x32#8 => decodeS w .sampg
  | 0x33#8 => decodeS w .sampc
  | 0x40#8 => decodeP3 w .padd
  | 0x41#8 => decodeP3 w .psub
  | 0x42#8 => decodeP3 w .pwmul
  | 0x43#8 => decodeP3 w .pwmac
  | 0x50#8 => decodeM w .pkt1
  | 0x51#8 => decodeM w .pkt0
  | 0x52#8 => decodeM w .pketa
  | 0x53#8 => decodeM w .pkz
  | 0x54#8 => decodeM w .pkw1
  | 0x58#8 => decodeM w .upt1
  | 0x59#8 => decodeM w .upt0
  | 0x5A#8 => decodeM w .upeta
  | 0x5B#8 => decodeM w .upz
  | 0x5C#8 => decodeM w .upw1
  | 0x60#8 => decodeM w .hintenc
  | 0x61#8 => decodeM w .hintdec
  | _ => .reject .unusedOpcode

/-- The instruction the decoder reads from a table word: commands are one 32-bit word given by value (R50), so the
bits above `nbits` are 0 and the word is handed to `decode` as it stands. -/
def decodeTableWord (nbits w : Nat) : Option Instr :=
  match decode (BitVec.ofNat 32 (w % 2 ^ nbits)) with
  | .instr i => some i
  | .reject _ => none

/-- A register number as its 4-bit field (R56). -/
def regBits (r : PReg) : BitVec 4 := BitVec.ofNat 4 r.val

/-- A format Z word (R51). -/
def wordZ (op : Byte) : Word := op ++ 0#24

/-- A format P2 word (R52). -/
def wordP2 (op : Byte) (pd pa : PReg) : Word := op ++ regBits pd ++ regBits pa ++ 0#16

/-- A format P3 word (R53). -/
def wordP3 (op : Byte) (pd pa pb : PReg) : Word := op ++ regBits pd ++ regBits pa ++ regBits pb ++ 0#12

/-- A format S word (R54). -/
def wordS (op : Byte) (pd : PReg) : Word := op ++ regBits pd ++ 0#20

/-- A format M word (R55). -/
def wordM (op : Byte) (pr : PReg) (addr : Nat) : Word := op ++ regBits pr ++ 0#4 ++ BitVec.ofNat 16 addr

/-- The word of a command (R51 to R57). -/
def encode : Instr → Word
  | .nop => wordZ 0x00
  | .clrerr => wordZ 0x01
  | .zeroize => wordZ 0x02
  | .ldraw pd addr => wordM 0x08 pd addr
  | .straw pa addr => wordM 0x09 pa addr
  | .pmov pd pa => wordP2 0x10 pd pa
  | .pred pd pa => wordP2 0x11 pd pa
  | .pcaddq pd pa => wordP2 0x12 pd pa
  | .ntt pd pa => wordP2 0x18 pd pa
  | .intt pd pa => wordP2 0x19 pd pa
  | .p2rhi pd pa => wordP2 0x20 pd pa
  | .p2rlo pd pa => wordP2 0x21 pd pa
  | .dechi pd pa => wordP2 0x22 pd pa
  | .declo pd pa => wordP2 0x23 pd pa
  | .mkhint pd pa pb => wordP3 0x24 pd pa pb
  | .usehint pd pa pb => wordP3 0x25 pd pa pb
  | .sampu pd => wordS 0x30 pd
  | .sampe pd => wordS 0x31 pd
  | .sampg pd => wordS 0x32 pd
  | .sampc pd => wordS 0x33 pd
  | .padd pd pa pb => wordP3 0x40 pd pa pb
  | .psub pd pa pb => wordP3 0x41 pd pa pb
  | .pwmul pd pa pb => wordP3 0x42 pd pa pb
  | .pwmac pd pa pb => wordP3 0x43 pd pa pb
  | .pkt1 pa addr => wordM 0x50 pa addr
  | .pkt0 pa addr => wordM 0x51 pa addr
  | .pketa pa addr => wordM 0x52 pa addr
  | .pkz pa addr => wordM 0x53 pa addr
  | .pkw1 pa addr => wordM 0x54 pa addr
  | .upt1 pd addr => wordM 0x58 pd addr
  | .upt0 pd addr => wordM 0x59 pd addr
  | .upeta pd addr => wordM 0x5A pd addr
  | .upz pd addr => wordM 0x5B pd addr
  | .upw1 pd addr => wordM 0x5C pd addr
  | .hintenc pa addr => wordM 0x60 pa addr
  | .hintdec pd addr => wordM 0x61 pd addr

/-- A row of the opcode map (R57): `w` is the command of the row iff `w &&& mask = pattern`. -/
structure OpcodeRow where
  mnemonic : String
  pattern : Word
  mask : Word
  deriving DecidableEq, Repr

/-- The row matches the word (R57). -/
def OpcodeRow.accepts (r : OpcodeRow) (w : Word) : Prop := w &&& r.mask = r.pattern

/-- The control rows of R57. -/
def rowsControl : List OpcodeRow :=
  [⟨"NOP", 0x00000000, 0xFFFFFFFF⟩,
   ⟨"CLRERR", 0x01000000, 0xFFFFFFFF⟩,
   ⟨"ZEROIZE", 0x02000000, 0xFFFFFFFF⟩,
   ⟨"LDRAW", 0x08000000, 0xFF0F0000⟩,
   ⟨"STRAW", 0x09000000, 0xFF0F0000⟩]

/-- The arithmetic rows of R57. -/
def rowsArithmetic : List OpcodeRow :=
  [⟨"PMOV", 0x10000000, 0xFF00FFFF⟩,
   ⟨"PRED", 0x11000000, 0xFF00FFFF⟩,
   ⟨"PCADDQ", 0x12000000, 0xFF00FFFF⟩,
   ⟨"NTT", 0x18000000, 0xFF00FFFF⟩,
   ⟨"INTT", 0x19000000, 0xFF00FFFF⟩,
   ⟨"P2RHI", 0x20000000, 0xFF00FFFF⟩,
   ⟨"P2RLO", 0x21000000, 0xFF00FFFF⟩,
   ⟨"DECHI", 0x22000000, 0xFF00FFFF⟩,
   ⟨"DECLO", 0x23000000, 0xFF00FFFF⟩,
   ⟨"MKHINT", 0x24000000, 0xFF000FFF⟩,
   ⟨"USEHINT", 0x25000000, 0xFF000FFF⟩]

/-- The stream and point-wise rows of R57. -/
def rowsSampler : List OpcodeRow :=
  [⟨"SAMPU", 0x30000000, 0xFF0FFFFF⟩,
   ⟨"SAMPE", 0x31000000, 0xFF0FFFFF⟩,
   ⟨"SAMPG", 0x32000000, 0xFF0FFFFF⟩,
   ⟨"SAMPC", 0x33000000, 0xFF0FFFFF⟩,
   ⟨"PADD", 0x40000000, 0xFF000FFF⟩,
   ⟨"PSUB", 0x41000000, 0xFF000FFF⟩,
   ⟨"PWMUL", 0x42000000, 0xFF000FFF⟩,
   ⟨"PWMAC", 0x43000000, 0xFF000FFF⟩]

/-- The packing and hint rows of R57. -/
def rowsPacking : List OpcodeRow :=
  [⟨"PKT1", 0x50000000, 0xFF0F0000⟩,
   ⟨"PKT0", 0x51000000, 0xFF0F0000⟩,
   ⟨"PKETA", 0x52000000, 0xFF0F0000⟩,
   ⟨"PKZ", 0x53000000, 0xFF0F0000⟩,
   ⟨"PKW1", 0x54000000, 0xFF0F0000⟩,
   ⟨"UPT1", 0x58000000, 0xFF0F0000⟩,
   ⟨"UPT0", 0x59000000, 0xFF0F0000⟩,
   ⟨"UPETA", 0x5A000000, 0xFF0F0000⟩,
   ⟨"UPZ", 0x5B000000, 0xFF0F0000⟩,
   ⟨"UPW1", 0x5C000000, 0xFF0F0000⟩,
   ⟨"HINTENC", 0x60000000, 0xFF0F0000⟩,
   ⟨"HINTDEC", 0x61000000, 0xFF0F0000⟩]

/-- The opcode map (R57). -/
def opcodeRows : List OpcodeRow := rowsControl ++ rowsArithmetic ++ rowsSampler ++ rowsPacking

end Sys2Proof
end

