-- ==== Sys2Proof/Machine/State.lean ====
section
/-! DEFINITION. The state of the NTT256 engine and of what stands at its ports, as plain data (10_state.md), the
reasons a step can stop, and the state after reset (R23, R180). -/

namespace Sys2Proof.Machine

/-- `BUF` (R19) as the list of the bytes that differ from what an unlisted address reads as, addresses rising. -/
abbrev Memory := List Host.Cell

/-- The fault causes (R160); `none` is code 0, no fault recorded. -/
inductive Cause where
  | none | illegal | addr | range | hintcnt | regspan
  deriving DecidableEq, Repr

/-- The `FAULT` register (R15): its `CAUSE` and `INFO` fields. Its other bits read as 0. -/
structure FaultReg where
  cause : Cause
  info : BitVec 12
  deriving DecidableEq, Repr

/-- The XOF stream `XS` (R18): the bytes in `ahead`, then byte `pos`, `pos + 1`, ... of the free stream number
`stream` (`Config.xofByte`). Every statement about a state is about every such stream (log entry 1). -/
structure Xof where
  ahead : List Byte
  stream : Nat
  pos : Nat
  deriving DecidableEq, Repr

/-- How far the loop of a rejection sampler has come (R111, R112, R114). -/
inductive Sampling where
  /-- SAMPU: `n` coefficients accepted, newest first (R111). -/
  | uniform (n : Nat) (a : List Coeff)
  /-- SAMPE: `n` coefficients accepted, newest first (R112). -/
  | eta (n : Nat) (a : List Coeff)
  /-- SAMPC: the sign bits not used yet, the index `i` of the loop, and the polynomial so far (R114). -/
  | challenge (signs : BitVec 64) (i : Nat) (c : RingElement)
  deriving DecidableEq, Repr

/-- A sampler command that has begun and not completed: `BUSY = 1` (R75, R116). `taken` counts its stream bytes. -/
structure Running where
  pd : PReg
  task : Sampling
  taken : Nat
  deriving DecidableEq, Repr

/-- What the world outside the block does next (R9, R18, R36 to R38, R180). -/
inductive HostMove where
  /-- A write of `size` bytes at a byte offset of the block; `value` holds the lowest address in its least
  significant byte. A write of a word to offset 0 is a command (R20). -/
  | write (offset size value : Nat)
  /-- A read of `size` bytes at a byte offset of the block. -/
  | read (offset size : Nat)
  /-- Reset (R180, R183). -/
  | reset
  /-- The host replaces the XOF stream by another (R18). -/
  | reseed (xs : Xof)
  deriving DecidableEq, Repr

/-- The machine: the block (first eight fields), the sampler in progress, the XOF source, and the host's side. -/
structure State where
  /-- The polynomial registers `P[0..15]` (R10). -/
  p : Vector RingElement 16
  /-- The buffer memory `BUF` (R19). -/
  buf : Memory
  /-- `STATUS.ERR` (R14). -/
  err : Bool
  /-- `STATUS.HREJ` (R14). -/
  hrej : Bool
  /-- `FAULT` (R15). -/
  fault : FaultReg
  /-- `FAULTCMD` (R16). -/
  faultcmd : Word
  /-- `CMDCNT` (R17). -/
  cmdcnt : Word
  /-- `XOFCNT` (R17). -/
  xofcnt : Word
  /-- The command in progress; `STATUS.BUSY` is 1 exactly while there is one (R14, R116). -/
  running : Option Running
  /-- The XOF stream `XS`, held by the XOF source (R18). -/
  xs : Xof
  /-- The host's moves, in the order in which they take effect (R40). -/
  host : List HostMove
  /-- What the host's latest read returned (R35, R37); the model's own field. -/
  reply : Option Nat
  deriving DecidableEq, Repr

/-- Reasons the machine stops. No command stops it: a command's fault is a next state with `ERR` set (R161). -/
inductive Fault where
  /-- Raised by a host access that leaves the block's window `0x0000 .. 0x3FFF` (R37, R38). Safe: the model stops
  where another device of the platform would answer. -/
  | outsideBlock
  deriving DecidableEq, Repr

/-- Reasons a step has no meaning. -/
inductive Refusal where
  /-- Raised by `exec` for a command that has no meaning in the model yet. Safe. No command raises it now. -/
  | notModelled (mnemonic : String)
  /-- Raised by a host access to a reserved offset, to which R38 says "a model gives ... no meaning" (U5). Safe. -/
  | reservedOffset
  /-- Raised by a host access to the control registers that is not an aligned 32-bit access, "not defined" by R36
  (U6). Safe. -/
  | registerAccessShape
  deriving DecidableEq, Repr

/-- The machine right after reset: every piece of state the block holds is zero (R23, R180), no command is running,
and the host has done nothing yet. The XOF stream is the free stream number 0, of which nothing is known. -/
def State.reset : State where
  p := Vector.replicate 16 (Vector.replicate 256 0)
  buf := []
  err := false
  hrej := false
  fault := ⟨.none, 0⟩
  faultcmd := 0
  cmdcnt := 0
  xofcnt := 0
  running := none
  xs := ⟨[], 0, 0⟩
  host := []
  reply := none

end Sys2Proof.Machine
end

