-- ==== Sys2Proof/Machine/Arith.lean ====
section
/-! DEFINITION. The notation of 00_scope.md R6 and the lane-wise operations on ring elements: operands are read as
integers, computed exactly, and narrowed to 32 bits at the end (45_pointwise.md R125). -/

namespace Sys2Proof.Machine

/-- `wrap32`: the integer in `-2^31 .. 2^31 - 1` congruent to `x` modulo `2^32` (R6). -/
def wrap32 (x : Int) : Int := (x + 2147483648) % 4294967296 - 2147483648

/-- `x mod± m` for even `m`: the remainder in `-m/2 < r ≤ m/2` (R6). -/
def centredMod (x m : Int) : Int := if m < 2 * (x % m) then x % m - m else x % m

/-- The coefficient that holds an integer, wrapped to 32 bits (R125). -/
def coeff (x : Int) : Coeff := BitVec.ofInt 32 x

/-- Bytes read as one number, the first byte least significant (R33). -/
def littleEndian : List Byte → Nat
  | [] => 0
  | b :: bs => b.toNat + 256 * littleEndian bs

/-- The lowest `n` bytes of a number, least significant first (R33). -/
def bytesOf (n v : Nat) : List Byte := (List.range n).map fun m => BitVec.ofNat 8 (v >>> (8 * m))

/-- The ring element with the coefficients of a list of 256 (a shorter list is filled with 0, a longer one cut). -/
def ringElement (l : List Coeff) : RingElement :=
  ⟨⟨(l ++ List.replicate 256 0).take 256⟩, by
    rw [List.size_toArray, List.length_take, List.length_append, List.length_replicate]
    omega⟩

/-- The ring element whose coefficients are these integers, each wrapped to 32 bits. -/
def ringOfInts (l : List Int) : RingElement := ringElement (l.map coeff)

/-- The zero polynomial. -/
def zeroRing : RingElement := Vector.replicate 256 0

/-- The coefficients of a ring element as integers, coefficient 0 first. -/
def ints (v : RingElement) : List Int := v.toList.map BitVec.toInt

/-- Apply an integer function to each lane. -/
def lanes1 (f : Int → Int) (u : RingElement) : RingElement :=
  ⟨⟨u.toList.map fun a => coeff (f a.toInt)⟩, by simp⟩

/-- Apply an integer function to the lanes of two ring elements. -/
def lanes2 (f : Int → Int → Int) (u v : RingElement) : RingElement :=
  ⟨⟨List.zipWith (fun a b => coeff (f a.toInt b.toInt)) u.toList v.toList⟩, by simp⟩

end Sys2Proof.Machine
end

