-- ==== Sys2Proof/Machine/Ops.lean ====
section
/-! DEFINITION. The named operations every command uses: buffer memory, polynomial registers, the XOF stream, the
completion of a command, and taking a fault and returning from one (R7, R75, R161, R165). -/

namespace Sys2Proof.Machine

/-! ### Buffer memory -/

/-- What an unlisted byte of `BUF` reads as: every byte is 0 after reset (R23). -/
def Memory.unlisted : Byte := 0

/-- `BUF[a]`. -/
def Memory.read : Memory → Nat → Byte
  | [], _ => Memory.unlisted
  | (k, b) :: m, a => if k = a then b else Memory.read m a

/-- `MemRead(addr, n)` (R7). -/
def Memory.readBytes (m : Memory) (addr n : Nat) : List Byte := (List.range n).map fun i => m.read (addr + i)

/-- The listed cells of a byte string at `addr`: the bytes that differ from what an unlisted address reads as. -/
def Memory.cells : Nat → List Byte → Memory
  | _, [] => []
  | addr, b :: bs => if b = Memory.unlisted then cells (addr + 1) bs else (addr, b) :: cells (addr + 1) bs

/-- `MemWrite(addr, n, bs)` (R7): the cells below, the new cells, the cells above. -/
def Memory.writeBytes (m : Memory) (addr : Nat) (bs : List Byte) : Memory :=
  m.filter (fun c => c.1 < addr) ++ (Memory.cells addr bs ++ m.filter fun c => addr + bs.length ≤ c.1)

/-- The canonical form: addresses strictly rising, no cell equal to what an unlisted address reads as. -/
abbrev Memory.wf (m : Memory) : Prop :=
  m.Pairwise (fun c d => c.1 < d.1) ∧ ∀ c ∈ m, c.2 ≠ Memory.unlisted

/-- Every listed address exists (R19). -/
abbrev Memory.inRange (m : Memory) : Prop := ∀ c ∈ m, c.1 < Config.bufBytes

/-! ### The state's named updates -/

/-- `P[r] <- v` (R7). -/
def State.setPoly (s : State) (r : PReg) (v : RingElement) : State := { s with p := s.p.set r.val v }

/-- `MemWrite` on `BUF`. -/
def State.storeBytes (s : State) (addr : Nat) (bs : List Byte) : State :=
  { s with buf := s.buf.writeBytes addr bs }

/-- `STATUS.HREJ <- b` (R14). -/
def State.setHrej (s : State) (b : Bool) : State := { s with hrej := b }

/-- `XOFCNT <- n`, modulo `2^32` (R17). -/
def State.setXofcnt (s : State) (n : Nat) : State := { s with xofcnt := BitVec.ofNat 32 n }

/-- The XOF source's stream becomes `xs` (R18). -/
def State.setXs (s : State) (xs : Xof) : State := { s with xs := xs }

/-- The command in progress becomes `r`; `none` is `BUSY <- 0` (R14). -/
def State.setRunning (s : State) (r : Option Running) : State := { s with running := r }

/-- The host's moves still to come become `ms` (R40). -/
def State.setHost (s : State) (ms : List HostMove) : State := { s with host := ms }

/-- A host read returns `v` (R35). -/
def State.setReply (s : State) (v : Nat) : State := { s with reply := some v }

/-- The end of a command without fault: `CMDCNT <- (CMDCNT + 1) mod 2^32` (R75, R17). -/
def State.complete (s : State) : State := { s with cmdcnt := s.cmdcnt + 1 }

/-- Taking a fault (R161): `ERR`, `FAULT` and `FAULTCMD` record it and nothing else changes. `w` is the command word,
`info` goes to `FAULT.INFO` (R163; 0 for every cause but RANGE). -/
def State.raiseFault (s : State) (w : Word) (c : Cause) (info : Nat) : State :=
  { s with err := true, fault := ⟨c, BitVec.ofNat 12 info⟩, faultcmd := w }

/-- Returning from a fault (R165, R71): `ERR`, `FAULT` and `FAULTCMD` are cleared. -/
def State.clearFault (s : State) : State :=
  { s with err := false, fault := ⟨.none, 0⟩, faultcmd := 0 }

/-- Clearing the data (R72): all registers, all of `BUF`, `HREJ` and `XOFCNT`. -/
def State.clearData (s : State) : State :=
  { s with p := Vector.replicate 16 zeroRing, buf := [], hrej := false, xofcnt := 0 }

/-- Reset as a host move (R180, R183): the block's state becomes that of R23, a running command is abandoned, the XOF
stream stays where it is, and what is on the host's side is the host's. -/
def State.resetBlock (s : State) : State :=
  { State.reset with xs := s.xs, host := s.host, reply := s.reply }

/-! ### The XOF stream -/

/-- `XofNext()`: the next byte and the rest of the stream (R7, R18). -/
def Xof.next (x : Xof) : Byte × Xof :=
  match x.ahead with
  | b :: bs => (b, { x with ahead := bs })
  | [] => (Config.xofByte x.stream x.pos, { x with pos := x.pos + 1 })

/-- `n` calls of `XofNext()`, in order. -/
def Xof.take : Nat → Xof → List Byte × Xof
  | 0, x => ([], x)
  | n + 1, x =>
    let (b, x) := x.next
    let (bs, x) := Xof.take n x
    (b :: bs, x)

end Sys2Proof.Machine
end

