-- ==== Sys2Proof/Machine/Operands.lean ====
section
/-! DEFINITION. The operand forms of the commands: one or two source registers and a destination (R52, R53), the
buffer operand with its bounds check (R32), and the group of eight registers (R11). Every form reads all of its
sources before it writes (R58). -/

namespace Sys2Proof.Machine

/-- What a step answers. -/
abbrev Outcome := Host.Outcome State Fault Refusal

/-- Format P2: `P[pd] <- f(P[pa])`, and the command completes (R52, R58). -/
def unary (f : RingElement → RingElement) (pd pa : PReg) (s : State) : State :=
  (s.setPoly pd (f s.p[pa])).complete

/-- Format P3: `P[pd] <- f(P[pa], P[pb])`, and the command completes (R53, R58). -/
def binary (f : RingElement → RingElement → RingElement) (pd pa pb : PReg) (s : State) : State :=
  (s.setPoly pd (f s.p[pa] s.p[pb])).complete

/-- Format M: command `i` goes on as `body` if its `n` bytes at `addr` lie in `BUF`, else it raises `ADDR` (R32). -/
def buffered (i : Instr) (addr n : Nat) (body : State → State) (s : State) : State :=
  if addr + n ≤ Config.bufBytes then body s else s.raiseFault (encode i) .addr 0

/-- A group of eight: command `i` goes on as `body` if registers `r .. r + 7` exist, else it raises `REGSPAN`
(R11, R160). -/
def grouped (i : Instr) (r : PReg) (body : State → State) (s : State) : State :=
  if r.val ≤ 8 then body s else s.raiseFault (encode i) .regspan 0

/-- The rows of the group with base `r`, row `i` in `P[r + i]` (R11). -/
def State.group (s : State) (r : PReg) : List RingElement := (s.p.toList.drop r.val).take Config.rowsK

/-- `P[r + i] <- rows[i]` for `i = 0 .. 7` (R11). -/
def State.setGroup (s : State) (r : PReg) (rows : List RingElement) : State :=
  { s with p := Vector.ofFn fun j => if r.val ≤ j.val then rows[j.val - r.val]?.getD s.p[j] else s.p[j] }

end Sys2Proof.Machine
end

