-- ==== Sys2Proof/Machine/Control.lean ====
section
/-! DEFINITION. Control and raw-transfer commands: NOP, CLRERR, ZEROIZE, LDRAW, STRAW (40_control.md). -/

namespace Sys2Proof.Machine

/-- NOP (R70): only `CMDCNT` moves. -/
def execNop (s : State) : Outcome := .next s.complete

/-- CLRERR (R71): the return from a fault (R165). -/
def execClrerr (s : State) : Outcome := .next s.clearFault.complete

/-- ZEROIZE (R72): counted, `ERR` and the fault registers kept, the XOF stream not touched. -/
def execZeroize (s : State) : Outcome := .next s.clearData.complete

/-- The 1024-byte image of a ring element: coefficient `i` as four bytes at `4i`, least significant first (R33 (b)). -/
def rawImage (v : RingElement) : List Byte := v.toList.flatMap fun c => bytesOf 4 c.toNat

/-- The coefficients of a raw image (R73). -/
def rawCoeffs : Nat → List Byte → List Coeff
  | 0, _ => []
  | n + 1, bs => BitVec.ofNat 32 (littleEndian (bs.take 4)) :: rawCoeffs n (bs.drop 4)

/-- LDRAW (R73). -/
def execLdraw (pd : PReg) (addr : Nat) (s : State) : Outcome :=
  .next (buffered (.ldraw pd addr) addr 1024
    (fun s => (s.setPoly pd (ringElement (rawCoeffs 256 (s.buf.readBytes addr 1024)))).complete) s)

/-- STRAW (R74). -/
def execStraw (pa : PReg) (addr : Nat) (s : State) : Outcome :=
  .next (buffered (.straw pa addr) addr 1024 (fun s => (s.storeBytes addr (rawImage s.p[pa])).complete) s)

end Sys2Proof.Machine
end

