-- ==== Sys2Proof/Machine/Hint.lean ====
section
/-! DEFINITION. Hint vector encoder and decoder: HINTENC, HINTDEC (47_hint.md). -/

namespace Sys2Proof.Machine

/-- The size of the encoding, `OMEGA + K` bytes (R150). -/
def hintBytes : Nat := Config.omega + Config.rowsK

/-- `idx(i)`: the indices of the ones of a row, rising (R150). -/
def onesOf (row : RingElement) : List Nat :=
  ((List.range 256).zip row.toList).filterMap fun (j, c) => if c = 1 then some j else none

/-- The place `256 * row + i` of the first coefficient that is neither 0 nor 1 (R151, R163). -/
def firstNonBit (rows : List RingElement) : Option Nat :=
  (rows.flatMap Vector.toList).findIdx? fun c => c ≠ 0 && c ≠ 1

/-- The running counts of the ones after each row, starting from `k` (R150, R151). -/
def hintCounts : Nat → List (List Nat) → List Nat
  | _, [] => []
  | k, idx :: rest => (k + idx.length) :: hintCounts (k + idx.length) rest

/-- The 83 bytes of a hint vector: the indices row by row, the zero tail, the cumulative counts (R150). -/
def hintEncode (rows : List RingElement) : List Nat :=
  let idx := rows.map onesOf
  (idx.flatten ++ List.replicate (Config.omega - idx.flatten.length) 0) ++ hintCounts 0 idx

/-- HINTENC (R151): `REGSPAN`, `ADDR`, `RANGE`, `HINTCNT` in this order, then the write. -/
def execHintenc (pa : PReg) (addr : Nat) (s : State) : Outcome :=
  .next (grouped (.hintenc pa addr) pa (buffered (.hintenc pa addr) addr hintBytes fun s =>
    let rows := s.group pa
    match firstNonBit rows with
    | some k => s.raiseFault (encode (.hintenc pa addr)) .range k
    | none =>
      if Config.omega < (rows.map fun row => (onesOf row).length).sum then
        s.raiseFault (encode (.hintenc pa addr)) .hintcnt 0
      else (s.storeBytes addr ((hintEncode rows).map (BitVec.ofNat 8))).complete) s)

/-- The indices of a row are strictly increasing (check 3 of R152). -/
def strictlyRising : List Nat → Bool
  | x :: y :: l => x < y && strictlyRising (y :: l)
  | _ => true

/-- The row with ones at the given indices. -/
def rowOfOnes (idx : List Nat) : RingElement := ringElement ((List.range 256).map fun j => if j ∈ idx then 1 else 0)

/-- The rows from the counts still to read, `k` indices being used up; `none` when one of the four checks fails
(R152). `y` is the index region, `OMEGA` bytes. -/
def hintRows (y : List Nat) : List Nat → Nat → Option (List RingElement)
  | [], k => if (y.drop k).all (· = 0) then some [] else none
  | c :: counts, k =>
    if c < k ∨ Config.omega < c then none
    else
      let idx := (y.drop k).take (c - k)
      if strictlyRising idx then (hintRows y counts c).map (rowOfOnes idx :: ·) else none

/-- The hint vector 83 bytes encode, or `none` when the encoding is not canonical (R152, R154). -/
def hintDecode (bs : List Byte) : Option (List RingElement) :=
  let y := bs.map BitVec.toNat
  hintRows (y.take Config.omega) (y.drop Config.omega) 0

/-- HINTDEC (R152): a reject is no fault; it zeroes the eight registers and sets `HREJ` (R153). -/
def execHintdec (pd : PReg) (addr : Nat) (s : State) : Outcome :=
  .next (grouped (.hintdec pd addr) pd (buffered (.hintdec pd addr) addr hintBytes fun s =>
    match hintDecode (s.buf.readBytes addr hintBytes) with
    | some rows => ((s.setGroup pd rows).setHrej false).complete
    | none => ((s.setGroup pd (List.replicate Config.rowsK zeroRing)).setHrej true).complete) s)

end Sys2Proof.Machine
end

