-- ==== Sys2Proof/Machine/Reduce.lean ====
section
/-! DEFINITION. Montgomery multiplier and modular reducer: the functions MontRed, MontMul, Reduce32 and CAddQ, and
the commands PMOV, PRED, PCADDQ (41_reduce.md). -/

namespace Sys2Proof.Machine

/-- `QINV`, the inverse of `q` modulo `2^32` (R5). -/
def qinv : Int := 58728449

/-- The Montgomery reducer (R80); every argument the commands form is a product of two 32-bit values (U4). -/
def montRed (a : Int) : Int := (a - wrap32 (a % 4294967296 * qinv) * Config.q) / 4294967296

/-- The Montgomery multiplier (R86). -/
def montMul (x y : Int) : Int := montRed (x * y)

/-- The fast reducer: `a - round(a / 2^23) * q`, rounding half up, on exact integers (R81). -/
def reduce32 (a : Int) : Int := a - (a + 4194304) / 8388608 * Config.q

/-- The conditional add (R82). -/
def caddq (a : Int) : Int := if a < 0 then a + Config.q else a

/-- PMOV (R83). -/
def execPmov (pd pa : PReg) (s : State) : Outcome := .next (unary id pd pa s)

/-- PRED (R84). -/
def execPred (pd pa : PReg) (s : State) : Outcome := .next (unary (lanes1 reduce32) pd pa s)

/-- PCADDQ (R85). -/
def execPcaddq (pd pa : PReg) (s : State) : Outcome := .next (unary (lanes1 caddq) pd pa s)

end Sys2Proof.Machine
end

