-- ==== Sys2Proof/Machine/Pointwise.lean ====
section
/-! DEFINITION. Point-wise multiplier and adder: PADD, PSUB, PWMUL, PWMAC (45_pointwise.md). -/

namespace Sys2Proof.Machine

/-- PADD (R120). -/
def execPadd (pd pa pb : PReg) (s : State) : Outcome := .next (binary (lanes2 fun a b => wrap32 (a + b)) pd pa pb s)

/-- PSUB (R121). -/
def execPsub (pd pa pb : PReg) (s : State) : Outcome := .next (binary (lanes2 fun a b => wrap32 (a - b)) pd pa pb s)

/-- PWMUL (R122). -/
def execPwmul (pd pa pb : PReg) (s : State) : Outcome := .next (binary (lanes2 montMul) pd pa pb s)

/-- PWMAC (R123): the old `P[pd]` is the third source. -/
def execPwmac (pd pa pb : PReg) (s : State) : Outcome :=
  .next (binary (fun u v => lanes2 (fun c m => wrap32 (c + m)) s.p[pd] (lanes2 montMul u v)) pd pa pb s)

end Sys2Proof.Machine
end

