-- ==== Sys2Proof/Machine/Rounding.lean ====
section
/-! DEFINITION. Rounding unit: Power2Round, Decompose, MakeHint, UseHint, and the commands P2RHI, P2RLO, DECHI, DECLO,
MKHINT, USEHINT (43_rounding.md). -/

namespace Sys2Proof.Machine

/-- `Power2Round(a) = (a1, a0)` (R100). -/
def power2Round (a : Int) : Int × Int :=
  let a1 := (a + 4095) / 8192
  (a1, a - 8192 * a1)

/-- `Decompose(a) = (a1, a0)`, the top bucket folded into `a1 = 0` (R101). -/
def decompose (a : Int) : Int × Int :=
  let r := a % Config.q
  let a0 := centredMod r Config.twoGamma2
  if r - a0 = Config.q - 1 then (0, a0 - 1) else ((r - a0) / Config.twoGamma2, a0)

/-- `MakeHint(a0, a1)` (R108). -/
def makeHint (a0 a1 : Int) : Int :=
  if a0 > Config.gamma2 ∨ a0 < -Config.gamma2 ∨ (a0 = -Config.gamma2 ∧ a1 ≠ 0) then 1 else 0

/-- `UseHint(a, h)` (R109). -/
def useHint (a h : Int) : Int :=
  let (a1, a0) := decompose a
  if h = 0 then a1 else if a0 > 0 then (a1 + 1) % 16 else (a1 - 1) % 16

/-- P2RHI (R102). -/
def execP2rhi (pd pa : PReg) (s : State) : Outcome := .next (unary (lanes1 fun a => (power2Round a).1) pd pa s)

/-- P2RLO (R103). -/
def execP2rlo (pd pa : PReg) (s : State) : Outcome := .next (unary (lanes1 fun a => (power2Round a).2) pd pa s)

/-- DECHI (R104). -/
def execDechi (pd pa : PReg) (s : State) : Outcome := .next (unary (lanes1 fun a => (decompose a).1) pd pa s)

/-- DECLO (R105). -/
def execDeclo (pd pa : PReg) (s : State) : Outcome := .next (unary (lanes1 fun a => (decompose a).2) pd pa s)

/-- MKHINT (R106): `pa` the low parts, `pb` the high parts. -/
def execMkhint (pd pa pb : PReg) (s : State) : Outcome := .next (binary (lanes2 makeHint) pd pa pb s)

/-- USEHINT (R107): `pa` the values, `pb` the hint bits. -/
def execUsehint (pd pa pb : PReg) (s : State) : Outcome := .next (binary (lanes2 useHint) pd pa pb s)

end Sys2Proof.Machine
end

