-- ==== Sys2Proof/Machine/Packing.lean ====
section
/-! DEFINITION. Fixed-width packer and unpacker: the five formats, PackBits and UnpackBits, and the ten pack and
unpack commands (46_packing.md). -/

namespace Sys2Proof.Machine

/-- A packed format (R130): the field width `w`, the stored value `T(c)` of a coefficient, and its inverse. -/
structure PackFormat where
  width : Nat
  stored : Int → Int
  restored : Int → Int

/-- t1: 10 bits, stored as it stands (R130). -/
def formatT1 : PackFormat := ⟨10, id, id⟩

/-- t0: 13 bits, stored as `2^(d-1) - c` (R130). -/
def formatT0 : PackFormat := ⟨13, fun c => 4096 - c, fun v => 4096 - v⟩

/-- eta: 3 bits, stored as `2 - c` (R130). -/
def formatEta : PackFormat := ⟨3, fun c => 2 - c, fun v => 2 - v⟩

/-- z: 20 bits, stored as `2^19 - c` (R130). -/
def formatZ : PackFormat := ⟨20, fun c => 524288 - c, fun v => 524288 - v⟩

/-- w1: 4 bits, stored as it stands (R130). -/
def formatW1 : PackFormat := ⟨4, id, id⟩

/-- `PackBits(w, v)` (R131): the values end to end in one integer, value 0 lowest, cut into `32 * w` bytes. -/
def packBits (w : Nat) (v : List Nat) : List Byte :=
  let stream := v.foldr (fun x acc => x + 2 ^ w * acc) 0
  bytesOf (32 * w) stream

/-- `UnpackBits(w, s)` (R131). -/
def unpackBits (w : Nat) (s : List Byte) : List Nat :=
  let stream := littleEndian s
  (List.range 256).map fun i => (stream >>> (w * i)) % 2 ^ w

/-- The stored values of a ring element (R132). -/
def storedValues (f : PackFormat) (v : RingElement) : List Int := (ints v).map f.stored

/-- The lowest index whose value does not fit the field (R132, R163). -/
def firstMisfit (w : Nat) (v : List Int) : Option Nat := v.findIdx? fun x => x < 0 || 2 ^ w ≤ x

/-- The ring element an unpacker reads from `32 * w` bytes (R133; for z this is `UnpackZ`, R142). -/
def unpackRing (f : PackFormat) (bs : List Byte) : RingElement :=
  ringOfInts ((unpackBits f.width bs).map fun v => f.restored v)

/-- Every pack command (R132): `ADDR`, then `RANGE` with the lowest offender, then the write. -/
def pack (i : Instr) (f : PackFormat) (pa : PReg) (addr : Nat) (s : State) : State :=
  buffered i addr (32 * f.width) (fun s =>
    let v := storedValues f s.p[pa]
    match firstMisfit f.width v with
    | some k => s.raiseFault (encode i) .range k
    | none => (s.storeBytes addr (packBits f.width (v.map Int.toNat))).complete) s

/-- Every unpack command (R133). -/
def unpack (i : Instr) (f : PackFormat) (pd : PReg) (addr : Nat) (s : State) : State :=
  buffered i addr (32 * f.width)
    (fun s => (s.setPoly pd (unpackRing f (s.buf.readBytes addr (32 * f.width)))).complete) s

/-- PKT1 (R134). -/
def execPkt1 (pa : PReg) (addr : Nat) (s : State) : Outcome := .next (pack (.pkt1 pa addr) formatT1 pa addr s)

/-- PKT0 (R135). -/
def execPkt0 (pa : PReg) (addr : Nat) (s : State) : Outcome := .next (pack (.pkt0 pa addr) formatT0 pa addr s)

/-- PKETA (R136). -/
def execPketa (pa : PReg) (addr : Nat) (s : State) : Outcome := .next (pack (.pketa pa addr) formatEta pa addr s)

/-- PKZ (R137). -/
def execPkz (pa : PReg) (addr : Nat) (s : State) : Outcome := .next (pack (.pkz pa addr) formatZ pa addr s)

/-- PKW1 (R138). -/
def execPkw1 (pa : PReg) (addr : Nat) (s : State) : Outcome := .next (pack (.pkw1 pa addr) formatW1 pa addr s)

/-- UPT1 (R139). -/
def execUpt1 (pd : PReg) (addr : Nat) (s : State) : Outcome := .next (unpack (.upt1 pd addr) formatT1 pd addr s)

/-- UPT0 (R140). -/
def execUpt0 (pd : PReg) (addr : Nat) (s : State) : Outcome := .next (unpack (.upt0 pd addr) formatT0 pd addr s)

/-- UPETA (R141). -/
def execUpeta (pd : PReg) (addr : Nat) (s : State) : Outcome := .next (unpack (.upeta pd addr) formatEta pd addr s)

/-- UPZ (R142). -/
def execUpz (pd : PReg) (addr : Nat) (s : State) : Outcome := .next (unpack (.upz pd addr) formatZ pd addr s)

/-- UPW1 (R143). -/
def execUpw1 (pd : PReg) (addr : Nat) (s : State) : Outcome := .next (unpack (.upw1 pd addr) formatW1 pd addr s)

end Sys2Proof.Machine
end

