-- ==== Sys2Proof/Machine/Sampler.lean ====
section
/-! DEFINITION. Polynomial sampler: SAMPU, SAMPE, SAMPG, SAMPC (44_sampler.md). A rejection sampler makes draws from
the stream until it has enough; what it has so far is kept in `State.running` while it has not ended (R116). -/

namespace Sys2Proof.Machine

/-- SAMPE's coefficient of an accepted nibble (R112). -/
def etaCoeff (t : Nat) : Coeff := coeff (2 - (t % 5 : Nat))

/-- Take a nibble into SAMPE's coefficients if it is accepted and there is room (R112). -/
def etaAccept (t n : Nat) (a : List Coeff) : Nat × List Coeff :=
  if t < 15 ∧ n < 256 then (n + 1, etaCoeff t :: a) else (n, a)

/-- SAMPC's sign: sign bit 0 gives 1, sign bit 1 gives -1 (R114). -/
def signCoeff (signs : BitVec 64) : Coeff := coeff (1 - 2 * (signs.toNat % 2 : Nat))

/-- One pass of the sampler's loop: the progress after it, the number of bytes it took, and the rest of the stream. -/
def Sampling.draw (t : Sampling) (x : Xof) : Sampling × Nat × Xof :=
  match t with
  | .uniform n a =>
    let (bs, x) := x.take 3
    let v := littleEndian bs % 8388608
    if (v : Int) < Config.q then (.uniform (n + 1) (coeff v :: a), 3, x) else (.uniform n a, 3, x)
  | .eta n a =>
    let (b, x) := x.next
    let (n, a) := etaAccept (b.toNat % 16) n a
    let (n, a) := etaAccept (b.toNat / 16) n a
    (.eta n a, 1, x)
  | .challenge signs i c =>
    let (b, x) := x.next
    if b.toNat ≤ i then
      let moved := c.setIfInBounds i (c.getD b.toNat 0)
      (.challenge (signs >>> 1) (i + 1) (moved.setIfInBounds b.toNat (signCoeff signs)), 1, x)
    else (.challenge signs i c, 1, x)

/-- The finished polynomial, when there are 256 coefficients (R111, R112) or the last index is done (R114). -/
def Sampling.result : Sampling → Option RingElement
  | .uniform n a => if n = 256 then some (ringElement a.reverse) else none
  | .eta n a => if n = 256 then some (ringElement a.reverse) else none
  | .challenge _ i c => if i = 256 then some c else none

/-- Up to `fuel` draws of the loop, stopping when it has ended. -/
def drawMany : Nat → Running → Xof → Running × Xof
  | 0, r, x => (r, x)
  | fuel + 1, r, x =>
    match r.task.result with
    | some _ => (r, x)
    | none =>
      let (t, n, x) := r.task.draw x
      drawMany fuel { r with task := t, taken := r.taken + n } x

/-- The sampler runs on: it commits its result when its loop ends (R75, R110), and else stays in progress with
`BUSY = 1` and nothing but the stream changed (R116). DESIGN CHOICE (log entry 20): the spec does not say after how many
stream bytes a reset can catch a sampler (R168, R183); here it is never inside a burst, nor inside one that ends. -/
def runSampler (r : Running) (s : State) : State :=
  let (r, x) := drawMany Config.burstDraws r s.xs
  match r.task.result with
  | some v => ((((s.setPoly r.pd v).setXofcnt r.taken).setXs x).setRunning none).complete
  | none => (s.setXs x).setRunning (some r)

/-- SAMPU (R111). -/
def execSampu (pd : PReg) (s : State) : Outcome := .next (runSampler ⟨pd, .uniform 0 [], 0⟩ s)

/-- SAMPE (R112). -/
def execSampe (pd : PReg) (s : State) : Outcome := .next (runSampler ⟨pd, .eta 0 [], 0⟩ s)

/-- SAMPG's 640 bytes taken and unpacked as UPZ does (R113). DESIGN CHOICE (log entry 20): it is one step, so no reset falls
inside its 640 bytes, where the spec leaves that open (R168, R183). -/
def sampleMask (pd : PReg) (s : State) : State :=
  let (bs, x) := s.xs.take 640
  (((s.setPoly pd (unpackRing formatZ bs)).setXofcnt 640).setXs x).complete

/-- SAMPG (R113). -/
def execSampg (pd : PReg) (s : State) : Outcome := .next (sampleMask pd s)

/-- SAMPC's first 8 bytes are the sign bits, the first byte least significant; the loop runs over the last `TAU`
indices (R114). -/
def startChallenge (pd : PReg) (s : State) : State :=
  let (bs, x) := s.xs.take 8
  runSampler ⟨pd, .challenge (BitVec.ofNat 64 (littleEndian bs)) (256 - Config.tau) zeroRing, 8⟩ (s.setXs x)

/-- SAMPC (R114). -/
def execSampc (pd : PReg) (s : State) : Outcome := .next (startChallenge pd s)

end Sys2Proof.Machine
end

