-- ==== Sys2Proof/Machine/Dispatch.lean ====
section
/-! DEFINITION. What each command does in a state in which it is executed (R75): one arm per constructor. -/

namespace Sys2Proof.Machine

def exec (i : Instr) (s : State) : Host.Outcome State Fault Refusal :=
  match i with
  | .nop => Sys2Proof.Machine.execNop s
  | .clrerr => Sys2Proof.Machine.execClrerr s
  | .zeroize => Sys2Proof.Machine.execZeroize s
  | .ldraw pd addr => Sys2Proof.Machine.execLdraw pd addr s
  | .straw pa addr => Sys2Proof.Machine.execStraw pa addr s
  | .pmov pd pa => Sys2Proof.Machine.execPmov pd pa s
  | .pred pd pa => Sys2Proof.Machine.execPred pd pa s
  | .pcaddq pd pa => Sys2Proof.Machine.execPcaddq pd pa s
  | .ntt pd pa => Sys2Proof.Machine.execNtt pd pa s
  | .intt pd pa => Sys2Proof.Machine.execIntt pd pa s
  | .p2rhi pd pa => Sys2Proof.Machine.execP2rhi pd pa s
  | .p2rlo pd pa => Sys2Proof.Machine.execP2rlo pd pa s
  | .dechi pd pa => Sys2Proof.Machine.execDechi pd pa s
  | .declo pd pa => Sys2Proof.Machine.execDeclo pd pa s
  | .mkhint pd pa pb => Sys2Proof.Machine.execMkhint pd pa pb s
  | .usehint pd pa pb => Sys2Proof.Machine.execUsehint pd pa pb s
  | .sampu pd => Sys2Proof.Machine.execSampu pd s
  | .sampe pd => Sys2Proof.Machine.execSampe pd s
  | .sampg pd => Sys2Proof.Machine.execSampg pd s
  | .sampc pd => Sys2Proof.Machine.execSampc pd s
  | .padd pd pa pb => Sys2Proof.Machine.execPadd pd pa pb s
  | .psub pd pa pb => Sys2Proof.Machine.execPsub pd pa pb s
  | .pwmul pd pa pb => Sys2Proof.Machine.execPwmul pd pa pb s
  | .pwmac pd pa pb => Sys2Proof.Machine.execPwmac pd pa pb s
  | .pkt1 pa addr => Sys2Proof.Machine.execPkt1 pa addr s
  | .pkt0 pa addr => Sys2Proof.Machine.execPkt0 pa addr s
  | .pketa pa addr => Sys2Proof.Machine.execPketa pa addr s
  | .pkz pa addr => Sys2Proof.Machine.execPkz pa addr s
  | .pkw1 pa addr => Sys2Proof.Machine.execPkw1 pa addr s
  | .upt1 pd addr => Sys2Proof.Machine.execUpt1 pd addr s
  | .upt0 pd addr => Sys2Proof.Machine.execUpt0 pd addr s
  | .upeta pd addr => Sys2Proof.Machine.execUpeta pd addr s
  | .upz pd addr => Sys2Proof.Machine.execUpz pd addr s
  | .upw1 pd addr => Sys2Proof.Machine.execUpw1 pd addr s
  | .hintenc pa addr => Sys2Proof.Machine.execHintenc pa addr s
  | .hintdec pd addr => Sys2Proof.Machine.execHintdec pd addr s

end Sys2Proof.Machine
end

