-- ==== Sys2Proof/Machine/Flags.lean ====
section
/-! DEFINITION. The words the host reads from the control registers, computed from their fields (10_state.md R14 to
R17, R20; 60_exceptions.md R160). -/

namespace Sys2Proof.Machine

/-- The code of a fault cause (R160). -/
def Cause.code : Cause → BitVec 8
  | .none => 0
  | .illegal => 1
  | .addr => 2
  | .range => 3
  | .hintcnt => 4
  | .regspan => 5

/-- `BUSY`: 1 while a command is executing (R14). -/
def State.busy (s : State) : Bool := s.running.isSome

/-- The `STATUS` word: `BUSY` bit 0, `ERR` bit 1, `HREJ` bit 2, bits 31:3 zero (R14). -/
def State.statusWord (s : State) : Word :=
  0#29 ++ BitVec.ofBool s.hrej ++ BitVec.ofBool s.err ++ BitVec.ofBool s.busy

/-- The `FAULT` word: `CAUSE` bits 7:0, `INFO` bits 19:8, bits 31:20 zero (R15). -/
def FaultReg.word (f : FaultReg) : Word := 0#12 ++ f.info ++ f.cause.code

/-- What the host reads from control register `n`; `CMD` reads as 0 (10_state.md section 3, R20). -/
def State.controlWord (s : State) : Nat → Word
  | 1 => s.statusWord
  | 2 => s.fault.word
  | 3 => s.faultcmd
  | 4 => s.cmdcnt
  | 5 => s.xofcnt
  | _ => 0

end Sys2Proof.Machine
end

