-- ==== Sys2Proof/Machine/HostPort.lean ====
section
/-! DEFINITION. The host's side: what a write to `CMD` makes the engine do (R75), the address map (R36 to R38), and
which host moves wait while a command runs (R40). -/

namespace Sys2Proof.Machine

/-- The word of CLRERR, the only one executed while `ERR = 1` (R164). -/
def clrerrWord : Word := 0x01000000

/-- A write of `w` to `CMD` (R75): dropped while `ERR = 1` unless it is CLRERR (R164), else decoded and executed; a word
that is no command raises `ILLEGAL` (R59). -/
def accept (w : Word) (s : State) : Outcome :=
  if s.err ∧ w ≠ clrerrWord then .next s
  else
    match decode w with
    | .instr i => exec i s
    | .reject _ => .next (s.raiseFault w .illegal 0)

/-- The first offset of the buffer window (R37). -/
def windowBase : Nat := 0x2000

/-- The first offset after the control registers (R36). -/
def registersEnd : Nat := 0x18

/-- What a host access reaches (R36 to R38). -/
inductive Target where
  /-- Control register `n`. -/
  | control (n : Nat)
  /-- The bytes of `BUF` from `addr` on. -/
  | buffer (addr : Nat)
  /-- A reserved offset (R38). -/
  | reserved
  /-- The control registers, but not as an aligned 32-bit word (R36). -/
  | badShape
  /-- Not wholly inside the block's window. -/
  | outside
  deriving DecidableEq, Repr

/-- The target of an access of `size` bytes at `offset` (R36 to R38). -/
def target (offset size : Nat) : Target :=
  if windowBase + Config.bufBytes < offset + size then .outside
  else if windowBase ≤ offset then .buffer (offset - windowBase)
  else if registersEnd ≤ offset then .reserved
  else if size = 4 ∧ offset % 4 = 0 then .control (offset / 4)
  else .badShape

/-- A host write. Control registers but `CMD` are read only: a write to one has no effect (10_state.md section 3). -/
def hostWrite (offset size value : Nat) (s : State) : Outcome :=
  match target offset size with
  | .control 0 => accept (BitVec.ofNat 32 value) s
  | .control _ => .next s
  | .buffer addr => .next (s.storeBytes addr (bytesOf size value))
  | .reserved => .refused .reservedOffset
  | .badShape => .refused .registerAccessShape
  | .outside => .fault .outsideBlock

/-- A host read: it changes nothing but what the host has been told (R35). -/
def hostRead (offset size : Nat) (s : State) : Outcome :=
  match target offset size with
  | .control n => .next (s.setReply (s.controlWord n).toNat)
  | .buffer addr => .next (s.setReply (littleEndian (s.buf.readBytes addr size)))
  | .reserved => .refused .reservedOffset
  | .badShape => .refused .registerAccessShape
  | .outside => .fault .outsideBlock

/-- The effect of a host move. -/
def perform (m : HostMove) (s : State) : Outcome :=
  match m with
  | .write offset size value => hostWrite offset size value s
  | .read offset size => hostRead offset size s
  | .reset => .next s.resetBlock
  | .reseed xs => .next (s.setXs xs)

/-- The moves that do not wait for a running command: reset (R183) and a `STATUS` read (R40 (d)). That a replacement of the
XOF stream waits is the model's reading (log entry 6). -/
def HostMove.neverWaits : HostMove → Bool
  | .reset => true
  | .read offset size => offset == 4 && size == 4
  | _ => false

/-- One step: the host's next move if it can take effect now, else the running sampler goes on; with neither, the idle
engine keeps all its state (R40, R116, R173, R180). DESIGN CHOICE (log entry 20): the spec has no time (U11, U13) and leaves
open how many stream bytes a running sampler has taken when a reset or a `STATUS` read takes effect (R168, R183); here such a
move at the head of the list comes before all further draws. -/
def advance (s : State) : Outcome :=
  match s.running, s.host with
  | none, [] => .next s
  | none, m :: ms => perform m (s.setHost ms)
  | some r, [] => .next (runSampler r s)
  | some r, m :: ms => if m.neverWaits then perform m (s.setHost ms) else .next (runSampler r s)

/-- The host's next move is to write the word to `CMD`, and no earlier command is in progress. -/
def offerWord (w : Nat) (s : State) : State := (s.setRunning none).setHost (.write 0 4 w :: s.host)

end Sys2Proof.Machine
end

