-- ==== Sys2Proof/Machine/Step.lean ====
section
/-! DEFINITION. One step of the machine, and where it takes its next command from: the head of the host's moves
(R13, R20, log entry 3). -/

namespace Sys2Proof.Machine

/-- One step. -/
def step (s : State) : Host.Outcome State Fault Refusal := advance s

/-- The state in which the next step executes the command word `w`: the host's next move writes it to `CMD`. The bits
above `nbits` are 0. -/
def State.withFetchWord (s : State) (nbits w : Nat) : State := offerWord (w % 2 ^ nbits) s

end Sys2Proof.Machine
end

