-- ==== Sys2Proof/Safety.lean ====
section
/-! DEFINITION. The terms in which statements about the machine are made: the invariant of every step, the XOF stream
as a sequence, which command may write what, and the spec's loops written out one assignment at a time. -/

namespace Sys2Proof.Machine

/-! ### The XOF stream as a sequence -/

/-- `XS[k]`, counted from the byte that comes next (R18). -/
def Xof.byteAt (x : Xof) (k : Nat) : Byte :=
  if h : k < x.ahead.length then x.ahead[k] else Config.xofByte x.stream (x.pos + (k - x.ahead.length))

/-- The stream after `n` bytes have been taken (R18). -/
def Xof.after (x : Xof) (n : Nat) : Xof :=
  { x with ahead := x.ahead.drop n, pos := x.pos + (n - x.ahead.length) }

/-! ### The invariant -/

/-- The fault registers agree: with `ERR = 0` nothing is recorded, with `ERR = 1` a cause is, and only `RANGE` has an
`INFO`, the place of a coefficient among eight rows (R15, R16, R160, R163). -/
structure State.FaultRecordOk (s : State) : Prop where
  clear : s.err = false → s.fault = ⟨.none, 0⟩ ∧ s.faultcmd = 0
  recorded : s.err = true → s.fault.cause ≠ .none
  info_range : s.fault.cause ≠ .range → s.fault.info = 0
  info_bound : s.fault.info.toNat < 2048

/-- The progress of a sampler that has not ended: fewer than 256 accepted coefficients, each in its range (R111, R112),
or a partial challenge with one more `±1` for each index done and zeros from the index on (R114). -/
def Sampling.Ok : Sampling → Prop
  | .uniform n a => n = a.length ∧ n < 256 ∧ ∀ c ∈ a, 0 ≤ c.toInt ∧ c.toInt < 8380417
  | .eta n a => n = a.length ∧ n < 256 ∧ ∀ c ∈ a, -2 ≤ c.toInt ∧ c.toInt ≤ 2
  | .challenge _ i v => 196 ≤ i ∧ i < 256 ∧ (ints v).countP (· ≠ 0) = i - 196 ∧
      (∀ j : Fin 256, v[j].toInt = 0 ∨ v[j].toInt = 1 ∨ v[j].toInt = -1) ∧ ∀ j : Fin 256, i ≤ j.val → v[j].toInt = 0

/-- What every step keeps: `BUF` in its canonical form and within its 8192 bytes (R19), the fault registers agreeing,
and a command in progress only with `ERR = 0` (R164) and with sound progress. -/
structure State.Inv (s : State) : Prop where
  buf_wf : s.buf.wf
  buf_range : s.buf.inRange
  fault_ok : s.FaultRecordOk
  running_ok : ∀ r, s.running = some r → s.err = false ∧ r.task.Ok

/-! ### Which command may write what -/

/-- The commands that write `BUF` (R31, R72). -/
def writesBuf : Instr → Bool
  | .zeroize | .straw _ _ | .pkt1 _ _ | .pkt0 _ _ | .pketa _ _ | .pkz _ _ | .pkw1 _ _ | .hintenc _ _ => true
  | _ => false

/-- The sampler commands, the only ones that call `XofNext()` (R18, R110). -/
def isSampler : Instr → Bool
  | .sampu _ | .sampe _ | .sampg _ | .sampc _ => true
  | _ => false

/-- The commands that write `HREJ` (R14). -/
def writesHrej : Instr → Bool
  | .zeroize | .hintdec _ _ => true
  | _ => false

/-- May the command write polynomial register `r` (R11, R52 to R55, R72)? -/
def mayWritePoly (r : PReg) : Instr → Bool
  | .nop | .clrerr => false
  | .zeroize => true
  | .ldraw pd _ | .upt1 pd _ | .upt0 pd _ | .upeta pd _ | .upz pd _ | .upw1 pd _ => r == pd
  | .straw _ _ | .pkt1 _ _ | .pkt0 _ _ | .pketa _ _ | .pkz _ _ | .pkw1 _ _ | .hintenc _ _ => false
  | .pmov pd _ | .pred pd _ | .pcaddq pd _ | .ntt pd _ | .intt pd _ => r == pd
  | .p2rhi pd _ | .p2rlo pd _ | .dechi pd _ | .declo pd _ => r == pd
  | .mkhint pd _ _ | .usehint pd _ _ | .padd pd _ _ | .psub pd _ _ | .pwmul pd _ _ | .pwmac pd _ _ => r == pd
  | .sampu pd | .sampe pd | .sampg pd | .sampc pd => r == pd
  | .hintdec pd _ => pd.val ≤ r.val && r.val < pd.val + 8

/-- The address and the number of bytes of a command that accesses `BUF` (R31). -/
def bufferSpan : Instr → Option (Nat × Nat)
  | .ldraw _ addr | .straw _ addr => some (addr, 1024)
  | .pkt1 _ addr | .upt1 _ addr => some (addr, 320)
  | .pkt0 _ addr | .upt0 _ addr => some (addr, 416)
  | .pketa _ addr | .upeta _ addr => some (addr, 96)
  | .pkz _ addr | .upz _ addr => some (addr, 640)
  | .pkw1 _ addr | .upw1 _ addr => some (addr, 128)
  | .hintenc _ addr | .hintdec _ addr => some (addr, 83)
  | _ => none

/-- The base register of a hint command (R11). -/
def groupBase : Instr → Option PReg
  | .hintenc pa _ => some pa
  | .hintdec pd _ => some pd
  | _ => none

/-! ### Results of lane-wise commands -/

/-- Lane `j` of register `r` as an integer. -/
def State.lane (s : State) (r : PReg) (j : Fin 256) : Int := (s.p[r])[j].toInt

/-- From `s`, command `i` completes in `t`: it may have written register `pd`, it counts itself, and it changes nothing
else: no other register, no byte of `BUF`, no flag, no fault register, no counter but `CMDCNT`, nothing of the stream. -/
def completesInto (s : State) (i : Instr) (pd : PReg) (t : State) : Prop :=
  exec i s = .next t ∧ t = { s with p := t.p, cmdcnt := s.cmdcnt + 1 } ∧ ∀ r, r ≠ pd → t.p[r] = s.p[r]

/-- From `s`, command `i` completes, writes `f j` to lane `j` of `pd` for every `j`, and changes nothing else. -/
def lanesBecome (s : State) (i : Instr) (pd : PReg) (f : Fin 256 → Int) : Prop :=
  ∃ t, completesInto s i pd t ∧ ∀ j, t.lane pd j = f j

/-- From `s`, command `i` completes in `t`: it may have written the `n` bytes of `BUF` at `addr`, it counts itself, and
it changes nothing else: no register, no other byte of `BUF`, no flag, no fault register, nothing of the stream. -/
def storesInto (s : State) (i : Instr) (addr n : Nat) (t : State) : Prop :=
  exec i s = .next t ∧ t = { s with buf := t.buf, cmdcnt := s.cmdcnt + 1 } ∧
    ∀ a, a < addr ∨ addr + n ≤ a → t.buf.read a = s.buf.read a

/-- From `s`, command `i` takes the fault: the three fault registers record it and nothing else changes (R161). -/
def faultsWith (s : State) (i : Instr) (c : Cause) (info : Nat) : Prop :=
  exec i s = .next { s with err := true, fault := ⟨c, BitVec.ofNat 12 info⟩, faultcmd := encode i }

/-- Bit `k` of the bytes of `BUF` from `addr` on, counted from bit 0 of the first byte (R33 (a)). -/
def State.bufBit (s : State) (addr k : Nat) : Bool := (s.buf.read (addr + k / 8)).getLsbD (k % 8)

/-- `m = MontMul(x, y)` without `QINV`: the one integer with `m * 2^32 = x * y - t * q` for a 32-bit `t` (R80, R86). -/
def IsMontMul (x y m : Int) : Prop :=
  ∃ t : Int, -2147483648 ≤ t ∧ t < 2147483648 ∧ m * 4294967296 = x * y - t * 8380417

/-! ### The transforms' loops, one assignment at a time (R92, R93) -/

/-- An array of integers. -/
abbrev Ints := Nat → Int

/-- `a[i] <- v`. -/
def Ints.put (a : Ints) (i : Nat) (v : Int) : Ints := fun j => if j = i then v else a j

/-- The body of the forward loops (R92). -/
def forwardBody (z : Int) (len j : Nat) (a : Ints) : Ints :=
  let t := montMul z (a (j + len))
  let a' := a.put (j + len) (wrap32 (a j - t))
  a'.put j (wrap32 (a' j + t))

/-- The two inner forward loops; the running index `k` goes with the array (R92). -/
def forwardStarts (len : Nat) (ka : Nat × Ints) : Nat × Ints :=
  (List.range (128 / len)).foldl (fun ka g =>
    (ka.1 + 1, (List.range len).foldl (fun a o => forwardBody (zeta (ka.1 + 1)) len (g * (2 * len) + o) a) ka.2)) ka

/-- The forward transform as R92 writes it. -/
def forwardLoops (a : Ints) : Ints :=
  ([128, 64, 32, 16, 8, 4, 2, 1].foldl (fun ka len => forwardStarts len ka) (0, a)).2

/-- The body of the inverse loops (R93). -/
def inverseBody (z : Int) (len j : Nat) (a : Ints) : Ints :=
  let t := a j
  let a' := a.put j (wrap32 (t + a (j + len)))
  a'.put (j + len) (montMul z (wrap32 (t - a' (j + len))))

/-- The two inner inverse loops; `k` falls (R93). -/
def inverseStarts (len : Nat) (ka : Nat × Ints) : Nat × Ints :=
  (List.range (128 / len)).foldl (fun ka g =>
    (ka.1 - 1, (List.range len).foldl (fun a o => inverseBody (-zeta (ka.1 - 1)) len (g * (2 * len) + o) a) ka.2)) ka

/-- The inverse transform as R93 writes it. -/
def inverseLoops (a : Ints) : Ints := fun j =>
  montMul 41978 (([1, 2, 4, 8, 16, 32, 64, 128].foldl (fun ka len => inverseStarts len ka) (256, a)).2 j)

/-- `brv8`: the 8-bit reversal (R90). -/
def brv8 (i : Nat) : Nat := (List.range 8).foldl (fun acc b => 2 * acc + i / 2 ^ b % 2) 0

/-- Coefficient `k` of the product in `Z[X]/(X^256 + 1)` (R95). -/
def ringProduct (a b : Fin 256 → Int) (k : Fin 256) : Int :=
  ∑ i : Fin 256, if i.val ≤ k.val then a i * b (k - i) else -(a i * b (k - i))

/-! ### What the samplers read -/

/-- Chunk `j` of the stream: three bytes, least significant first, masked to 23 bits (R111). -/
def uniformChunk (x : Xof) (j : Nat) : Nat :=
  ((x.byteAt (3 * j)).toNat + 256 * (x.byteAt (3 * j + 1)).toNat + 65536 * (x.byteAt (3 * j + 2)).toNat) % 8388608

/-- The accepted values among the first `n` chunks, in order (R111). -/
def uniformAccepted (x : Xof) (n : Nat) : List Nat :=
  ((List.range n).map (uniformChunk x)).filter (· < 8380417)

/-- Nibble `j` of the stream, the low one of each byte first (R112). -/
def nibble (x : Xof) (j : Nat) : Nat :=
  if j % 2 = 0 then (x.byteAt (j / 2)).toNat % 16 else (x.byteAt (j / 2)).toNat / 16

/-- The coefficients of the accepted nibbles among the first `n` bytes, in order (R112). -/
def etaAccepted (x : Xof) (n : Nat) : List Int :=
  (((List.range (2 * n)).map (nibble x)).filter (· < 15)).map fun t => 2 - ((t % 5 : Nat) : Int)

/-- The bytes SAMPC accepts out of a list of draws, the loop standing at index `i` (R114). -/
def challengePicks : Nat → List Nat → List Nat
  | _, [] => []
  | i, b :: bs =>
    if i < 256 then (if b ≤ i then b :: challengePicks (i + 1) bs else challengePicks i bs) else []

/-- SAMPC's assignments for the accepted bytes, sign bit `i - 196` going with index `i` (R114). -/
def challengeShuffle (sign : Nat → Bool) : Nat → List Nat → Ints → Ints
  | _, [], c => c
  | i, b :: bs, c =>
    challengeShuffle sign (i + 1) bs ((c.put i (c b)).put b (if sign (i - 196) then -1 else 1))

/-- The draws after the sign bytes (R114). -/
def challengeDraws (x : Xof) (n : Nat) : List Nat := (List.range n).map fun j => (x.byteAt (8 + j)).toNat

/-- Register `pd` holds a challenge: 60 coefficients `±1` and 196 zeros (R114, corner case i). -/
def State.weightSixty (s : State) (pd : PReg) : Prop :=
  (∀ j, s.lane pd j = 0 ∨ s.lane pd j = 1 ∨ s.lane pd j = -1) ∧
  (ints s.p[pd]).countP (· ≠ 0) = 60 ∧ (ints s.p[pd]).countP (· = 0) = 196

/-- Two samplers that stand alike: the same stream left, the same progress and byte count while running, and once ended
the same polynomial in their destinations and the same `XOFCNT` (R115). -/
def sameSampling (s s' : State) (pd pd' : PReg) : Prop :=
  s.xs = s'.xs ∧ (s.running.map fun r => (r.task, r.taken)) = (s'.running.map fun r => (r.task, r.taken)) ∧
  (s.busy = false → s.p[pd] = s'.p[pd'] ∧ s.xofcnt = s'.xofcnt)

/-! ### The hint encoding (R150, R152) -/

/-- Row `i` of the group with base `r`. -/
def State.row (s : State) (r : PReg) (i : Nat) : RingElement := (s.p[r.val + i]?).getD zeroRing

/-- The ones in rows `0 .. i - 1`: `cnt(i - 1)` (R150). -/
def State.onesBefore (s : State) (r : PReg) (i : Nat) : Nat :=
  ((List.range i).map fun k => (ints (s.row r k)).countP (· = 1)).sum

/-- Every coefficient of the eight rows is 0 or 1. -/
def State.rowsAreBits (s : State) (r : PReg) : Prop :=
  ∀ i < 8, ∀ j : Fin 256, ((s.row r i)[j]).toInt = 0 ∨ ((s.row r i)[j]).toInt = 1

/-- Byte `m` of the encoding at `addr`. -/
def State.hintByte (s : State) (addr m : Nat) : Nat := (s.buf.read (addr + m)).toNat

/-- The indices used up before row `i`, as the count bytes say (R150). -/
def State.hintCount (s : State) (addr i : Nat) : Nat := if i = 0 then 0 else s.hintByte addr (74 + i)

/-- The 83 bytes at `addr` pass the four checks of R152. -/
structure State.CanonicalHint (s : State) (addr : Nat) : Prop where
  counts_rise : ∀ i < 8, s.hintCount addr i ≤ s.hintCount addr (i + 1)
  counts_bound : ∀ i < 8, s.hintCount addr (i + 1) ≤ 75
  indices_rise : ∀ i < 8, ∀ m, s.hintCount addr i ≤ m → m + 1 < s.hintCount addr (i + 1) →
    s.hintByte addr m < s.hintByte addr (m + 1)
  tail_zero : ∀ m, s.hintCount addr 8 ≤ m → m < 75 → s.hintByte addr m = 0

/-! ### Packing -/

/-- A pack command of width `w` and map `T`: when all stored values fit, it completes, and bit `k` of the `32w` bytes is
bit `k mod w` of stored value `k div w` (R131, R132). -/
def packsBits (mk : PReg → Nat → Instr) (w : Nat) (T : Int → Int) : Prop :=
  ∀ (s : State) (pa : PReg) (addr : Nat), addr + 32 * w ≤ 8192 →
    (∀ j, 0 ≤ T (s.lane pa j) ∧ T (s.lane pa j) < 2 ^ w) →
    ∃ t, storesInto s (mk pa addr) addr (32 * w) t ∧
      ∀ (j : Fin 256) (b : Nat), b < w → t.bufBit addr (w * j + b) = (T (s.lane pa j)).toNat.testBit b

/-- A pack command raises RANGE with the lowest index whose stored value does not fit, and writes nothing. -/
def packsOrRange (mk : PReg → Nat → Instr) (w : Nat) (T : Int → Int) : Prop :=
  ∀ (s : State) (pa : PReg) (addr : Nat) (j : Fin 256), addr + 32 * w ≤ 8192 →
    ¬ (0 ≤ T (s.lane pa j) ∧ T (s.lane pa j) < 2 ^ w) →
    (∀ i < j, 0 ≤ T (s.lane pa i) ∧ T (s.lane pa i) < 2 ^ w) → faultsWith s (mk pa addr) .range j.val

/-- An unpack command of width `w` and inverse map `T'`: it completes for every byte string, and lane `j` is `T'` of the
field whose bit `b` is bit `w j + b` of the bytes (R131, R133). -/
def unpacksBits (mk : PReg → Nat → Instr) (w : Nat) (T' : Int → Int) : Prop :=
  ∀ (s : State) (pd : PReg) (addr : Nat), addr + 32 * w ≤ 8192 →
    ∃ t, completesInto s (mk pd addr) pd t ∧
      ∀ j : Fin 256, ∃ v : Nat, v < 2 ^ w ∧ t.lane pd j = T' v ∧ ∀ b < w, v.testBit b = s.bufBit addr (w * j + b)

/-- Pack then unpack restores the register; unpack then pack raises no fault and restores the bytes (R144). -/
def exactInverses (pk up : PReg → Nat → Instr) (n : Nat) : Prop :=
  (∀ (s t : State) (pa pd : PReg) (addr : Nat), s.err = false → exec (pk pa addr) s = .next t → t.err = false →
    ∃ u, exec (up pd addr) t = .next u ∧ u.err = false ∧ u.p[pd] = s.p[pa]) ∧
  ∀ (s t : State) (pd : PReg) (addr addr2 : Nat), s.err = false → addr + n ≤ 8192 → addr2 + n ≤ 8192 →
    exec (up pd addr) s = .next t →
    ∃ u, exec (pk pd addr2) t = .next u ∧ u.err = false ∧ ∀ m < n, u.buf.read (addr2 + m) = s.buf.read (addr + m)

/-! ### The host's view of the control registers -/

/-- The value of control register `k` from its fields (R14 to R17, R20, R160). -/
def State.controlValue (s : State) : Nat → Nat
  | 1 => s.running.isSome.toNat + 2 * s.err.toNat + 4 * s.hrej.toNat
  | 2 => 256 * s.fault.info.toNat + match s.fault.cause with
      | .none => 0
      | .illegal => 1
      | .addr => 2
      | .range => 3
      | .hintcnt => 4
      | .regspan => 5
  | 3 => s.faultcmd.toNat
  | 4 => s.cmdcnt.toNat
  | 5 => s.xofcnt.toNat
  | _ => 0

end Sys2Proof.Machine
end

