-- ==== Sys2Proof/Certificates/Slice0/Obligations.lean ====
section
/-! DEFINITION. Statements about the NTT256 engine, for the provers. -/

open Sys2Proof Sys2Proof.Machine

/-! ### Encoding -/

/-- A few words of 95_test_vectors.md section 2.1 decode to their commands, and three illegal ones are rejected. -/
def Obligations.WordsDecodeToTheirCommands : Prop :=
  decode 0x00000000 = .instr .nop ∧ decode 0x09F01C00 = .instr (.straw 15 0x1C00) ∧
  decode 0x10500000 = .instr (.pmov 5 0) ∧ decode 0x19220000 = .instr (.intt 2 2) ∧
  decode 0x24201000 = .instr (.mkhint 2 0 1) ∧ decode 0x33300000 = .instr (.sampc 3) ∧
  decode 0x43413000 = .instr (.pwmac 4 1 3) ∧ decode 0x53300400 = .instr (.pkz 3 0x400) ∧
  decode 0x61800100 = .instr (.hintdec 8 0x100) ∧ decode 0x00000001 = .reject .reservedBit ∧
  decode 0x60080053 = .reject .reservedBit ∧ decode 0x5D000000 = .reject .unusedOpcode

/-- Encoding drops no bit: every well-formed command is what its word decodes to (R50 to R57). -/
def Obligations.DecodeOfEncodeIsTheCommand : Prop :=
  ∀ i : Instr, i.wellFormed = true → decode (encode i) = .instr i

/-- A word that decodes to a command is that command's one word, reserved bits 0 (R59). -/
def Obligations.EncodeOfDecodeIsTheWord : Prop :=
  ∀ (w : Word) (i : Instr), decode w = .instr i → encode i = w ∧ i.wellFormed = true

/-- A word is the command of a row of the opcode map exactly when `w & mask = match` for that row (R57). -/
def Obligations.CommandIffItsTableRowMatches : Prop :=
  ∀ w : Word,
    (∀ i, decode w = .instr i → ∃ r ∈ opcodeRows, r.mnemonic = i.mnemonic ∧ r.accepts w) ∧
    (∀ r ∈ opcodeRows, r.accepts w → ∃ i, decode w = .instr i ∧ i.mnemonic = r.mnemonic)

/-! ### The command envelope, faults and reset -/

/-- A step in which the host writes a command word runs the decoded command, the host's move being used up (R75, R20).
While `ERR = 1` this is so for CLRERR alone. -/
def Obligations.StepRunsTheWrittenCommand : Prop :=
  ∀ (s : State) (w : Word) (i : Instr) (rest : List HostMove), s.running = none →
    s.host = .write 0 4 w.toNat :: rest → decode w = .instr i → (s.err = false ∨ w = 0x01000000) →
    step s = exec i { s with host := rest }

/-- A word that satisfies no row of the opcode map raises ILLEGAL and has no other effect (R59, R161). -/
def Obligations.IllegalWordRaisesIllegal : Prop :=
  ∀ (s : State) (w : Word) (rest : List HostMove), s.err = false → s.running = none →
    s.host = .write 0 4 w.toNat :: rest → (∀ r ∈ opcodeRows, ¬ r.accepts w) →
    step s = .next { s with host := rest, err := true, fault := ⟨.illegal, 0⟩, faultcmd := w }

/-- While `ERR = 1` every word but CLRERR's is dropped without any effect (R164). -/
def Obligations.CommandsAreDroppedWhileErrIsSet : Prop :=
  ∀ (s : State) (w : Word) (rest : List HostMove), s.err = true → s.running = none →
    s.host = .write 0 4 w.toNat :: rest → w ≠ 0x01000000 → step s = .next { s with host := rest }

/-- NOP only counts; CLRERR clears `ERR`, `FAULT` and `FAULTCMD` and counts, `HREJ` unchanged; ZEROIZE clears all
registers, all of `BUF`, `HREJ` and `XOFCNT` and counts. Nothing else changes (R70, R71, R72). -/
def Obligations.ControlCommandEffects : Prop :=
  ∀ s : State,
    exec .nop s = .next { s with cmdcnt := s.cmdcnt + 1 } ∧
    exec .clrerr s = .next { s with err := false, fault := ⟨.none, 0⟩, faultcmd := 0, cmdcnt := s.cmdcnt + 1 } ∧
    ∃ t, exec .zeroize s = .next t ∧
      t = { s with p := t.p, buf := t.buf, hrej := false, xofcnt := 0, cmdcnt := s.cmdcnt + 1 } ∧
      (∀ r j, t.lane r j = 0) ∧ ∀ a, t.buf.read a = 0

/-- After reset every coefficient, every byte, every flag and every control register is 0 and no command is running;
and a reset leaves the XOF stream where it is (R23). -/
def Obligations.ResetLeavesEverythingZero : Prop :=
  (∀ r j, State.reset.lane r j = 0) ∧ (∀ a, State.reset.buf.read a = 0) ∧
  (∀ k < 6, State.reset.controlWord k = 0) ∧ State.reset.busy = false ∧ State.reset.err = false ∧
  State.reset.hrej = false ∧ State.reset.fault = ⟨.none, 0⟩ ∧ ∀ s : State, s.resetBlock.xs = s.xs

/-- Reset takes effect in every state, also while a command runs: the command is abandoned with nothing committed, the
block is as after reset, and the XOF stream stays where it is (R180, R183). -/
def Obligations.ResetAbandonsTheRunningCommand : Prop :=
  ∀ (s : State) (rest : List HostMove), s.host = .reset :: rest →
    step s = .next { State.reset with xs := s.xs, host := rest, reply := s.reply }

/-- Faults are precise: a command that ends with `ERR` set has recorded a cause and its own word, and has changed
nothing else: no register, no byte of `BUF`, no other flag, no counter, nothing of the stream (R161). -/
def Obligations.FaultsArePrecise : Prop :=
  ∀ (i : Instr) (s t : State), s.err = false → exec i s = .next t → t.err = true →
    t = { s with err := true, fault := t.fault, faultcmd := encode i } ∧
    (t.fault.cause = .addr ∨ t.fault.cause = .range ∨ t.fault.cause = .hintcnt ∨ t.fault.cause = .regspan)

/-- Only the commands that access `BUF` can fault once decoded; the others complete or, being samplers, run on (R160). -/
def Obligations.OnlyBufferCommandsFault : Prop :=
  ∀ (i : Instr) (s t : State), s.err = false → bufferSpan i = none → exec i s = .next t →
    t.err = false ∧ (i ≠ .clrerr → t.fault = s.fault ∧ t.faultcmd = s.faultcmd)

/-- A command that completes adds 1 to `CMDCNT` modulo `2^32`; one that faults, or a sampler that has not ended, does
not change it (R17, R116). -/
def Obligations.CompletedCommandsAreCounted : Prop :=
  ∀ (i : Instr) (s t : State), s.err = false → s.running = none → exec i s = .next t →
    t.cmdcnt = if t.err = true ∨ t.busy = true then s.cmdcnt else s.cmdcnt + 1

/-- The frame of every command: what it may write and nothing else. A byte of `BUF` outside its span, a register that is
no destination, `HREJ`, `XOFCNT`, the stream, and the host's side stay as they are (R14, R17, R18, R31). -/
def Obligations.CommandsWriteOnlyTheirOwnState : Prop :=
  ∀ (i : Instr) (s t : State), exec i s = .next t →
    (∀ r, mayWritePoly r i = false → t.p[r] = s.p[r]) ∧
    (writesBuf i = false → ∀ a, t.buf.read a = s.buf.read a) ∧
    (∀ addr n, bufferSpan i = some (addr, n) → ∀ a, a < addr ∨ addr + n ≤ a → t.buf.read a = s.buf.read a) ∧
    (writesHrej i = false → t.hrej = s.hrej) ∧
    (isSampler i = false → t.xs = s.xs ∧ t.running = s.running ∧ (i ≠ .zeroize → t.xofcnt = s.xofcnt)) ∧
    t.host = s.host ∧ t.reply = s.reply

/-- Every step keeps the invariant, from every state that has it: `BUF` canonical and within its bounds, the fault
registers agreeing, and a running sampler's progress sound (R15, R16, R19, R111, R112, R114, R164). -/
def Obligations.StepKeepsTheInvariant : Prop :=
  ∀ s t : State, s.Inv → step s = .next t → t.Inv

/-- The state after reset has the invariant. -/
def Obligations.ResetHasTheInvariant : Prop := State.reset.Inv

/-! ### Raw transfer and the bounds check -/

/-- LDRAW: coefficient `i` is the little-endian two's-complement word at `addr + 4i` (R73). -/
def Obligations.LdrawLoadsTheRawImage : Prop :=
  ∀ (s : State) (pd : PReg) (addr : Nat), addr + 1024 ≤ 8192 →
    ∃ t, completesInto s (.ldraw pd addr) pd t ∧ ∀ j : Fin 256,
      ((t.p[pd])[j]).toNat = (s.buf.read (addr + 4 * j)).toNat + 2 ^ 8 * (s.buf.read (addr + 4 * j + 1)).toNat +
        2 ^ 16 * (s.buf.read (addr + 4 * j + 2)).toNat + 2 ^ 24 * (s.buf.read (addr + 4 * j + 3)).toNat

/-- STRAW: byte `k` of coefficient `i` modulo `2^32` goes to `addr + 4i + k` (R74). -/
def Obligations.StrawStoresTheRawImage : Prop :=
  ∀ (s : State) (pa : PReg) (addr : Nat), addr + 1024 ≤ 8192 →
    ∃ t, storesInto s (.straw pa addr) addr 1024 t ∧ ∀ (j : Fin 256) (k : Fin 4),
      ((t.buf.read (addr + 4 * j + k)).toNat : Int) = s.lane pa j % 2 ^ 32 / 2 ^ (8 * k.val) % 256

/-- STRAW then LDRAW restores the register, LDRAW then STRAW restores the bytes (R74, corner cases). -/
def Obligations.RawTransfersAreInverse : Prop :=
  ∀ (s t u : State) (r q : PReg) (addr : Nat), addr + 1024 ≤ 8192 →
    (exec (.straw r addr) s = .next t → exec (.ldraw q addr) t = .next u → u.p[q] = s.p[r]) ∧
    (exec (.ldraw r addr) s = .next t → exec (.straw r addr) t = .next u → ∀ a, u.buf.read a = s.buf.read a)

/-- A command whose bytes do not all lie in `BUF` raises ADDR and neither reads nor writes anything (R32); the hint
commands check their registers first (R166). -/
def Obligations.OutOfRangeAddressRaisesAddr : Prop :=
  ∀ (s : State) (i : Instr) (addr n : Nat), bufferSpan i = some (addr, n) → 8192 < addr + n →
    (∀ r, groupBase i = some r → r.val ≤ 8) → faultsWith s i .addr 0

/-! ### Montgomery multiplier and modular reducer -/

/-- PMOV copies all 256 coefficients (R83). -/
def Obligations.PmovCopiesThePolynomial : Prop :=
  ∀ (s : State) (pd pa : PReg), lanesBecome s (.pmov pd pa) pd fun j => s.lane pa j

/-- PRED: every coefficient becomes `a - t * q` with `t = floor((a + 2^22) / 2^23)`, and lies in
`-6283009 .. 6283008` (R84, R81). -/
def Obligations.PredReducesEveryLane : Prop :=
  ∀ (s : State) (pd pa : PReg),
    (lanesBecome s (.pred pd pa) pd fun j => s.lane pa j - (s.lane pa j + 4194304) / 8388608 * 8380417) ∧
    ∀ j, -6283009 ≤ s.lane pa j - (s.lane pa j + 4194304) / 8388608 * 8380417 ∧
      s.lane pa j - (s.lane pa j + 4194304) / 8388608 * 8380417 ≤ 6283008

/-- PCADDQ adds `q` to every negative coefficient (R85, R82). -/
def Obligations.PcaddqAddsToNegativeLanes : Prop :=
  ∀ (s : State) (pd pa : PReg),
    lanesBecome s (.pcaddq pd pa) pd fun j => if s.lane pa j < 0 then s.lane pa j + 8380417 else s.lane pa j

/-- PRED then PCADDQ is the full reduction to `[0, q)` for every input (R82). -/
def Obligations.PredThenPcaddqIsStandard : Prop :=
  ∀ (s : State) (pd pa : PReg), ∃ t u, exec (.pred pd pa) s = .next t ∧ exec (.pcaddq pd pd) t = .next u ∧
    ∀ j, u.lane pd j = s.lane pa j % 8380417

/-- MontRed's contract: the result times `2^32` is congruent to the argument modulo `q`, it fits a coefficient on the
whole domain, and it lies in `(-q, q)` on `-2^31 q ≤ a < 2^31 q` (R80, properties ii to iv). -/
def Obligations.MontRedContract : Prop :=
  ∀ a : Int, -(2 ^ 62) ≤ a → a ≤ 2 ^ 62 →
    (montRed a * 2 ^ 32 - a) % 8380417 = 0 ∧ -(2 ^ 31) ≤ montRed a ∧ montRed a < 2 ^ 31 ∧
    (-(2 ^ 31) * 8380417 ≤ a → a < 2 ^ 31 * 8380417 → -8380417 < montRed a ∧ montRed a < 8380417)

/-! ### Transforms -/

/-- NTT leaves in `pd` what the three forward loops of R92 compute, one assignment at a time. -/
def Obligations.NttRunsTheForwardLoops : Prop :=
  ∀ (s : State) (pd pa : PReg), lanesBecome s (.ntt pd pa) pd fun j =>
    forwardLoops (fun k => if h : k < 256 then s.lane pa ⟨k, h⟩ else 0) j

/-- INTT leaves in `pd` what the inverse loops and the final scaling of R93 compute, one assignment at a time. -/
def Obligations.InttRunsTheInverseLoops : Prop :=
  ∀ (s : State) (pd pa : PReg), lanesBecome s (.intt pd pa) pd fun j =>
    inverseLoops (fun k => if h : k < 256 then s.lane pa ⟨k, h⟩ else 0) j

/-- NTT grows no coefficient by more than `8 (q - 1)` (R92, corner case ii). -/
def Obligations.NttGrowthBound : Prop :=
  ∀ (s : State) (pd pa : PReg) (b : Int), 0 ≤ b → b ≤ 2080440319 → (∀ j, |s.lane pa j| ≤ b) →
    ∃ t, completesInto s (.ntt pd pa) pd t ∧ ∀ j, |t.lane pd j| ≤ b + 8 * 8380416

/-- Output `i` of NTT is congruent modulo `q` to the input polynomial at `1753^(2 brv8(i) + 1)`, for inputs on which no
addition wraps (R90, R92 corner case ii). -/
def Obligations.NttEvaluatesAtTheOddPowers : Prop :=
  ∀ (s : State) (pd pa : PReg), (∀ j, |s.lane pa j| ≤ 2080440319) →
    ∃ t, completesInto s (.ntt pd pa) pd t ∧ ∀ i : Fin 256,
      (t.lane pd i - ∑ j : Fin 256, s.lane pa j * 1753 ^ ((2 * brv8 i + 1) * j.val)) % 8380417 = 0

/-- INTT's outputs lie in `(-q, q)`, and on inputs of magnitude below `q` output `j` times 256 is congruent modulo `q` to
`2^32` times the sum of the inputs `i` times `1753^(-(2 brv8(i) + 1) j)`: the inverse of NTT's evaluations, scaled by the
Montgomery factor (R90, R93; 1753 has order 512). -/
def Obligations.InttInterpolatesFromTheOddPowers : Prop :=
  ∀ (s : State) (pd pa : PReg), ∃ t, completesInto s (.intt pd pa) pd t ∧ (∀ j, |t.lane pd j| < 8380417) ∧
    ((∀ j, |s.lane pa j| < 8380417) → ∀ j : Fin 256, (256 * t.lane pd j -
      2 ^ 32 * ∑ i : Fin 256, s.lane pa i * 1753 ^ ((511 - 2 * brv8 i) * j.val)) % 8380417 = 0)

/-- NTT, PRED and INTT in a row multiply every coefficient by `2^32` modulo `q` (R94, first line; the PRED keeps INTT's
sums from wrapping, R191). -/
def Obligations.InttUndoesNttUpToTheMontgomeryFactor : Prop :=
  ∀ (s : State) (r : PReg), (∀ j, |s.lane r j| ≤ 2080440319) →
    ∃ t u v, exec (.ntt r r) s = .next t ∧ exec (.pred r r) t = .next u ∧ exec (.intt r r) u = .next v ∧
      ∀ j, (v.lane r j - 2 ^ 32 * s.lane r j) % 8380417 = 0

/-- INTT of the point-wise product of two NTTs is the product in `Z_q[X]/(X^256 + 1)`, for operands of magnitude below
`q` in different registers (R94, second line; R95). -/
def Obligations.TransformsMultiplyInTheRing : Prop :=
  ∀ (s : State) (a b c : PReg), a ≠ b → (∀ j, |s.lane a j| < 8380417) → (∀ j, |s.lane b j| < 8380417) →
    ∃ t u v w, exec (.ntt a a) s = .next t ∧ exec (.ntt b b) t = .next u ∧ exec (.pwmul c a b) u = .next v ∧
      exec (.intt c c) v = .next w ∧
      ∀ k, (w.lane c k - ringProduct (s.lane a) (s.lane b) k) % 8380417 = 0

/-! ### Rounding unit -/

/-- P2RHI and P2RLO give the two parts of the one decomposition `a = 8192 a1 + a0` with `-4096 < a0 ≤ 4096` (R100,
R102, R103). -/
def Obligations.Power2RoundLanes : Prop :=
  ∀ (s : State) (pd pe pa : PReg), ∃ t u,
    completesInto s (.p2rhi pd pa) pd t ∧ completesInto s (.p2rlo pe pa) pe u ∧
    ∀ j, s.lane pa j = 8192 * t.lane pd j + u.lane pe j ∧ -4096 < u.lane pe j ∧ u.lane pe j ≤ 4096

/-- DECHI and DECLO give the decomposition of `r = a mod q`: `r = 523776 a1 + a0` with `-261888 < a0 ≤ 261888` and
`0 ≤ a1 ≤ 15`, and in the top bucket `r > 8118528` the pair `(0, r - q)` (R101, R104, R105). -/
def Obligations.DecomposeLanes : Prop :=
  ∀ (s : State) (pd pe pa : PReg), ∃ t u,
    completesInto s (.dechi pd pa) pd t ∧ completesInto s (.declo pe pa) pe u ∧
    ∀ j, let r := s.lane pa j % 8380417
      (r ≤ 8118528 → r = 523776 * t.lane pd j + u.lane pe j ∧ -261888 < u.lane pe j ∧ u.lane pe j ≤ 261888 ∧
        0 ≤ t.lane pd j ∧ t.lane pd j ≤ 15) ∧
      (8118528 < r → t.lane pd j = 0 ∧ u.lane pe j = r - 8380417)

/-- MKHINT: 1 iff `a0 > GAMMA2` or `a0 < -GAMMA2` or `a0 = -GAMMA2` and `a1` is not 0 (R106, R108). -/
def Obligations.MkhintLanes : Prop :=
  ∀ (s : State) (pd pa pb : PReg), lanesBecome s (.mkhint pd pa pb) pd fun j =>
    if s.lane pa j > 261888 ∨ s.lane pa j < -261888 ∨ (s.lane pa j = -261888 ∧ s.lane pb j ≠ 0) then 1 else 0

/-- USEHINT: DECHI's high part without a hint; with one, one more modulo 16 if DECLO's low part is positive, else one
less (R107, R109). -/
def Obligations.UsehintLanes : Prop :=
  ∀ (s : State) (pd pa pb : PReg), ∃ t u v,
    completesInto s (.usehint pd pa pb) pd t ∧ exec (.dechi pa pa) s = .next u ∧ exec (.declo pa pa) s = .next v ∧
    ∀ j, t.lane pd j = if s.lane pb j = 0 then u.lane pa j
      else if v.lane pa j > 0 then (u.lane pa j + 1) % 16 else (u.lane pa j - 1) % 16

/-! ### Samplers -/

/-- SAMPU completes in one step when chunk number `n` (at most 4096) is the 256th one accepted: the coefficients are the
accepted values in order, and `3n` bytes are taken (R111). The 4096 is the model's own burst (log entry 2). -/
def Obligations.SampuTakesTheAcceptedChunks : Prop :=
  ∀ (s : State) (pd : PReg) (n : Nat), n ≤ 4096 → (uniformAccepted s.xs n).length = 256 →
    (uniformAccepted s.xs (n - 1)).length = 255 →
    ∃ t, exec (.sampu pd) s = .next t ∧
      t = { s with p := t.p, xofcnt := BitVec.ofNat 32 (3 * n), xs := s.xs.after (3 * n), running := none,
                   cmdcnt := s.cmdcnt + 1 } ∧
      (∀ j : Fin 256, t.lane pd j = (((uniformAccepted s.xs n)[j.val]?).getD 0 : Nat)) ∧
      ∀ r, r ≠ pd → t.p[r] = s.p[r]

/-- SAMPU completes however many chunks it takes: after enough further steps with no host move the accepted values are
in the register and `3n` bytes are counted (R110, R111, R116). -/
def Obligations.SampuCompletesWheneverTheStreamAllows : Prop :=
  ∀ (s : State) (pd : PReg) (n : Nat), s.host = [] → (uniformAccepted s.xs n).length = 256 →
    (uniformAccepted s.xs (n - 1)).length = 255 →
    ∃ t0 k t, exec (.sampu pd) s = .next t0 ∧ Sys2Proof.core.run k t0 = .next t ∧
      t = { s with p := t.p, xofcnt := BitVec.ofNat 32 (3 * n), xs := s.xs.after (3 * n), running := none,
                   cmdcnt := s.cmdcnt + 1 } ∧
      (∀ j : Fin 256, t.lane pd j = (((uniformAccepted s.xs n)[j.val]?).getD 0 : Nat)) ∧
      ∀ r, r ≠ pd → t.p[r] = s.p[r]

/-- SAMPE completes in one step when byte number `n` (at most 4096) brings the 256th accepted nibble: the coefficients
are `2 - (t mod 5)` of the accepted nibbles in order, and `n` bytes are taken (R112). The 4096 is the model's own burst
(log entry 2). -/
def Obligations.SampeTakesTheAcceptedNibbles : Prop :=
  ∀ (s : State) (pd : PReg) (n : Nat), n ≤ 4096 → 256 ≤ (etaAccepted s.xs n).length →
    (etaAccepted s.xs (n - 1)).length < 256 →
    ∃ t, exec (.sampe pd) s = .next t ∧
      t = { s with p := t.p, xofcnt := BitVec.ofNat 32 n, xs := s.xs.after n, running := none,
                   cmdcnt := s.cmdcnt + 1 } ∧
      (∀ j : Fin 256, t.lane pd j = ((etaAccepted s.xs n)[j.val]?).getD 0) ∧ ∀ r, r ≠ pd → t.p[r] = s.p[r]

/-- SAMPG always completes: coefficient `i` is `2^19 - v` for the 20-bit field `v` number `i` of the next 640 bytes, and
640 bytes are taken (R113). -/
def Obligations.SampgUnpacksTheStream : Prop :=
  ∀ (s : State) (pd : PReg), ∃ t, exec (.sampg pd) s = .next t ∧
    t = { s with p := t.p, xofcnt := 640, xs := s.xs.after 640, cmdcnt := s.cmdcnt + 1 } ∧
    (∀ j : Fin 256, ∃ v : Nat, v < 2 ^ 20 ∧ t.lane pd j = 524288 - v ∧ ∀ b < 20,
      v.testBit b = (s.xs.byteAt ((20 * j + b) / 8)).getLsbD ((20 * j + b) % 8)) ∧
    ∀ r, r ≠ pd → t.p[r] = s.p[r]

/-- SAMPC completes in one step when draw number `n` (at most 4096) after the 8 sign bytes is the 60th one accepted: the
polynomial is what the shuffle makes of the accepted bytes and the sign bits, and `8 + n` bytes are taken (R114). The
4096 is the model's own burst (log entry 2). -/
def Obligations.SampcShufflesTheAcceptedBytes : Prop :=
  ∀ (s : State) (pd : PReg) (n : Nat), n ≤ 4096 → (challengePicks 196 (challengeDraws s.xs n)).length = 60 →
    (challengePicks 196 (challengeDraws s.xs (n - 1))).length = 59 →
    ∃ t, exec (.sampc pd) s = .next t ∧
      t = { s with p := t.p, xofcnt := BitVec.ofNat 32 (8 + n), xs := s.xs.after (8 + n), running := none,
                   cmdcnt := s.cmdcnt + 1 } ∧
      (∀ j : Fin 256, t.lane pd j = challengeShuffle (fun k => (s.xs.byteAt (k / 8)).getLsbD (k % 8)) 196
        (challengePicks 196 (challengeDraws s.xs n)) (fun _ => 0) j) ∧
      ∀ r, r ≠ pd → t.p[r] = s.p[r]

/-- SAMPE and SAMPC complete however many draws they take: after enough further steps with no host move SAMPE has the
accepted nibbles' coefficients and counts `n` bytes, and SAMPC has the shuffle of the accepted bytes and counts `8 + n`
(R110, R112, R114, R116). That it may take several steps is the model's choice (log entry 2). -/
def Obligations.SampeAndSampcCompleteWheneverTheStreamAllows : Prop :=
  ∀ (s : State) (pd : PReg) (n : Nat), s.host = [] →
    (256 ≤ (etaAccepted s.xs n).length → (etaAccepted s.xs (n - 1)).length < 256 →
      ∃ t0 k t, exec (.sampe pd) s = .next t0 ∧ Sys2Proof.core.run k t0 = .next t ∧
        t = { s with p := t.p, xofcnt := BitVec.ofNat 32 n, xs := s.xs.after n, running := none,
                     cmdcnt := s.cmdcnt + 1 } ∧
        (∀ j : Fin 256, t.lane pd j = ((etaAccepted s.xs n)[j.val]?).getD 0) ∧ ∀ r, r ≠ pd → t.p[r] = s.p[r]) ∧
    ((challengePicks 196 (challengeDraws s.xs n)).length = 60 →
      (challengePicks 196 (challengeDraws s.xs (n - 1))).length = 59 →
      ∃ t0 k t, exec (.sampc pd) s = .next t0 ∧ Sys2Proof.core.run k t0 = .next t ∧
        t = { s with p := t.p, xofcnt := BitVec.ofNat 32 (8 + n), xs := s.xs.after (8 + n), running := none,
                     cmdcnt := s.cmdcnt + 1 } ∧
        (∀ j : Fin 256, t.lane pd j = challengeShuffle (fun k => (s.xs.byteAt (k / 8)).getLsbD (k % 8)) 196
          (challengePicks 196 (challengeDraws s.xs n)) (fun _ => 0) j) ∧ ∀ r, r ≠ pd → t.p[r] = s.p[r])

/-- A completed SAMPC leaves exactly 60 coefficients `±1` and 196 zeros, on every stream (R114, corner case i): whether it
ends in the step that begins it, or in a later one from a state with the invariant. That it may take several steps is the
model's choice (log entry 2). -/
def Obligations.SampcHasWeightSixty : Prop :=
  (∀ (s t : State) (pd : PReg), s.running = none → exec (.sampc pd) s = .next t → t.busy = false → t.weightSixty pd) ∧
  ∀ (s t : State) (r : Running) (signs : BitVec 64) (i : Nat) (v : RingElement), s.Inv → s.running = some r →
    r.task = .challenge signs i v → (∀ rest, s.host ≠ .reset :: rest) → step s = .next t → t.busy = false →
    t.weightSixty r.pd

/-- A sampler that has not ended has changed nothing but the stream and `BUSY`; and on a stream that goes on with `0xFF`
the three rejection samplers are still running after any number of further steps, nothing written (R116). -/
def Obligations.RejectedStreamLeavesTheSamplerBusy : Prop :=
  ∀ (s : State) (pd : PReg), s.running = none → ∀ i, (i = .sampu pd ∨ i = .sampe pd ∨ i = .sampc pd) →
    (∀ t, exec i s = .next t → t.busy = true → t = { s with xs := t.xs, running := t.running }) ∧
    ∀ n, s.host = [] → (∀ k < 12288 * (n + 1), s.xs.byteAt k = 0xFF) →
      ∃ t0 t, exec i s = .next t0 ∧ Sys2Proof.core.run n t0 = .next t ∧ t.busy = true ∧
        t = { s with xs := t.xs, running := t.running }

/-- A sampler's polynomial, its byte count and the stream it leaves depend on the stream alone: not on the registers,
`BUF`, the destination or anything else of the state (R115). While it runs the same holds of its progress, and of every
further step with no host move. That a sampler may take several steps is the model's choice (log entry 2). -/
def Obligations.SamplersDependOnTheStreamAlone : Prop :=
  ∀ mk : PReg → Instr, (mk = .sampu ∨ mk = .sampe ∨ mk = .sampg ∨ mk = .sampc) →
    ∀ (s s' : State) (pd pd' : PReg), s.running = none → s'.running = none → s.xs = s'.xs →
      ∃ t t', exec (mk pd) s = .next t ∧ exec (mk pd') s' = .next t' ∧ sameSampling t t' pd pd' ∧
        ∀ n, s.host = [] → s'.host = [] →
          ∃ u u', Sys2Proof.core.run n t = .next u ∧ Sys2Proof.core.run n t' = .next u' ∧ sameSampling u u' pd pd'

/-! ### Point-wise commands -/

/-- PADD and PSUB: lane by lane, the sum and the difference modulo `2^32`, no reduction, no flag, no fault (R120, R121,
R125). -/
def Obligations.PaddAndPsubWrap : Prop :=
  ∀ (s : State) (pd pa pb : PReg),
    (lanesBecome s (.padd pd pa pb) pd fun j => (s.lane pa j + s.lane pb j).bmod (2 ^ 32)) ∧
    lanesBecome s (.psub pd pa pb) pd fun j => (s.lane pa j - s.lane pb j).bmod (2 ^ 32)

/-- PWMUL: every lane becomes the Montgomery product of the operands' lanes (R122, R86). -/
def Obligations.PwmulMultipliesEveryLane : Prop :=
  ∀ (s : State) (pd pa pb : PReg), ∃ t, completesInto s (.pwmul pd pa pb) pd t ∧
    ∀ j, IsMontMul (s.lane pa j) (s.lane pb j) (t.lane pd j)

/-- PWMAC: every lane of `pd` has the Montgomery product of the operands' lanes added to it, wrapping; all three old
values are read first (R123, R58). -/
def Obligations.PwmacAccumulatesEveryLane : Prop :=
  ∀ (s : State) (pd pa pb : PReg), ∃ t, completesInto s (.pwmac pd pa pb) pd t ∧
    ∀ j, ∃ m, IsMontMul (s.lane pa j) (s.lane pb j) m ∧ t.lane pd j = (s.lane pd j + m).bmod (2 ^ 32)

/-! ### Packing -/

/-- The five pack commands, each with its width and stored value (R130 to R132, R134 to R138). -/
def Obligations.PackCommandsWriteTheFields : Prop :=
  packsBits .pkt1 10 (fun c => c) ∧ packsBits .pkt0 13 (fun c => 4096 - c) ∧ packsBits .pketa 3 (fun c => 2 - c) ∧
  packsBits .pkz 20 (fun c => 524288 - c) ∧ packsBits .pkw1 4 (fun c => c)

/-- The five pack commands refuse a coefficient that does not fit its field (R132, R163). -/
def Obligations.PackCommandsRaiseRange : Prop :=
  packsOrRange .pkt1 10 (fun c => c) ∧ packsOrRange .pkt0 13 (fun c => 4096 - c) ∧
  packsOrRange .pketa 3 (fun c => 2 - c) ∧ packsOrRange .pkz 20 (fun c => 524288 - c) ∧
  packsOrRange .pkw1 4 (fun c => c)

/-- The five unpack commands, each with its width and inverse map (R130, R131, R133, R139 to R143). -/
def Obligations.UnpackCommandsReadTheFields : Prop :=
  unpacksBits .upt1 10 (fun v => v) ∧ unpacksBits .upt0 13 (fun v => 4096 - v) ∧
  unpacksBits .upeta 3 (fun v => 2 - v) ∧ unpacksBits .upz 20 (fun v => 524288 - v) ∧
  unpacksBits .upw1 4 (fun v => v)

/-- Packing and unpacking are exact inverses in all five formats (R144). -/
def Obligations.PackingAndUnpackingAreInverse : Prop :=
  exactInverses .pkt1 .upt1 320 ∧ exactInverses .pkt0 .upt0 416 ∧ exactInverses .pketa .upeta 96 ∧
  exactInverses .pkz .upz 640 ∧ exactInverses .pkw1 .upw1 128

/-! ### Hint vectors -/

/-- HINTENC of eight rows of bits with at most 75 ones writes the encoding of R150: the counts, each row's indices in
increasing order, and zeros in the unused tail (R150, R151). -/
def Obligations.HintencWritesTheEncoding : Prop :=
  ∀ (s : State) (pa : PReg) (addr : Nat), pa.val ≤ 8 → addr + 83 ≤ 8192 → s.rowsAreBits pa →
    s.onesBefore pa 8 ≤ 75 →
    ∃ t, storesInto s (.hintenc pa addr) addr 83 t ∧
      (∀ i < 8, t.hintByte addr (75 + i) = s.onesBefore pa (i + 1)) ∧
      (∀ i < 8, ∀ m, s.onesBefore pa i ≤ m → m < s.onesBefore pa (i + 1) →
        ∀ j : Fin 256, t.hintByte addr m = j.val → ((s.row pa i)[j]).toInt = 1) ∧
      (∀ i < 8, ∀ m, s.onesBefore pa i ≤ m → m + 1 < s.onesBefore pa (i + 1) →
        t.hintByte addr m < t.hintByte addr (m + 1)) ∧
      ∀ m, s.onesBefore pa 8 ≤ m → m < 75 → t.hintByte addr m = 0

/-- The hint commands' faults in their order: a base above 8 raises REGSPAN whatever the address; then ADDR (stated with
the bounds check); then HINTENC raises RANGE with the place of the first coefficient that is no bit; then HINTCNT for
more than 75 ones (R151, R152, R160, R163, R166). -/
def Obligations.HintCommandsFaultInOrder : Prop :=
  ∀ (s : State) (r : PReg) (addr : Nat),
    (8 < r.val → faultsWith s (.hintenc r addr) .regspan 0 ∧ faultsWith s (.hintdec r addr) .regspan 0) ∧
    (r.val ≤ 8 → addr + 83 ≤ 8192 →
      (∀ i < 8, ∀ j : Fin 256, ¬ (((s.row r i)[j]).toInt = 0 ∨ ((s.row r i)[j]).toInt = 1) →
        (∀ i' < 8, ∀ j' : Fin 256, 256 * i' + j'.val < 256 * i + j.val →
          ((s.row r i')[j']).toInt = 0 ∨ ((s.row r i')[j']).toInt = 1) →
        faultsWith s (.hintenc r addr) .range (256 * i + j.val)) ∧
      (s.rowsAreBits r → 75 < s.onesBefore r 8 → faultsWith s (.hintenc r addr) .hintcnt 0))

/-- HINTDEC accepts exactly the encodings that pass the four checks: then row `i` has ones at the indices of row `i` and
`HREJ = 0`; else the eight registers are zero and `HREJ = 1`. Neither is a fault (R152, R153). -/
def Obligations.HintdecAcceptsCanonicalEncodings : Prop :=
  ∀ (s : State) (pd : PReg) (addr : Nat), pd.val ≤ 8 → addr + 83 ≤ 8192 →
    ∃ t, exec (.hintdec pd addr) s = .next t ∧
      t = { s with p := t.p, hrej := t.hrej, cmdcnt := s.cmdcnt + 1 } ∧
      (∀ r : PReg, r.val < pd.val ∨ pd.val + 8 ≤ r.val → t.p[r] = s.p[r]) ∧
      (s.CanonicalHint addr → t.hrej = false ∧ ∀ i < 8, ∀ j : Fin 256,
        ((∃ m, s.hintCount addr i ≤ m ∧ m < s.hintCount addr (i + 1) ∧ s.hintByte addr m = j.val) →
          ((t.row pd i)[j]).toInt = 1) ∧
        ((¬ ∃ m, s.hintCount addr i ≤ m ∧ m < s.hintCount addr (i + 1) ∧ s.hintByte addr m = j.val) →
          ((t.row pd i)[j]).toInt = 0)) ∧
      (¬ s.CanonicalHint addr → t.hrej = true ∧ ∀ i < 8, ∀ j : Fin 256, ((t.row pd i)[j]).toInt = 0)

/-- The encoding is canonical: what HINTENC wrote HINTDEC accepts and restores, and what HINTDEC accepted HINTENC writes
again byte for byte (R154). -/
def Obligations.HintEncodingIsCanonical : Prop :=
  (∀ (s t : State) (pa pd : PReg) (addr : Nat), s.err = false → exec (.hintenc pa addr) s = .next t →
    t.err = false → pd.val ≤ 8 →
    ∃ u, exec (.hintdec pd addr) t = .next u ∧ u.err = false ∧ u.hrej = false ∧ ∀ i < 8, u.row pd i = s.row pa i) ∧
  ∀ (s t : State) (pd : PReg) (addr addr2 : Nat), s.err = false → exec (.hintdec pd addr) s = .next t →
    t.err = false → t.hrej = false → addr2 + 83 ≤ 8192 →
    ∃ u, exec (.hintenc pd addr2) t = .next u ∧ u.err = false ∧
      ∀ m < 83, u.buf.read (addr2 + m) = s.buf.read (addr + m)

/-! ### The host's side -/

/-- The buffer window: a host write sets the bytes, lowest address least significant, and a host read returns them and
changes nothing of the block (R35, R37). That every width inside the window is admitted, none included, is the model's
reading of R37 (log entry 11). -/
def Obligations.HostAccessesTheBufferWindow : Prop :=
  ∀ (s : State) (a n v : Nat) (rest : List HostMove), s.running = none → a + n ≤ 8192 →
    (s.host = .write (0x2000 + a) n v :: rest → ∃ t, step s = .next t ∧
      t = { s with buf := t.buf, host := rest } ∧
      (∀ k < n, (t.buf.read (a + k)).toNat = v / 256 ^ k % 256) ∧
      ∀ b, b < a ∨ a + n ≤ b → t.buf.read b = s.buf.read b) ∧
    (s.host = .read (0x2000 + a) n :: rest → step s =
      .next { s with host := rest, reply := some (∑ k ∈ Finset.range n, 256 ^ k * (s.buf.read (a + k)).toNat) })

/-- The control registers: a read returns the register's fields and changes nothing of the block; a write to one of the
read-only registers has no effect (R14 to R17, R20, R35). -/
def Obligations.HostReadsTheControlRegisters : Prop :=
  ∀ (s : State) (k v : Nat) (rest : List HostMove), s.running = none → k < 6 →
    (s.host = .read (4 * k) 4 :: rest →
      step s = .next { s with host := rest, reply := some (s.controlValue k) }) ∧
    (1 ≤ k → s.host = .write (4 * k) 4 v :: rest → step s = .next { s with host := rest })

/-- While a command runs every host move but reset and a `STATUS` read waits: the step is the running sampler's own, which
writes nothing but the stream and its progress until it ends, and then its register, `XOFCNT` and `CMDCNT`; a `STATUS` read
returns `BUSY = 1` with `ERR` and `HREJ` as they are (R40 (c), (d)). That a replacement of the XOF stream waits too is the
model's choice (log entry 6), and so is that a step makes a burst of draws (log entries 2 and 20). -/
def Obligations.HostWaitsWhileACommandRuns : Prop :=
  ∀ (s : State) (r : Running) (m : HostMove) (rest : List HostMove), s.running = some r → s.host = m :: rest →
    (m ≠ .reset → m ≠ .read 4 4 → ∃ t, step s = .next t ∧ t = runSampler r s ∧
      t = { s with p := t.p, xofcnt := t.xofcnt, cmdcnt := t.cmdcnt, running := t.running, xs := t.xs } ∧
      (t.busy = true → t.p = s.p ∧ t.xofcnt = s.xofcnt ∧ t.cmdcnt = s.cmdcnt) ∧
      (t.busy = false → t.cmdcnt = s.cmdcnt + 1 ∧ ∀ q, q ≠ r.pd → t.p[q] = s.p[q])) ∧
    (m = .read 4 4 → step s =
      .next { s with host := rest, reply := some (1 + 2 * s.err.toNat + 4 * s.hrej.toNat) })

/-- The host accesses to which the spec gives no meaning stop the model by name: a reserved offset, a control register
not accessed as an aligned word, and an access that leaves the block's window (R36, R38). That they stop, and under which
name, is the model's choice (log entry 9). -/
def Obligations.MeaninglessHostAccessesStop : Prop :=
  ∀ (s : State) (off n v : Nat) (rest : List HostMove), s.running = none →
    (s.host = .write off n v :: rest ∨ s.host = .read off n :: rest) →
    (0x18 ≤ off → off < 0x2000 → off + n ≤ 0x4000 → step s = .refused .reservedOffset) ∧
    (off < 0x18 → off + n ≤ 0x4000 → (n ≠ 4 ∨ off % 4 ≠ 0) → step s = .refused .registerAccessShape) ∧
    (0x4000 < off + n → step s = .fault .outsideBlock)
end

