-- ==== Sys2Proof/Laws/Arith.lean ====
section
/-! SUPPORT. Laws of the notation and of the lane-wise operations. -/

namespace Sys2Proof.Machine

/-- A wrapped integer is in the range of a coefficient. -/
theorem wrap32_range (x : Int) : -2147483648 ≤ wrap32 x ∧ wrap32 x < 2147483648 := by
  unfold wrap32; omega

/-- An integer in the range of a coefficient is its own wrap. -/
theorem wrap32_of_range {x : Int} (h : -2147483648 ≤ x ∧ x < 2147483648) : wrap32 x = x := by
  unfold wrap32; omega

/-- A wrap is congruent modulo `2^32` to what it wraps. -/
theorem wrap32_emod (x : Int) : wrap32 x % 4294967296 = x % 4294967296 := by
  unfold wrap32; omega

/-- The value of a coefficient is in its range. -/
theorem coeff_toInt_range (c : Coeff) : -2147483648 ≤ c.toInt ∧ c.toInt < 2147483648 := by
  have h1 := BitVec.le_toInt c
  have h2 := BitVec.toInt_lt (x := c)
  simp at h1 h2
  omega

/-- The value a coefficient holds is the wrap of the integer put into it. -/
theorem coeff_toInt (x : Int) : (coeff x).toInt = wrap32 x := by
  unfold coeff wrap32
  rw [BitVec.toInt_ofInt, Int.bmod_def]
  norm_num
  split <;> omega

/-- Putting a coefficient's own value into a coefficient gives it back. -/
@[simp] theorem coeff_of_toInt (c : Coeff) : coeff c.toInt = c := by
  simp [coeff]

/-- A wrapped integer makes the same coefficient. -/
@[simp] theorem coeff_wrap32 (x : Int) : coeff (wrap32 x) = coeff x := by
  rw [← coeff_toInt, coeff_of_toInt]

/-- Lane `j` of a lane-wise function. -/
theorem lanes1_getElem (f : Int → Int) (u : RingElement) (j : Nat) (h : j < 256) :
    (lanes1 f u)[j] = coeff (f u[j].toInt) := by
  simp [lanes1, Vector.getElem_mk]

/-- Lane `j` of a lane-wise function of two ring elements. -/
theorem lanes2_getElem (f : Int → Int → Int) (u v : RingElement) (j : Nat) (h : j < 256) :
    (lanes2 f u v)[j] = coeff (f u[j].toInt v[j].toInt) := by
  simp [lanes2, Vector.getElem_mk]

/-- A list of 256 coefficients is the ring element made of it. -/
theorem ringElement_toList {l : List Coeff} (h : l.length = 256) : (ringElement l).toList = l := by
  simp only [ringElement, Vector.toList]
  rw [List.take_append_of_le_length (by omega), List.take_of_length_le (by omega)]

/-- Coefficient `j` of the ring element made of a list of 256. -/
theorem ringElement_getElem {l : List Coeff} (h : l.length = 256) (j : Nat) (hj : j < 256) :
    (ringElement l)[j] = l[j] := by
  have : (ringElement l)[j] = (ringElement l).toList[j]'(by simpa using hj) := by simp
  rw [this]
  simp only [ringElement_toList h]

/-- Coefficient `j` of the ring element made of 256 integers. -/
theorem ringOfInts_getElem {l : List Int} (h : l.length = 256) (j : Nat) (hj : j < 256) :
    (ringOfInts l)[j] = coeff l[j] := by
  unfold ringOfInts
  rw [ringElement_getElem (by simpa using h) j hj]
  simp

/-- There are 256 integers in a ring element. -/
@[simp] theorem ints_length (v : RingElement) : (ints v).length = 256 := by simp [ints]

/-- Integer `j` of a ring element. -/
theorem ints_getElem (v : RingElement) (j : Nat) (hj : j < 256) :
    (ints v)[j]'(by simpa using hj) = v[j].toInt := by
  simp [ints]

/-- `bytesOf n` gives `n` bytes. -/
@[simp] theorem bytesOf_length (n v : Nat) : (bytesOf n v).length = n := by simp [bytesOf]

/-- Byte `m` of a number. -/
theorem bytesOf_getElem (n v m : Nat) (h : m < n) :
    ((bytesOf n v)[m]'(by simpa using h)).toNat = v / 256 ^ m % 256 := by
  simp [bytesOf, Nat.shiftRight_eq_div_pow, Nat.pow_mul]

/-- The number a byte string stands for is below `256 ^ length`. -/
theorem littleEndian_lt (bs : List Byte) : littleEndian bs < 256 ^ bs.length := by
  induction bs with
  | nil => simp [littleEndian]
  | cons b bs ih =>
    have := b.isLt
    simp only [littleEndian, List.length_cons, Nat.pow_succ]
    omega

/-- Bit `k` of the number a byte string stands for is bit `k mod 8` of byte `k div 8` (R33 (a)). -/
theorem littleEndian_testBit (bs : List Byte) (k : Nat) :
    (littleEndian bs).testBit k = ((bs[k / 8]?).getD 0).getLsbD (k % 8) := by
  induction bs generalizing k with
  | nil => simp [littleEndian]
  | cons b bs ih =>
    have hb := b.isLt
    have e : littleEndian (b :: bs) = 2 ^ 8 * littleEndian bs + b.toNat := by
      simp only [littleEndian]; omega
    rw [e, Nat.testBit_two_pow_mul_add _ (by simpa using hb)]
    by_cases h : k < 8
    · simp [h, Nat.div_eq_of_lt h, Nat.mod_eq_of_lt h, BitVec.getLsbD]
    · have h1 : k / 8 = (k - 8) / 8 + 1 := by omega
      have h2 : (k - 8) % 8 = k % 8 := by omega
      simp [h, ih, h1, h2]

/-- Bit `i` of byte `m` of a number is its bit `8 * m + i`. -/
theorem bytesOf_getLsbD (n v m i : Nat) (h : m < n) (hi : i < 8) :
    ((bytesOf n v)[m]'(by simpa using h)).getLsbD i = v.testBit (8 * m + i) := by
  simp only [bytesOf, List.getElem_map, List.getElem_range, BitVec.getLsbD_ofNat, Nat.testBit_shiftRight]
  simp [hi]

/-- The bytes of the number that a byte string stands for are the string. -/
theorem bytesOf_littleEndian (bs : List Byte) : bytesOf bs.length (littleEndian bs) = bs := by
  apply List.ext_getElem (by simp)
  intro m h1 h2
  apply BitVec.eq_of_getLsbD_eq
  intro i hi
  have hd : (8 * m + i) / 8 = m := by omega
  have hm : (8 * m + i) % 8 = i := by omega
  rw [bytesOf_getLsbD _ _ _ _ h2 hi, littleEndian_testBit, hd, hm, List.getElem?_eq_getElem h2]
  rfl

/-- The number that the lowest `n` bytes of a number stand for. -/
theorem littleEndian_bytesOf (n v : Nat) : littleEndian (bytesOf n v) = v % 256 ^ n := by
  apply Nat.eq_of_testBit_eq
  intro k
  rw [littleEndian_testBit, show (256 : Nat) ^ n = 2 ^ (8 * n) by rw [Nat.pow_mul], Nat.testBit_mod_two_pow]
  by_cases h : k / 8 < n
  · have hk : k < 8 * n := by omega
    have e : 8 * (k / 8) + k % 8 = k := by omega
    rw [List.getElem?_eq_getElem (by simpa using h), Option.getD_some,
      bytesOf_getLsbD _ _ _ _ h (by omega), e]
    simp [hk]
  · have hk : ¬ k < 8 * n := by omega
    rw [List.getElem?_eq_none (by simpa using h)]
    simp [hk]

end Sys2Proof.Machine
end

