-- ==== Sys2Proof/Laws/Memory.lean ====
section
/-! SUPPORT. Laws of the buffer memory: reading after writing, and that every operation keeps the canonical form. -/

namespace Sys2Proof.Machine

/-- An address no cell lists reads as unlisted. -/
theorem Memory.read_of_absent {m : Memory} {a : Nat} (h : ∀ c ∈ m, c.1 ≠ a) : m.read a = Memory.unlisted := by
  induction m with
  | nil => rfl
  | cons c m ih =>
    obtain ⟨k, b⟩ := c
    have hk : k ≠ a := h (k, b) (by simp)
    simp [Memory.read, hk, ih fun c hc => h c (by simp [hc])]

/-- Cells that do not list the address may stand in front. -/
theorem Memory.read_append_absent {m n : Memory} {a : Nat} (h : ∀ c ∈ m, c.1 ≠ a) :
    Memory.read (m ++ n) a = n.read a := by
  induction m with
  | nil => rfl
  | cons c m ih =>
    obtain ⟨k, b⟩ := c
    have hk : k ≠ a := h (k, b) (by simp)
    simpa [Memory.read, hk] using ih fun c hc => h c (by simp [hc])

/-- Cells that do not list the address may stand behind. -/
theorem Memory.read_append_absent_right {m n : Memory} {a : Nat} (h : ∀ c ∈ n, c.1 ≠ a) :
    Memory.read (m ++ n) a = m.read a := by
  induction m with
  | nil => exact Memory.read_of_absent h
  | cons c m ih =>
    obtain ⟨k, b⟩ := c
    by_cases hk : k = a <;> simp [Memory.read, hk, ih]

/-- Dropping cells of other addresses changes no read. -/
theorem Memory.read_filter {m : Memory} {a : Nat} {f : Host.Cell → Bool} (h : ∀ c : Host.Cell, c.1 = a → f c = true) :
    Memory.read (m.filter f) a = m.read a := by
  induction m with
  | nil => rfl
  | cons c m ih =>
    obtain ⟨k, b⟩ := c
    by_cases hk : k = a
    · subst hk
      have hf : f (k, b) = true := h (k, b) rfl
      simp [hf, Memory.read]
    · cases hf : f (k, b) <;> simp [hf, Memory.read, hk, ih]

/-- The cells of a byte string lie within it. -/
theorem Memory.cells_bounds {addr : Nat} {bs : List Byte} {c : Host.Cell} (h : c ∈ Memory.cells addr bs) :
    addr ≤ c.1 ∧ c.1 < addr + bs.length ∧ c.2 ≠ Memory.unlisted := by
  induction bs generalizing addr with
  | nil => simp [Memory.cells] at h
  | cons b bs ih =>
    simp only [Memory.cells] at h
    split at h
    · obtain ⟨h1, h2, h3⟩ := ih h
      exact ⟨by omega, by simp only [List.length_cons]; omega, h3⟩
    · rcases List.mem_cons.mp h with rfl | h
      · exact ⟨Nat.le_refl _, by simp, ‹_›⟩
      · obtain ⟨h1, h2, h3⟩ := ih h
        exact ⟨by omega, by simp only [List.length_cons]; omega, h3⟩

/-- The cells of a byte string have rising addresses. -/
theorem Memory.cells_rising (addr : Nat) (bs : List Byte) :
    (Memory.cells addr bs).Pairwise fun c d => c.1 < d.1 := by
  induction bs generalizing addr with
  | nil => simp [Memory.cells]
  | cons b bs ih =>
    simp only [Memory.cells]
    split
    · exact ih _
    · refine List.pairwise_cons.mpr ⟨fun d hd => ?_, ih _⟩
      have := (Memory.cells_bounds hd).1
      show addr < d.1
      omega

/-- Reading the cells of a byte string gives its bytes. -/
theorem Memory.read_cells (addr : Nat) (bs : List Byte) (i : Nat) (h : i < bs.length) :
    (Memory.cells addr bs).read (addr + i) = bs[i] := by
  induction bs generalizing addr i with
  | nil => simp at h
  | cons b bs ih =>
    simp only [Memory.cells]
    cases i with
    | zero =>
      split
      · rename_i hb
        rw [Memory.read_of_absent fun c hc => by have := (Memory.cells_bounds hc).1; omega]
        simp [hb]
      · simp [Memory.read]
    | succ i =>
      have hi : i < bs.length := by simpa using h
      have e : addr + (i + 1) = addr + 1 + i := by omega
      split
      · rw [e, ih _ _ hi]; simp
      · have : addr ≠ addr + (i + 1) := by omega
        simp only [Memory.read, this, if_false]
        rw [e, ih _ _ hi]; simp

/-- A written byte reads as written. -/
theorem Memory.read_writeBytes_inside (m : Memory) (addr : Nat) (bs : List Byte) (i : Nat) (h : i < bs.length) :
    (m.writeBytes addr bs).read (addr + i) = bs[i] := by
  unfold Memory.writeBytes
  rw [Memory.read_append_absent, Memory.read_append_absent_right, Memory.read_cells addr bs i h]
  · intro c hc
    have := (List.mem_filter.mp hc).2
    simp at this; omega
  · intro c hc
    have := (List.mem_filter.mp hc).2
    simp at this; omega

/-- Every other byte reads as before. -/
theorem Memory.read_writeBytes_outside (m : Memory) (addr : Nat) (bs : List Byte) (a : Nat)
    (h : a < addr ∨ addr + bs.length ≤ a) : (m.writeBytes addr bs).read a = m.read a := by
  unfold Memory.writeBytes
  rcases h with h | h
  · rw [Memory.read_append_absent_right, Memory.read_filter]
    · intro c hc; simp [hc, h]
    · intro c hc
      rcases List.mem_append.mp hc with hc | hc
      · have := (Memory.cells_bounds hc).1; omega
      · have := (List.mem_filter.mp hc).2
        simp at this; omega
  · rw [Memory.read_append_absent, Memory.read_append_absent, Memory.read_filter]
    · intro c hc; simp [hc, h]
    · intro c hc; have := (Memory.cells_bounds hc).2.1; omega
    · intro c hc
      have := (List.mem_filter.mp hc).2
      simp at this; omega

/-- Writing keeps the canonical form. -/
theorem Memory.writeBytes_wf {m : Memory} (h : m.wf) (addr : Nat) (bs : List Byte) : (m.writeBytes addr bs).wf := by
  obtain ⟨hp, hz⟩ := h
  constructor
  · refine List.pairwise_append.mpr ⟨hp.filter _, List.pairwise_append.mpr ⟨cells_rising addr bs, hp.filter _, ?_⟩, ?_⟩
    · intro c hc d hd
      have h1 := (Memory.cells_bounds hc).2.1
      have h2 := (List.mem_filter.mp hd).2
      simp at h2; omega
    · intro c hc d hd
      have h1 := (List.mem_filter.mp hc).2
      simp at h1
      rcases List.mem_append.mp hd with hd | hd
      · have := (Memory.cells_bounds hd).1; omega
      · have h2 := (List.mem_filter.mp hd).2
        simp at h2; omega
  · intro c hc
    rcases List.mem_append.mp hc with hc | hc
    · exact hz c (List.mem_filter.mp hc).1
    · rcases List.mem_append.mp hc with hc | hc
      · exact (Memory.cells_bounds hc).2.2
      · exact hz c (List.mem_filter.mp hc).1

/-- Writing within `BUF` lists only addresses that exist. -/
theorem Memory.writeBytes_inRange {m : Memory} (h : m.inRange) {addr : Nat} {bs : List Byte}
    (hb : addr + bs.length ≤ Config.bufBytes) : (m.writeBytes addr bs).inRange := by
  intro c hc
  rcases List.mem_append.mp hc with hc | hc
  · exact h c (List.mem_filter.mp hc).1
  · rcases List.mem_append.mp hc with hc | hc
    · have := (Memory.cells_bounds hc).2.1; omega
    · exact h c (List.mem_filter.mp hc).1

/-- The empty memory is canonical: it is `BUF` after reset. -/
theorem Memory.wf_nil : Memory.wf [] := ⟨List.Pairwise.nil, fun _ h => absurd h List.not_mem_nil⟩

/-- Two canonical memories that read alike are equal. -/
theorem Memory.eq_of_read_eq {m n : Memory} (hm : m.wf) (hn : n.wf) (h : ∀ a, m.read a = n.read a) : m = n := by
  induction m generalizing n with
  | nil =>
    cases n with
    | nil => rfl
    | cons d n =>
      obtain ⟨k, b⟩ := d
      have := h k
      simp only [Memory.read, if_true] at this
      exact absurd this.symm (hn.2 (k, b) (by simp))
  | cons c m ih =>
    obtain ⟨k, b⟩ := c
    obtain ⟨hp, hz⟩ := hm
    rw [List.pairwise_cons] at hp
    have hb : b ≠ Memory.unlisted := hz (k, b) (by simp)
    cases n with
    | nil =>
      have := h k
      simp only [Memory.read, if_true] at this
      exact absurd this hb
    | cons d n =>
      obtain ⟨l, e⟩ := d
      obtain ⟨hq, hy⟩ := hn
      rw [List.pairwise_cons] at hq
      have he : e ≠ Memory.unlisted := hy (l, e) (by simp)
      have hkl : k = l := by
        rcases Nat.lt_trichotomy k l with hlt | heq | hgt
        · have hk := h k
          have hne : l ≠ k := by omega
          simp only [Memory.read, if_true, hne, if_false] at hk
          rw [Memory.read_of_absent fun c hc => by have : l < c.1 := hq.1 c hc; omega] at hk
          exact absurd hk hb
        · exact heq
        · have hk := h l
          have hne : k ≠ l := by omega
          simp only [Memory.read, if_true, hne, if_false] at hk
          rw [Memory.read_of_absent fun c hc => by have : k < c.1 := hp.1 c hc; omega] at hk
          exact absurd hk.symm he
      subst hkl
      have hbe : b = e := by simpa [Memory.read] using h k
      subst hbe
      congr 1
      refine ih ⟨hp.2, fun c hc => hz c (by simp [hc])⟩ ⟨hq.2, fun c hc => hy c (by simp [hc])⟩ fun a => ?_
      by_cases ha : k = a
      · subst ha
        rw [Memory.read_of_absent fun c hc => by have : k < c.1 := hp.1 c hc; omega,
          Memory.read_of_absent fun c hc => by have : k < c.1 := hq.1 c hc; omega]
      · simpa [Memory.read, ha] using h a

/-- `MemRead` gives `n` bytes. -/
@[simp] theorem Memory.readBytes_length (m : Memory) (addr n : Nat) : (m.readBytes addr n).length = n := by
  simp [Memory.readBytes]

/-- Byte `i` of `MemRead`. -/
theorem Memory.readBytes_getElem (m : Memory) (addr n i : Nat) (h : i < n) :
    (m.readBytes addr n)[i]'(by simpa using h) = m.read (addr + i) := by
  simp [Memory.readBytes]

/-- Reading back what was written. -/
theorem Memory.readBytes_writeBytes (m : Memory) (addr : Nat) (bs : List Byte) :
    (m.writeBytes addr bs).readBytes addr bs.length = bs := by
  apply List.ext_getElem (by simp)
  intro i h1 h2
  rw [Memory.readBytes_getElem _ _ _ _ h2, Memory.read_writeBytes_inside _ _ _ _ h2]

end Sys2Proof.Machine
end

