-- ==== Sys2Proof/Laws/State.lean ====
section
/-! SUPPORT. One lemma per field per named update of the state, so that no later proof unfolds a record update. -/

namespace Sys2Proof.Machine

variable (s : State)

@[simp] theorem State.setPoly_p (r : PReg) (v : RingElement) : (s.setPoly r v).p = s.p.set r.val v := rfl
@[simp] theorem State.setPoly_buf (r : PReg) (v : RingElement) : (s.setPoly r v).buf = s.buf := rfl
@[simp] theorem State.setPoly_err (r : PReg) (v : RingElement) : (s.setPoly r v).err = s.err := rfl
@[simp] theorem State.setPoly_hrej (r : PReg) (v : RingElement) : (s.setPoly r v).hrej = s.hrej := rfl
@[simp] theorem State.setPoly_fault (r : PReg) (v : RingElement) : (s.setPoly r v).fault = s.fault := rfl
@[simp] theorem State.setPoly_faultcmd (r : PReg) (v : RingElement) : (s.setPoly r v).faultcmd = s.faultcmd := rfl
@[simp] theorem State.setPoly_cmdcnt (r : PReg) (v : RingElement) : (s.setPoly r v).cmdcnt = s.cmdcnt := rfl
@[simp] theorem State.setPoly_xofcnt (r : PReg) (v : RingElement) : (s.setPoly r v).xofcnt = s.xofcnt := rfl
@[simp] theorem State.setPoly_running (r : PReg) (v : RingElement) : (s.setPoly r v).running = s.running := rfl
@[simp] theorem State.setPoly_xs (r : PReg) (v : RingElement) : (s.setPoly r v).xs = s.xs := rfl
@[simp] theorem State.setPoly_host (r : PReg) (v : RingElement) : (s.setPoly r v).host = s.host := rfl
@[simp] theorem State.setPoly_reply (r : PReg) (v : RingElement) : (s.setPoly r v).reply = s.reply := rfl

@[simp] theorem State.storeBytes_p (a : Nat) (bs : List Byte) : (s.storeBytes a bs).p = s.p := rfl
@[simp] theorem State.storeBytes_buf (a : Nat) (bs : List Byte) : (s.storeBytes a bs).buf = s.buf.writeBytes a bs := rfl
@[simp] theorem State.storeBytes_err (a : Nat) (bs : List Byte) : (s.storeBytes a bs).err = s.err := rfl
@[simp] theorem State.storeBytes_hrej (a : Nat) (bs : List Byte) : (s.storeBytes a bs).hrej = s.hrej := rfl
@[simp] theorem State.storeBytes_fault (a : Nat) (bs : List Byte) : (s.storeBytes a bs).fault = s.fault := rfl
@[simp] theorem State.storeBytes_faultcmd (a : Nat) (bs : List Byte) : (s.storeBytes a bs).faultcmd = s.faultcmd := rfl
@[simp] theorem State.storeBytes_cmdcnt (a : Nat) (bs : List Byte) : (s.storeBytes a bs).cmdcnt = s.cmdcnt := rfl
@[simp] theorem State.storeBytes_xofcnt (a : Nat) (bs : List Byte) : (s.storeBytes a bs).xofcnt = s.xofcnt := rfl
@[simp] theorem State.storeBytes_running (a : Nat) (bs : List Byte) : (s.storeBytes a bs).running = s.running := rfl
@[simp] theorem State.storeBytes_xs (a : Nat) (bs : List Byte) : (s.storeBytes a bs).xs = s.xs := rfl
@[simp] theorem State.storeBytes_host (a : Nat) (bs : List Byte) : (s.storeBytes a bs).host = s.host := rfl
@[simp] theorem State.storeBytes_reply (a : Nat) (bs : List Byte) : (s.storeBytes a bs).reply = s.reply := rfl

@[simp] theorem State.setHrej_p (b : Bool) : (s.setHrej b).p = s.p := rfl
@[simp] theorem State.setHrej_buf (b : Bool) : (s.setHrej b).buf = s.buf := rfl
@[simp] theorem State.setHrej_err (b : Bool) : (s.setHrej b).err = s.err := rfl
@[simp] theorem State.setHrej_hrej (b : Bool) : (s.setHrej b).hrej = b := rfl
@[simp] theorem State.setHrej_fault (b : Bool) : (s.setHrej b).fault = s.fault := rfl
@[simp] theorem State.setHrej_faultcmd (b : Bool) : (s.setHrej b).faultcmd = s.faultcmd := rfl
@[simp] theorem State.setHrej_cmdcnt (b : Bool) : (s.setHrej b).cmdcnt = s.cmdcnt := rfl
@[simp] theorem State.setHrej_xofcnt (b : Bool) : (s.setHrej b).xofcnt = s.xofcnt := rfl
@[simp] theorem State.setHrej_running (b : Bool) : (s.setHrej b).running = s.running := rfl
@[simp] theorem State.setHrej_xs (b : Bool) : (s.setHrej b).xs = s.xs := rfl
@[simp] theorem State.setHrej_host (b : Bool) : (s.setHrej b).host = s.host := rfl
@[simp] theorem State.setHrej_reply (b : Bool) : (s.setHrej b).reply = s.reply := rfl

@[simp] theorem State.setXofcnt_p (n : Nat) : (s.setXofcnt n).p = s.p := rfl
@[simp] theorem State.setXofcnt_buf (n : Nat) : (s.setXofcnt n).buf = s.buf := rfl
@[simp] theorem State.setXofcnt_err (n : Nat) : (s.setXofcnt n).err = s.err := rfl
@[simp] theorem State.setXofcnt_hrej (n : Nat) : (s.setXofcnt n).hrej = s.hrej := rfl
@[simp] theorem State.setXofcnt_fault (n : Nat) : (s.setXofcnt n).fault = s.fault := rfl
@[simp] theorem State.setXofcnt_faultcmd (n : Nat) : (s.setXofcnt n).faultcmd = s.faultcmd := rfl
@[simp] theorem State.setXofcnt_cmdcnt (n : Nat) : (s.setXofcnt n).cmdcnt = s.cmdcnt := rfl
@[simp] theorem State.setXofcnt_xofcnt (n : Nat) : (s.setXofcnt n).xofcnt = BitVec.ofNat 32 n := rfl
@[simp] theorem State.setXofcnt_running (n : Nat) : (s.setXofcnt n).running = s.running := rfl
@[simp] theorem State.setXofcnt_xs (n : Nat) : (s.setXofcnt n).xs = s.xs := rfl
@[simp] theorem State.setXofcnt_host (n : Nat) : (s.setXofcnt n).host = s.host := rfl
@[simp] theorem State.setXofcnt_reply (n : Nat) : (s.setXofcnt n).reply = s.reply := rfl

@[simp] theorem State.setXs_p (x : Xof) : (s.setXs x).p = s.p := rfl
@[simp] theorem State.setXs_buf (x : Xof) : (s.setXs x).buf = s.buf := rfl
@[simp] theorem State.setXs_err (x : Xof) : (s.setXs x).err = s.err := rfl
@[simp] theorem State.setXs_hrej (x : Xof) : (s.setXs x).hrej = s.hrej := rfl
@[simp] theorem State.setXs_fault (x : Xof) : (s.setXs x).fault = s.fault := rfl
@[simp] theorem State.setXs_faultcmd (x : Xof) : (s.setXs x).faultcmd = s.faultcmd := rfl
@[simp] theorem State.setXs_cmdcnt (x : Xof) : (s.setXs x).cmdcnt = s.cmdcnt := rfl
@[simp] theorem State.setXs_xofcnt (x : Xof) : (s.setXs x).xofcnt = s.xofcnt := rfl
@[simp] theorem State.setXs_running (x : Xof) : (s.setXs x).running = s.running := rfl
@[simp] theorem State.setXs_xs (x : Xof) : (s.setXs x).xs = x := rfl
@[simp] theorem State.setXs_host (x : Xof) : (s.setXs x).host = s.host := rfl
@[simp] theorem State.setXs_reply (x : Xof) : (s.setXs x).reply = s.reply := rfl

@[simp] theorem State.setRunning_p (r : Option Running) : (s.setRunning r).p = s.p := rfl
@[simp] theorem State.setRunning_buf (r : Option Running) : (s.setRunning r).buf = s.buf := rfl
@[simp] theorem State.setRunning_err (r : Option Running) : (s.setRunning r).err = s.err := rfl
@[simp] theorem State.setRunning_hrej (r : Option Running) : (s.setRunning r).hrej = s.hrej := rfl
@[simp] theorem State.setRunning_fault (r : Option Running) : (s.setRunning r).fault = s.fault := rfl
@[simp] theorem State.setRunning_faultcmd (r : Option Running) : (s.setRunning r).faultcmd = s.faultcmd := rfl
@[simp] theorem State.setRunning_cmdcnt (r : Option Running) : (s.setRunning r).cmdcnt = s.cmdcnt := rfl
@[simp] theorem State.setRunning_xofcnt (r : Option Running) : (s.setRunning r).xofcnt = s.xofcnt := rfl
@[simp] theorem State.setRunning_running (r : Option Running) : (s.setRunning r).running = r := rfl
@[simp] theorem State.setRunning_xs (r : Option Running) : (s.setRunning r).xs = s.xs := rfl
@[simp] theorem State.setRunning_host (r : Option Running) : (s.setRunning r).host = s.host := rfl
@[simp] theorem State.setRunning_reply (r : Option Running) : (s.setRunning r).reply = s.reply := rfl

@[simp] theorem State.setHost_p (ms : List HostMove) : (s.setHost ms).p = s.p := rfl
@[simp] theorem State.setHost_buf (ms : List HostMove) : (s.setHost ms).buf = s.buf := rfl
@[simp] theorem State.setHost_err (ms : List HostMove) : (s.setHost ms).err = s.err := rfl
@[simp] theorem State.setHost_hrej (ms : List HostMove) : (s.setHost ms).hrej = s.hrej := rfl
@[simp] theorem State.setHost_fault (ms : List HostMove) : (s.setHost ms).fault = s.fault := rfl
@[simp] theorem State.setHost_faultcmd (ms : List HostMove) : (s.setHost ms).faultcmd = s.faultcmd := rfl
@[simp] theorem State.setHost_cmdcnt (ms : List HostMove) : (s.setHost ms).cmdcnt = s.cmdcnt := rfl
@[simp] theorem State.setHost_xofcnt (ms : List HostMove) : (s.setHost ms).xofcnt = s.xofcnt := rfl
@[simp] theorem State.setHost_running (ms : List HostMove) : (s.setHost ms).running = s.running := rfl
@[simp] theorem State.setHost_xs (ms : List HostMove) : (s.setHost ms).xs = s.xs := rfl
@[simp] theorem State.setHost_host (ms : List HostMove) : (s.setHost ms).host = ms := rfl
@[simp] theorem State.setHost_reply (ms : List HostMove) : (s.setHost ms).reply = s.reply := rfl

@[simp] theorem State.setReply_p (v : Nat) : (s.setReply v).p = s.p := rfl
@[simp] theorem State.setReply_buf (v : Nat) : (s.setReply v).buf = s.buf := rfl
@[simp] theorem State.setReply_err (v : Nat) : (s.setReply v).err = s.err := rfl
@[simp] theorem State.setReply_hrej (v : Nat) : (s.setReply v).hrej = s.hrej := rfl
@[simp] theorem State.setReply_fault (v : Nat) : (s.setReply v).fault = s.fault := rfl
@[simp] theorem State.setReply_faultcmd (v : Nat) : (s.setReply v).faultcmd = s.faultcmd := rfl
@[simp] theorem State.setReply_cmdcnt (v : Nat) : (s.setReply v).cmdcnt = s.cmdcnt := rfl
@[simp] theorem State.setReply_xofcnt (v : Nat) : (s.setReply v).xofcnt = s.xofcnt := rfl
@[simp] theorem State.setReply_running (v : Nat) : (s.setReply v).running = s.running := rfl
@[simp] theorem State.setReply_xs (v : Nat) : (s.setReply v).xs = s.xs := rfl
@[simp] theorem State.setReply_host (v : Nat) : (s.setReply v).host = s.host := rfl
@[simp] theorem State.setReply_reply (v : Nat) : (s.setReply v).reply = some v := rfl

@[simp] theorem State.complete_p : (s.complete).p = s.p := rfl
@[simp] theorem State.complete_buf : (s.complete).buf = s.buf := rfl
@[simp] theorem State.complete_err : (s.complete).err = s.err := rfl
@[simp] theorem State.complete_hrej : (s.complete).hrej = s.hrej := rfl
@[simp] theorem State.complete_fault : (s.complete).fault = s.fault := rfl
@[simp] theorem State.complete_faultcmd : (s.complete).faultcmd = s.faultcmd := rfl
@[simp] theorem State.complete_cmdcnt : (s.complete).cmdcnt = s.cmdcnt + 1 := rfl
@[simp] theorem State.complete_xofcnt : (s.complete).xofcnt = s.xofcnt := rfl
@[simp] theorem State.complete_running : (s.complete).running = s.running := rfl
@[simp] theorem State.complete_xs : (s.complete).xs = s.xs := rfl
@[simp] theorem State.complete_host : (s.complete).host = s.host := rfl
@[simp] theorem State.complete_reply : (s.complete).reply = s.reply := rfl

@[simp] theorem State.raiseFault_p (w : Word) (c : Cause) (n : Nat) : (s.raiseFault w c n).p = s.p := rfl
@[simp] theorem State.raiseFault_buf (w : Word) (c : Cause) (n : Nat) : (s.raiseFault w c n).buf = s.buf := rfl
@[simp] theorem State.raiseFault_err (w : Word) (c : Cause) (n : Nat) : (s.raiseFault w c n).err = true := rfl
@[simp] theorem State.raiseFault_hrej (w : Word) (c : Cause) (n : Nat) : (s.raiseFault w c n).hrej = s.hrej := rfl
@[simp] theorem State.raiseFault_fault (w : Word) (c : Cause) (n : Nat) : (s.raiseFault w c n).fault = ⟨c, BitVec.ofNat 12 n⟩ := rfl
@[simp] theorem State.raiseFault_faultcmd (w : Word) (c : Cause) (n : Nat) : (s.raiseFault w c n).faultcmd = w := rfl
@[simp] theorem State.raiseFault_cmdcnt (w : Word) (c : Cause) (n : Nat) : (s.raiseFault w c n).cmdcnt = s.cmdcnt := rfl
@[simp] theorem State.raiseFault_xofcnt (w : Word) (c : Cause) (n : Nat) : (s.raiseFault w c n).xofcnt = s.xofcnt := rfl
@[simp] theorem State.raiseFault_running (w : Word) (c : Cause) (n : Nat) : (s.raiseFault w c n).running = s.running := rfl
@[simp] theorem State.raiseFault_xs (w : Word) (c : Cause) (n : Nat) : (s.raiseFault w c n).xs = s.xs := rfl
@[simp] theorem State.raiseFault_host (w : Word) (c : Cause) (n : Nat) : (s.raiseFault w c n).host = s.host := rfl
@[simp] theorem State.raiseFault_reply (w : Word) (c : Cause) (n : Nat) : (s.raiseFault w c n).reply = s.reply := rfl

@[simp] theorem State.clearFault_p : (s.clearFault).p = s.p := rfl
@[simp] theorem State.clearFault_buf : (s.clearFault).buf = s.buf := rfl
@[simp] theorem State.clearFault_err : (s.clearFault).err = false := rfl
@[simp] theorem State.clearFault_hrej : (s.clearFault).hrej = s.hrej := rfl
@[simp] theorem State.clearFault_fault : (s.clearFault).fault = ⟨.none, 0⟩ := rfl
@[simp] theorem State.clearFault_faultcmd : (s.clearFault).faultcmd = 0 := rfl
@[simp] theorem State.clearFault_cmdcnt : (s.clearFault).cmdcnt = s.cmdcnt := rfl
@[simp] theorem State.clearFault_xofcnt : (s.clearFault).xofcnt = s.xofcnt := rfl
@[simp] theorem State.clearFault_running : (s.clearFault).running = s.running := rfl
@[simp] theorem State.clearFault_xs : (s.clearFault).xs = s.xs := rfl
@[simp] theorem State.clearFault_host : (s.clearFault).host = s.host := rfl
@[simp] theorem State.clearFault_reply : (s.clearFault).reply = s.reply := rfl

@[simp] theorem State.clearData_p : (s.clearData).p = Vector.replicate 16 zeroRing := rfl
@[simp] theorem State.clearData_buf : (s.clearData).buf = [] := rfl
@[simp] theorem State.clearData_err : (s.clearData).err = s.err := rfl
@[simp] theorem State.clearData_hrej : (s.clearData).hrej = false := rfl
@[simp] theorem State.clearData_fault : (s.clearData).fault = s.fault := rfl
@[simp] theorem State.clearData_faultcmd : (s.clearData).faultcmd = s.faultcmd := rfl
@[simp] theorem State.clearData_cmdcnt : (s.clearData).cmdcnt = s.cmdcnt := rfl
@[simp] theorem State.clearData_xofcnt : (s.clearData).xofcnt = 0 := rfl
@[simp] theorem State.clearData_running : (s.clearData).running = s.running := rfl
@[simp] theorem State.clearData_xs : (s.clearData).xs = s.xs := rfl
@[simp] theorem State.clearData_host : (s.clearData).host = s.host := rfl
@[simp] theorem State.clearData_reply : (s.clearData).reply = s.reply := rfl

@[simp] theorem State.resetBlock_p : (s.resetBlock).p = State.reset.p := rfl
@[simp] theorem State.resetBlock_buf : (s.resetBlock).buf = [] := rfl
@[simp] theorem State.resetBlock_err : (s.resetBlock).err = false := rfl
@[simp] theorem State.resetBlock_hrej : (s.resetBlock).hrej = false := rfl
@[simp] theorem State.resetBlock_fault : (s.resetBlock).fault = ⟨.none, 0⟩ := rfl
@[simp] theorem State.resetBlock_faultcmd : (s.resetBlock).faultcmd = 0 := rfl
@[simp] theorem State.resetBlock_cmdcnt : (s.resetBlock).cmdcnt = 0 := rfl
@[simp] theorem State.resetBlock_xofcnt : (s.resetBlock).xofcnt = 0 := rfl
@[simp] theorem State.resetBlock_running : (s.resetBlock).running = none := rfl
@[simp] theorem State.resetBlock_xs : (s.resetBlock).xs = s.xs := rfl
@[simp] theorem State.resetBlock_host : (s.resetBlock).host = s.host := rfl
@[simp] theorem State.resetBlock_reply : (s.resetBlock).reply = s.reply := rfl

@[simp] theorem State.setGroup_p (r : PReg) (rows : List RingElement) : (s.setGroup r rows).p = Vector.ofFn fun j => if r.val ≤ j.val then rows[j.val - r.val]?.getD s.p[j] else s.p[j] := rfl
@[simp] theorem State.setGroup_buf (r : PReg) (rows : List RingElement) : (s.setGroup r rows).buf = s.buf := rfl
@[simp] theorem State.setGroup_err (r : PReg) (rows : List RingElement) : (s.setGroup r rows).err = s.err := rfl
@[simp] theorem State.setGroup_hrej (r : PReg) (rows : List RingElement) : (s.setGroup r rows).hrej = s.hrej := rfl
@[simp] theorem State.setGroup_fault (r : PReg) (rows : List RingElement) : (s.setGroup r rows).fault = s.fault := rfl
@[simp] theorem State.setGroup_faultcmd (r : PReg) (rows : List RingElement) : (s.setGroup r rows).faultcmd = s.faultcmd := rfl
@[simp] theorem State.setGroup_cmdcnt (r : PReg) (rows : List RingElement) : (s.setGroup r rows).cmdcnt = s.cmdcnt := rfl
@[simp] theorem State.setGroup_xofcnt (r : PReg) (rows : List RingElement) : (s.setGroup r rows).xofcnt = s.xofcnt := rfl
@[simp] theorem State.setGroup_running (r : PReg) (rows : List RingElement) : (s.setGroup r rows).running = s.running := rfl
@[simp] theorem State.setGroup_xs (r : PReg) (rows : List RingElement) : (s.setGroup r rows).xs = s.xs := rfl
@[simp] theorem State.setGroup_host (r : PReg) (rows : List RingElement) : (s.setGroup r rows).host = s.host := rfl
@[simp] theorem State.setGroup_reply (r : PReg) (rows : List RingElement) : (s.setGroup r rows).reply = s.reply := rfl

/-- The register written holds the new polynomial. -/
@[simp] theorem State.setPoly_read_same (r : PReg) (v : RingElement) : (s.setPoly r v).p[r] = v := by
  simp [State.setPoly]

/-- Every other register is as before. -/
theorem State.setPoly_read_other (r q : PReg) (v : RingElement) (h : q ≠ r) : (s.setPoly r v).p[q] = s.p[q] := by
  have : r.val ≠ q.val := fun e => h (Fin.ext e.symm)
  simp [State.setPoly, Vector.getElem_set_ne, this]

/-- A register of the written group holds its row. -/
theorem State.setGroup_read_row (r q : PReg) (rows : List RingElement) (h : r.val ≤ q.val)
    (hl : q.val - r.val < rows.length) : (s.setGroup r rows).p[q] = rows[q.val - r.val] := by
  have hq : r ≤ q := h
  simp [State.setGroup, hq, List.getElem?_eq_getElem hl]

/-- A register outside the written group is as before. -/
theorem State.setGroup_read_other (r q : PReg) (rows : List RingElement)
    (h : q.val < r.val ∨ r.val + rows.length ≤ q.val) : (s.setGroup r rows).p[q] = s.p[q] := by
  rcases h with h | h
  · have hq : ¬ r ≤ q := Nat.not_le.mpr h
    simp [State.setGroup, hq]
  · have hn : rows.length ≤ q.val - r.val := by omega
    simp [State.setGroup, List.getElem?_eq_none hn]

end Sys2Proof.Machine
end

