-- ==== Sys2Proof/Laws/Operands.lean ====
section
/-! SUPPORT. What the operand forms can do: one lemma per shared operation, for later proofs to cite. -/

namespace Sys2Proof.Machine

/-- A command of format P2 writes its destination, counts itself, and changes nothing else. -/
theorem unary_spec (f : RingElement → RingElement) (pd pa : PReg) (s : State) :
    unary f pd pa s = { s with p := s.p.set pd.val (f s.p[pa]), cmdcnt := s.cmdcnt + 1 } := rfl

/-- A command of format P3 writes its destination, counts itself, and changes nothing else. -/
theorem binary_spec (f : RingElement → RingElement → RingElement) (pd pa pb : PReg) (s : State) :
    binary f pd pa pb s = { s with p := s.p.set pd.val (f s.p[pa] s.p[pb]), cmdcnt := s.cmdcnt + 1 } := rfl

/-- A command that answers with one register written and itself counted completes into that state. -/
theorem completesInto_of_setPoly {s : State} {i : Instr} {pd : PReg} {v : RingElement}
    (h : exec i s = .next (s.setPoly pd v).complete) : completesInto s i pd (s.setPoly pd v).complete :=
  ⟨h, rfl, fun r hr => by
    show (s.setPoly pd v).p[r] = s.p[r]
    exact State.setPoly_read_other s pd r v hr⟩

/-- The lanes of the register just written. -/
theorem lane_setPoly_complete (s : State) (pd : PReg) (v : RingElement) (j : Fin 256) :
    (s.setPoly pd v).complete.lane pd j = v[j].toInt := by
  show ((s.setPoly pd v).p[pd])[j].toInt = _
  rw [State.setPoly_read_same]

/-- The value of a lane is in the range of a coefficient. -/
theorem lane_range (s : State) (r : PReg) (j : Fin 256) :
    -2147483648 ≤ s.lane r j ∧ s.lane r j < 2147483648 := coeff_toInt_range _

/-- A command that answers with bytes stored and itself counted stores into those bytes alone. -/
theorem storesInto_of_storeBytes {s : State} {i : Instr} {addr n : Nat} {bs : List Byte}
    (h : exec i s = .next (s.storeBytes addr bs).complete) (hn : bs.length = n) :
    storesInto s i addr n (s.storeBytes addr bs).complete :=
  ⟨h, rfl, fun a ha => Memory.read_writeBytes_outside _ _ _ _ (by rw [hn]; exact ha)⟩

/-- A buffer command either goes on, its bytes lying in `BUF`, or raises `ADDR` (R32). -/
theorem buffered_cases (i : Instr) (addr n : Nat) (body : State → State) (s : State) :
    (addr + n ≤ 8192 ∧ buffered i addr n body s = body s) ∨
    (8192 < addr + n ∧ buffered i addr n body s = s.raiseFault (encode i) .addr 0) := by
  unfold buffered
  by_cases h : addr + n ≤ Config.bufBytes
  · exact .inl ⟨h, if_pos h⟩
  · exact .inr ⟨Nat.lt_of_not_le h, if_neg h⟩

/-- A group command either goes on, its eight registers existing, or raises `REGSPAN` (R11). -/
theorem grouped_cases (i : Instr) (r : PReg) (body : State → State) (s : State) :
    (r.val ≤ 8 ∧ grouped i r body s = body s) ∨
    (8 < r.val ∧ grouped i r body s = s.raiseFault (encode i) .regspan 0) := by
  unfold grouped
  by_cases h : r.val ≤ 8
  · exact .inl ⟨h, if_pos h⟩
  · exact .inr ⟨Nat.lt_of_not_le h, if_neg h⟩

/-- A group has eight rows. -/
theorem State.group_length (s : State) (r : PReg) (h : r.val ≤ 8) : (s.group r).length = 8 := by
  simp [State.group, Config.rowsK]
  omega

/-- Row `i` of a group. -/
theorem State.group_getElem (s : State) (r : PReg) (h : r.val ≤ 8) (i : Nat) (hi : i < 8) :
    (s.group r)[i]'(by rw [State.group_length s r h]; exact hi) = s.row r i := by
  have hr : r.val + i < 16 := by omega
  simp [State.group, State.row, hr]

end Sys2Proof.Machine
end

