-- ==== Sys2Proof/Laws/Control.lean ====
section
/-! SUPPORT. The raw image of a ring element (R33, R73, R74). -/

namespace Sys2Proof.Machine

/-- The image of a list of coefficients has four bytes for each. -/
theorem rawBytes_length (l : List Coeff) : (l.flatMap fun c => bytesOf 4 c.toNat).length = 4 * l.length := by
  induction l with
  | nil => rfl
  | cons c l ih => rw [List.flatMap_cons, List.length_append, ih, bytesOf_length, List.length_cons]; omega

/-- A raw image has 1024 bytes. -/
@[simp] theorem rawImage_length (v : RingElement) : (rawImage v).length = 1024 := by
  rw [rawImage, rawBytes_length, Vector.length_toList]

/-- Reading an image reads as many coefficients as asked for. -/
@[simp] theorem rawCoeffs_length (n : Nat) (bs : List Byte) : (rawCoeffs n bs).length = n := by
  induction n generalizing bs with
  | zero => rfl
  | succ n ih => simp [rawCoeffs, ih]

/-- The image of a list of coefficients reads back as that list. -/
theorem rawCoeffs_rawBytes (l : List Coeff) : rawCoeffs l.length (l.flatMap fun c => bytesOf 4 c.toNat) = l := by
  induction l with
  | nil => rfl
  | cons c l ih =>
    have hl : (bytesOf 4 c.toNat).length = 4 := bytesOf_length 4 _
    rw [List.flatMap_cons, List.length_cons, rawCoeffs, List.take_left' hl, List.drop_left' hl, ih,
      littleEndian_bytesOf, Nat.mod_eq_of_lt (by have := c.isLt; omega), BitVec.ofNat_toNat, BitVec.setWidth_eq]

/-- Coefficient `i` of an image is the four bytes at `4 i`, least significant first. -/
theorem rawCoeffs_getElem (n : Nat) (bs : List Byte) (i : Nat) (h : i < n) :
    (rawCoeffs n bs)[i]'(by simpa using h) = BitVec.ofNat 32 (littleEndian ((bs.drop (4 * i)).take 4)) := by
  induction n generalizing bs i with
  | zero => omega
  | succ n ih =>
    cases i with
    | zero => simp [rawCoeffs]
    | succ i =>
      simp only [rawCoeffs, List.getElem_cons_succ]
      rw [ih _ _ (by omega), List.drop_drop]
      congr 4
      omega

end Sys2Proof.Machine
end

