-- ==== Sys2Proof/Laws/Hint.lean ====
section
/-! SUPPORT. Sizes and rows of the hint encoding (R150, R152). -/

namespace Sys2Proof.Machine

/-- One cumulative count for each row. -/
@[simp] theorem hintCounts_length (k : Nat) (idx : List (List Nat)) : (hintCounts k idx).length = idx.length := by
  induction idx generalizing k with
  | nil => rfl
  | cons x l ih => simp [hintCounts, ih]

/-- The encoding of eight rows with at most 75 ones has 83 bytes. -/
theorem hintEncode_length {rows : List RingElement} (h : rows.length = 8)
    (hc : ((rows.map onesOf).flatten).length ≤ 75) : (hintEncode rows).length = 83 := by
  simp only [hintEncode, Config.omega, List.length_append, hintCounts_length, List.length_map, h,
    List.length_replicate]
  omega

/-- The ones of a row, rising, are the places of its coefficients equal to 1. -/
theorem mem_onesOf (row : RingElement) (j : Nat) : j ∈ onesOf row ↔ ∃ h : j < 256, row[j] = 1 := by
  simp only [onesOf, List.mem_filterMap, Prod.exists]
  constructor
  · rintro ⟨a, b, hab, hj⟩
    obtain ⟨i, hi, hij⟩ := List.mem_iff_getElem.mp hab
    simp only [List.length_zip, List.length_range, Vector.length_toList] at hi
    simp only [List.getElem_zip, List.getElem_range, Prod.mk.injEq, Vector.getElem_toList] at hij
    split at hj
    · obtain ⟨rfl, rfl⟩ := hij
      cases hj
      exact ⟨by omega, by assumption⟩
    · cases hj
  · rintro ⟨h, h1⟩
    refine ⟨j, 1, List.mem_iff_getElem.mpr ⟨j, by simpa using h, by simpa using h1⟩, by simp⟩

/-- Coefficient `j` of a row of given ones. -/
theorem rowOfOnes_getElem (idx : List Nat) (j : Nat) (h : j < 256) :
    (rowOfOnes idx)[j] = if j ∈ idx then 1 else 0 := by
  simp only [rowOfOnes]
  rw [ringElement_getElem (by simp) j h]
  simp

/-- An accepted encoding gives one row for each count. -/
theorem hintRows_length (y : List Nat) (counts : List Nat) (k : Nat) (rows : List RingElement)
    (h : hintRows y counts k = some rows) : rows.length = counts.length := by
  induction counts generalizing k rows with
  | nil =>
    simp only [hintRows] at h
    split at h <;> simp_all
  | cons c l ih =>
    simp only [hintRows] at h
    split at h
    · cases h
    · split at h
      · cases hr : hintRows y l c with
        | none => simp [hr] at h
        | some r => simp only [hr, Option.map_some, Option.some.injEq] at h; subst h; simp [ih _ _ hr]
      · cases h

end Sys2Proof.Machine
end

