-- ==== Sys2Proof/Laws/Packing.lean ====
section
/-! SUPPORT. Laws of PackBits, UnpackBits and the range check. -/

namespace Sys2Proof.Machine

/-- `PackBits` gives `32 * w` bytes. -/
@[simp] theorem packBits_length (w : Nat) (v : List Nat) : (packBits w v).length = 32 * w := by simp [packBits]

/-- Bit `w * i + b` of the values laid end to end is bit `b` of value `i` (R131). -/
theorem stream_testBit {w : Nat} (v : List Nat) (hv : ∀ x ∈ v, x < 2 ^ w) (i b : Nat) (hb : b < w) :
    (v.foldr (fun x acc => x + 2 ^ w * acc) 0).testBit (w * i + b) = ((v[i]?).getD 0).testBit b := by
  induction v generalizing i with
  | nil => simp
  | cons x v ih =>
    have hx : x < 2 ^ w := hv x (by simp)
    simp only [List.foldr_cons]
    rw [Nat.add_comm x, Nat.testBit_two_pow_mul_add _ hx]
    cases i with
    | zero => simp [hb]
    | succ i =>
      have h1 : ¬ w * (i + 1) + b < w := by
        have : w * (i + 1) = w * i + w := by ring
        omega
      have h2 : w * (i + 1) + b - w = w * i + b := by
        have : w * (i + 1) = w * i + w := by ring
        omega
      rw [if_neg h1, h2, ih fun y hy => hv y (by simp [hy])]
      simp

/-- Bit `w * i + b` of the packed bytes is bit `b` of value `i` (R131). -/
theorem packBits_bit {w : Nat} (v : List Nat) (hv : ∀ x ∈ v, x < 2 ^ w) (i b : Nat) (hi : i < 256) (hb : b < w) :
    (((packBits w v)[(w * i + b) / 8]?).getD 0).getLsbD ((w * i + b) % 8) = ((v[i]?).getD 0).testBit b := by
  have hk : (w * i + b) / 8 < 32 * w := by
    have : w * i ≤ w * 255 := Nat.mul_le_mul_left w (by omega)
    omega
  have e : 8 * ((w * i + b) / 8) + (w * i + b) % 8 = w * i + b := by omega
  rw [List.getElem?_eq_getElem (by simpa using hk), Option.getD_some]
  unfold packBits
  rw [bytesOf_getLsbD _ _ _ _ hk (by omega), e, stream_testBit v hv i b hb]

/-- `UnpackBits` gives 256 values. -/
@[simp] theorem unpackBits_length (w : Nat) (s : List Byte) : (unpackBits w s).length = 256 := by simp [unpackBits]

/-- Every unpacked value fits its field. -/
theorem unpackBits_lt (w : Nat) (s : List Byte) (x : Nat) (h : x ∈ unpackBits w s) : x < 2 ^ w := by
  simp only [unpackBits, List.mem_map] at h
  obtain ⟨i, _, rfl⟩ := h
  exact Nat.mod_lt _ (Nat.two_pow_pos w)

/-- Bit `b` of unpacked value `i` is bit `w * i + b` of the bytes (R131). -/
theorem unpackBits_testBit (w : Nat) (s : List Byte) (i b : Nat) (hi : i < 256) (hb : b < w) :
    ((unpackBits w s)[i]'(by simpa using hi)).testBit b =
      ((s[(w * i + b) / 8]?).getD 0).getLsbD ((w * i + b) % 8) := by
  simp only [unpackBits, List.getElem_map, List.getElem_range, Nat.testBit_mod_two_pow, Nat.testBit_shiftRight,
    littleEndian_testBit]
  simp [hb]

/-- Unpacking what was packed gives the values back (R131: the two are inverse). -/
theorem unpackBits_packBits {w : Nat} (v : List Nat) (hl : v.length = 256) (hv : ∀ x ∈ v, x < 2 ^ w) :
    unpackBits w (packBits w v) = v := by
  apply List.ext_getElem (by simp [hl])
  intro i h1 h2
  apply Nat.eq_of_testBit_eq
  intro b
  have hi : i < 256 := by omega
  by_cases hb : b < w
  · rw [unpackBits_testBit w _ i b hi hb, packBits_bit v hv i b hi hb, List.getElem?_eq_getElem h2, Option.getD_some]
  · have hp : 2 ^ w ≤ 2 ^ b := Nat.pow_le_pow_right (by omega) (by omega)
    rw [Nat.testBit_lt_two_pow (Nat.lt_of_lt_of_le (unpackBits_lt w _ _ (List.getElem_mem h1)) hp),
      Nat.testBit_lt_two_pow (Nat.lt_of_lt_of_le (hv _ (List.getElem_mem h2)) hp)]

/-- Packing what was unpacked gives the bytes back (R131: the two are inverse). -/
theorem packBits_unpackBits {w : Nat} (hw : 0 < w) (s : List Byte) (hl : s.length = 32 * w) :
    packBits w (unpackBits w s) = s := by
  apply List.ext_getElem (by simp [hl])
  intro m h1 h2
  apply BitVec.eq_of_getLsbD_eq
  intro k hk
  have hi : (8 * m + k) / w < 256 := by
    rw [Nat.div_lt_iff_lt_mul hw]; omega
  have hb : (8 * m + k) % w < w := Nat.mod_lt _ hw
  have e : w * ((8 * m + k) / w) + (8 * m + k) % w = 8 * m + k := Nat.div_add_mod _ _
  have hd : (8 * m + k) / 8 = m := by omega
  have hm : (8 * m + k) % 8 = k := by omega
  have p := packBits_bit (unpackBits w s) (unpackBits_lt w s) _ _ hi hb
  rw [e, hd, hm, List.getElem?_eq_getElem h1, Option.getD_some,
    List.getElem?_eq_getElem (by simpa using hi), Option.getD_some, unpackBits_testBit w s _ _ hi hb, e, hd, hm,
    List.getElem?_eq_getElem h2, Option.getD_some] at p
  exact p

/-- The range check passes exactly when every value fits (R132). -/
theorem firstMisfit_eq_none (w : Nat) (v : List Int) :
    firstMisfit w v = none ↔ ∀ x ∈ v, 0 ≤ x ∧ x < 2 ^ w := by
  simp only [firstMisfit, List.findIdx?_eq_none_iff]
  refine forall₂_congr fun x _ => ?_
  simp

/-- The range check reports the lowest index whose value does not fit (R132, R163). -/
theorem firstMisfit_eq_some (w : Nat) (v : List Int) (k : Nat) :
    firstMisfit w v = some k ↔
      ∃ h : k < v.length, ¬ (0 ≤ v[k] ∧ v[k] < 2 ^ w) ∧ ∀ j, (hj : j < k) → 0 ≤ v[j] ∧ v[j] < 2 ^ w := by
  simp only [firstMisfit, List.findIdx?_eq_some_iff_getElem]
  refine exists_congr fun h => and_congr ?_ ?_
  · simp only [Bool.or_eq_true, decide_eq_true_eq, not_and_or, not_le, not_lt]
  · refine forall₂_congr fun j hj => ?_
    simp

end Sys2Proof.Machine
end

