-- ==== Sys2Proof/Laws/Xof.lean ====
section
/-! SUPPORT. The XOF stream as a sequence: what `XofNext()` and its repetition answer. -/

namespace Sys2Proof.Machine

/-- Taking no byte leaves the stream as it is. -/
@[simp] theorem Xof.after_zero (x : Xof) : x.after 0 = x := by
  simp [Xof.after]

/-- Taking `m` and then `n` bytes is taking `m + n`. -/
theorem Xof.after_after (x : Xof) (m n : Nat) : (x.after m).after n = x.after (m + n) := by
  simp only [Xof.after, List.drop_drop, List.length_drop, Xof.mk.injEq, true_and]
  omega

/-- Byte `k` after `n` bytes have been taken is byte `n + k`. -/
theorem Xof.byteAt_after (x : Xof) (n k : Nat) : (x.after n).byteAt k = x.byteAt (n + k) := by
  simp only [Xof.byteAt, Xof.after, List.length_drop]
  by_cases h : n + k < x.ahead.length
  · have : k < x.ahead.length - n := by omega
    simp [h, this]
  · have : ¬ k < x.ahead.length - n := by omega
    simp only [h, this, dite_false]
    congr 1
    omega

/-- `XofNext()` answers the first byte and leaves the stream after it. -/
theorem Xof.next_eq (x : Xof) : x.next = (x.byteAt 0, x.after 1) := by
  obtain ⟨ahead, stream, pos⟩ := x
  cases ahead <;> simp [Xof.next, Xof.byteAt, Xof.after]

/-- `n` calls of `XofNext()` answer the first `n` bytes and leave the stream after them. -/
theorem Xof.take_eq (x : Xof) (n : Nat) : x.take n = ((List.range n).map x.byteAt, x.after n) := by
  induction n generalizing x with
  | zero => simp [Xof.take]
  | succ n ih =>
    simp only [Xof.take, Xof.next_eq, ih, Xof.after_after, List.range_succ_eq_map, List.map_cons, List.map_map,
      Prod.mk.injEq, List.cons.injEq, true_and]
    refine ⟨List.map_congr_left fun k _ => ?_, by rw [Nat.add_comm]⟩
    rw [Xof.byteAt_after, Nat.add_comm]
    rfl

end Sys2Proof.Machine
end

