-- ==== Sys2Proof/Laws/Sampler.lean ====
section
/-! SUPPORT. What one draw, a burst of draws and a run of a sampler can do (R110 to R116). -/

namespace Sys2Proof.Machine

/-! ### One draw -/

/-- A draw of SAMPU takes three bytes and accepts their low 23 bits if below `q` (R111). -/
theorem draw_uniform (n : Nat) (a : List Coeff) (x : Xof) :
    (Sampling.uniform n a).draw x =
      if uniformChunk x 0 < 8380417 then (.uniform (n + 1) (coeff (uniformChunk x 0) :: a), 3, x.after 3)
      else (.uniform n a, 3, x.after 3) := by
  have hq : ∀ v : Nat, ((v : Int) < Config.q) = (v < 8380417) := fun v => by simp only [Config.q]; norm_cast
  have hv : littleEndian [x.byteAt 0, x.byteAt 1, x.byteAt 2] % 8388608 = uniformChunk x 0 := by
    simp only [littleEndian, uniformChunk, Nat.mul_zero, Nat.zero_add]; omega
  have ht : x.take 3 = ([x.byteAt 0, x.byteAt 1, x.byteAt 2], x.after 3) := by
    rw [Xof.take_eq]; rfl
  simp only [Sampling.draw, ht, hv, hq]

/-- A draw of SAMPE takes one byte, the low nibble before the high one (R112). -/
theorem draw_eta (n : Nat) (a : List Coeff) (x : Xof) :
    (Sampling.eta n a).draw x =
      let lo := etaAccept (nibble x 0) n a
      let hi := etaAccept (nibble x 1) lo.1 lo.2
      (.eta hi.1 hi.2, 1, x.after 1) := by
  simp [Sampling.draw, Xof.next_eq, nibble]

/-- A draw of SAMPC takes one byte and is rejected if the byte is above the index (R114). -/
theorem draw_challenge (signs : BitVec 64) (i : Nat) (v : RingElement) (x : Xof) :
    (Sampling.challenge signs i v).draw x =
      let b := (x.byteAt 0).toNat
      if b ≤ i then
        (.challenge (signs >>> 1) (i + 1)
          ((v.setIfInBounds i (v.getD b 0)).setIfInBounds b (signCoeff signs)), 1, x.after 1)
      else (.challenge signs i v, 1, x.after 1) := by
  simp [Sampling.draw, Xof.next_eq]

/-- A draw takes as many bytes as it says, between one and three, and leaves the stream after them. -/
theorem draw_stream (t : Sampling) (x : Xof) :
    (t.draw x).2.2 = x.after (t.draw x).2.1 ∧ 1 ≤ (t.draw x).2.1 ∧ (t.draw x).2.1 ≤ 3 := by
  cases t with
  | uniform n a => rw [draw_uniform]; split <;> simp
  | eta n a => rw [draw_eta]; simp
  | challenge signs i v => rw [draw_challenge]; simp only; split <;> simp

/-! ### A burst of draws -/

/-- A sampler that has ended makes no further draw. -/
theorem drawMany_ended (fuel : Nat) {r : Running} (x : Xof) {v : RingElement} (h : r.task.result = some v) :
    drawMany fuel r x = (r, x) := by
  cases fuel <;> simp [drawMany, h]

/-- A sampler that has not ended makes one draw and goes on. -/
theorem drawMany_succ (fuel : Nat) {r : Running} (x : Xof) (h : r.task.result = none) :
    drawMany (fuel + 1) r x =
      drawMany fuel { r with task := (r.task.draw x).1, taken := r.taken + (r.task.draw x).2.1 } (r.task.draw x).2.2 := by
  simp [drawMany, h]

/-- `m + n` draws are `m` draws and then `n`. -/
theorem drawMany_add (m n : Nat) (r : Running) (x : Xof) :
    drawMany (m + n) r x = drawMany n (drawMany m r x).1 (drawMany m r x).2 := by
  induction m generalizing r x with
  | zero => simp [drawMany]
  | succ m ih =>
    cases h : r.task.result with
    | some v => rw [drawMany_ended _ _ h, drawMany_ended _ _ h, drawMany_ended _ _ h]
    | none => rw [Nat.add_right_comm, drawMany_succ _ _ h, drawMany_succ _ _ h, ih]

/-- A burst keeps the destination. -/
@[simp] theorem drawMany_pd (n : Nat) (r : Running) (x : Xof) : (drawMany n r x).1.pd = r.pd := by
  induction n generalizing r x with
  | zero => rfl
  | succ n ih =>
    cases h : r.task.result with
    | some v => rw [drawMany_ended _ _ h]
    | none => rw [drawMany_succ _ _ h, ih]

/-- A burst counts the bytes it takes and leaves the stream after them. -/
theorem drawMany_stream (n : Nat) (r : Running) (x : Xof) :
    r.taken ≤ (drawMany n r x).1.taken ∧ (drawMany n r x).2 = x.after ((drawMany n r x).1.taken - r.taken) := by
  induction n generalizing r x with
  | zero => simp [drawMany]
  | succ n ih =>
    cases h : r.task.result with
    | some v => rw [drawMany_ended _ _ h]; simp
    | none =>
      obtain ⟨hy, -, -⟩ := draw_stream r.task x
      rw [drawMany_succ _ _ h]
      generalize r.task.draw x = d at hy ⊢
      obtain ⟨t, k, y⟩ := d
      obtain ⟨h1, h2⟩ := ih { r with task := t, taken := r.taken + k } y
      generalize drawMany n { r with task := t, taken := r.taken + k } y = e at h1 h2 ⊢
      simp only at hy h1 h2 ⊢
      refine ⟨by omega, ?_⟩
      rw [h2, hy, Xof.after_after]
      congr 1
      omega

/-! ### A run of a sampler -/

/-- Everything a run of a sampler can do: it commits the finished polynomial, the byte count and `CMDCNT`, or it goes on
with nothing changed but the stream and its own progress (R75, R110, R116). -/
theorem runSampler_cases (r : Running) (s : State) :
    (∃ v, (drawMany Config.burstDraws r s.xs).1.task.result = some v ∧
      runSampler r s = { s with p := s.p.set r.pd.val v, running := none, cmdcnt := s.cmdcnt + 1,
                                xofcnt := BitVec.ofNat 32 (drawMany Config.burstDraws r s.xs).1.taken,
                                xs := (drawMany Config.burstDraws r s.xs).2 }) ∨
    ((drawMany Config.burstDraws r s.xs).1.task.result = none ∧
      runSampler r s = { s with xs := (drawMany Config.burstDraws r s.xs).2,
                                running := some (drawMany Config.burstDraws r s.xs).1 }) := by
  cases h : (drawMany Config.burstDraws r s.xs).1.task.result with
  | some v =>
    refine .inl ⟨v, rfl, ?_⟩
    have hpd := drawMany_pd Config.burstDraws r s.xs
    simp only [runSampler, h, State.setPoly, State.setXofcnt, State.setXs, State.setRunning, State.complete, hpd]
  | none => exact .inr ⟨rfl, by simp only [runSampler, h, State.setXs, State.setRunning]⟩

/-- Two runs of one task on one stream end alike and leave the same stream (R115). -/
theorem drawMany_pd_irrelevant (n : Nat) (t : Sampling) (k : Nat) (pd pd' : PReg) (x : Xof) :
    (drawMany n ⟨pd, t, k⟩ x).1.task = (drawMany n ⟨pd', t, k⟩ x).1.task ∧
    (drawMany n ⟨pd, t, k⟩ x).1.taken = (drawMany n ⟨pd', t, k⟩ x).1.taken ∧
    (drawMany n ⟨pd, t, k⟩ x).2 = (drawMany n ⟨pd', t, k⟩ x).2 := by
  induction n generalizing t k x with
  | zero => simp [drawMany]
  | succ n ih =>
    cases h : t.result with
    | some v => rw [drawMany_ended (r := ⟨pd, t, k⟩) _ _ h, drawMany_ended (r := ⟨pd', t, k⟩) _ _ h]; simp
    | none =>
      rw [drawMany_succ (r := ⟨pd, t, k⟩) _ _ h, drawMany_succ (r := ⟨pd', t, k⟩) _ _ h]
      exact ih _ _ _

/-- SAMPC starts with the 8 sign bytes (R114). -/
theorem startChallenge_eq (pd : PReg) (s : State) :
    startChallenge pd s = runSampler ⟨pd, .challenge (BitVec.ofNat 64 (littleEndian ((List.range 8).map s.xs.byteAt)))
      196 zeroRing, 8⟩ (s.setXs (s.xs.after 8)) := by
  simp only [startChallenge, Xof.take_eq, Config.tau]

/-- SAMPG takes 640 bytes and unpacks them (R113). -/
theorem execSampg_eq (pd : PReg) (s : State) : execSampg pd s =
    .next ((((s.setPoly pd (unpackRing formatZ ((List.range 640).map s.xs.byteAt))).setXofcnt 640).setXs
      (s.xs.after 640)).complete) := by
  unfold execSampg sampleMask
  rw [Xof.take_eq]

end Sys2Proof.Machine
end

