-- ==== Sys2Proof/Laws/Exec.lean ====
section
/-! SUPPORT. Everything a command can do, said once: `exec` always answers a next state, and that state is one of a few
updates of the old one. -/

namespace Sys2Proof.Machine

/-- The command is none of the three that change state by themselves: no sampler, and not ZEROIZE, CLRERR or NOP. -/
def plain (i : Instr) : Bool := !isSampler i && i != .nop && i != .clrerr && i != .zeroize

/-- `Effect i s t`: in state `s` command `i` may answer the next state `t`. -/
inductive Effect (i : Instr) (s : State) : State → Prop
  /-- NOP (R70). -/
  | nop (h : i = .nop) : Effect i s s.complete
  /-- CLRERR (R71). -/
  | clrerr (h : i = .clrerr) : Effect i s s.clearFault.complete
  /-- ZEROIZE (R72). -/
  | zeroize (h : i = .zeroize) : Effect i s s.clearData.complete
  /-- One polynomial is written. -/
  | poly (pd : PReg) (v : RingElement) (hi : plain i = true) (hw : ∀ r, mayWritePoly r i = (r == pd))
      (hb : writesBuf i = false) (hh : writesHrej i = false) : Effect i s (s.setPoly pd v).complete
  /-- The bytes of the command's span are written. -/
  | store (addr : Nat) (bs : List Byte) (hi : plain i = true) (hs : bufferSpan i = some (addr, bs.length))
      (ha : addr + bs.length ≤ 8192) (hw : ∀ r, mayWritePoly r i = false) (hb : writesBuf i = true)
      (hh : writesHrej i = false) : Effect i s (s.storeBytes addr bs).complete
  /-- HINTDEC, accepting (`b = false`) or rejecting (R152). -/
  | group (pd : PReg) (addr : Nat) (rows : List RingElement) (b : Bool) (hi : i = .hintdec pd addr) (hr : pd.val ≤ 8)
      (hl : rows.length = 8) : Effect i s ((s.setGroup pd rows).setHrej b).complete
  /-- A fault (R161), with `INFO` only for `RANGE` (R160). -/
  | fault (c : Cause) (n : Nat) (hi : plain i = true) (hs : bufferSpan i ≠ none)
      (hc : c = .addr ∨ c = .range ∨ c = .hintcnt ∨ c = .regspan) (hn : n < 2048) (h0 : c ≠ .range → n = 0) :
      Effect i s (s.raiseFault (encode i) c n)
  /-- SAMPG (R113). -/
  | masked (pd : PReg) (v : RingElement) (hi : i = .sampg pd) :
      Effect i s ((((s.setPoly pd v).setXofcnt 640).setXs (s.xs.after 640)).complete)
  /-- SAMPU begins (R111). -/
  | uniform (pd : PReg) (hi : i = .sampu pd) : Effect i s (runSampler ⟨pd, .uniform 0 [], 0⟩ s)
  /-- SAMPE begins (R112). -/
  | eta (pd : PReg) (hi : i = .sampe pd) : Effect i s (runSampler ⟨pd, .eta 0 [], 0⟩ s)
  /-- SAMPC begins, its sign bytes taken (R114). -/
  | challenge (pd : PReg) (signs : BitVec 64) (hi : i = .sampc pd) :
      Effect i s (runSampler ⟨pd, .challenge signs 196 zeroRing, 8⟩ (s.setXs (s.xs.after 8)))

/-- The effect of a loading command: the polynomial is written, or the address is refused. -/
theorem effect_load {i : Instr} {s : State} {pd : PReg} {addr n : Nat} {v : State → RingElement}
    (hi : plain i = true) (hw : ∀ r, mayWritePoly r i = (r == pd)) (hb : writesBuf i = false)
    (hh : writesHrej i = false) (hs : bufferSpan i = some (addr, n)) :
    Effect i s (buffered i addr n (fun s => (s.setPoly pd (v s)).complete) s) := by
  rcases buffered_cases i addr n (fun s => (s.setPoly pd (v s)).complete) s with ⟨_, h⟩ | ⟨_, h⟩ <;> rw [h]
  · exact .poly pd (v s) hi hw hb hh
  · exact .fault .addr 0 hi (by simp [hs]) (.inl rfl) (by decide) (fun _ => rfl)

/-- The effect of a pack command. -/
theorem effect_pack {i : Instr} {s : State} {f : PackFormat} {pa : PReg} {addr : Nat} (hi : plain i = true)
    (hw : ∀ r, mayWritePoly r i = false) (hb : writesBuf i = true) (hh : writesHrej i = false)
    (hs : bufferSpan i = some (addr, 32 * f.width)) : Effect i s (pack i f pa addr s) := by
  unfold pack
  rcases buffered_cases i addr (32 * f.width) (fun s => match firstMisfit f.width (storedValues f s.p[pa]) with
      | some k => s.raiseFault (encode i) .range k
      | none => (s.storeBytes addr (packBits f.width ((storedValues f s.p[pa]).map Int.toNat))).complete) s with
    ⟨ha, h⟩ | ⟨_, h⟩ <;> refine h ▸ ?_
  · cases hk : firstMisfit f.width (storedValues f s.p[pa]) with
    | some k =>
      have hl : k < (storedValues f s.p[pa]).length := ((firstMisfit_eq_some _ _ _).mp hk).1
      simp only [storedValues, List.length_map, ints_length] at hl
      exact .fault .range k hi (by simp [hs]) (.inr (.inl rfl)) (by omega) (fun h => absurd rfl h)
    | none => exact .store addr _ hi (by rw [packBits_length, hs]) (by rw [packBits_length]; exact ha) hw hb hh
  · exact .fault .addr 0 hi (by simp [hs]) (.inl rfl) (by decide) (fun _ => rfl)

/-- The effect of HINTENC. -/
theorem effect_hintenc (pa : PReg) (addr : Nat) (s : State) :
    ∃ t, exec (.hintenc pa addr) s = .next t ∧ Effect (.hintenc pa addr) s t := by
  have hn : bufferSpan (.hintenc pa addr) ≠ none := nofun
  refine ⟨_, rfl, ?_⟩
  unfold grouped buffered
  split
  · next hr =>
    split
    · next ha =>
      simp only
      split
      · next k hk =>
        obtain ⟨hl, -⟩ := List.findIdx?_eq_some_iff_getElem.mp hk
        have hlen : ((s.group pa).flatMap Vector.toList).length = 256 * (s.group pa).length := by
          generalize s.group pa = l
          induction l with
          | nil => rfl
          | cons v l ih => rw [List.flatMap_cons, List.length_append, ih, Vector.length_toList, List.length_cons]; omega
        rw [hlen, State.group_length s pa hr] at hl
        exact .fault .range k rfl hn (.inr (.inl rfl)) (by omega) (fun h => absurd rfl h)
      · split
        · exact .fault .hintcnt 0 rfl hn (.inr (.inr (.inl rfl))) (by decide) (fun _ => rfl)
        · next hc =>
          have hl : ((hintEncode (s.group pa)).map (BitVec.ofNat 8)).length = 83 := by
            rw [List.length_map]
            refine hintEncode_length (State.group_length s pa hr) ?_
            rw [List.length_flatten, List.map_map]
            exact Nat.le_of_not_lt hc
          exact .store addr _ rfl (by rw [hl]; rfl) (by rw [hl]; exact ha) (fun _ => rfl) rfl rfl
    · exact .fault .addr 0 rfl hn (.inl rfl) (by decide) (fun _ => rfl)
  · exact .fault .regspan 0 rfl hn (.inr (.inr (.inr rfl))) (by decide) (fun _ => rfl)

/-- The effect of HINTDEC. -/
theorem effect_hintdec (pd : PReg) (addr : Nat) (s : State) :
    ∃ t, exec (.hintdec pd addr) s = .next t ∧ Effect (.hintdec pd addr) s t := by
  have hn : bufferSpan (.hintdec pd addr) ≠ none := nofun
  refine ⟨_, rfl, ?_⟩
  unfold grouped buffered
  split
  · next hr =>
    split
    · simp only
      split
      · next rows hd =>
        have hl := hintRows_length _ _ _ _ hd
        exact .group pd addr rows false rfl hr (by rw [hl]; simp [Config.omega, hintBytes, Config.rowsK])
      · exact .group pd addr _ true rfl hr List.length_replicate
    · exact .fault .addr 0 rfl hn (.inl rfl) (by decide) (fun _ => rfl)
  · exact .fault .regspan 0 rfl hn (.inr (.inr (.inr rfl))) (by decide) (fun _ => rfl)

/-- Every command answers a next state, in every state, and that state is one of the effects above. -/
theorem exec_effect (i : Instr) (s : State) : ∃ t, exec i s = .next t ∧ Effect i s t := by
  cases i with
  | nop => exact ⟨_, rfl, .nop rfl⟩
  | clrerr => exact ⟨_, rfl, .clrerr rfl⟩
  | zeroize => exact ⟨_, rfl, .zeroize rfl⟩
  | ldraw pd addr => exact ⟨_, rfl, effect_load rfl (fun _ => rfl) rfl rfl rfl⟩
  | straw pa addr =>
    refine ⟨_, rfl, ?_⟩
    unfold buffered
    split
    · next ha =>
      exact .store addr _ rfl (by rw [rawImage_length]; rfl) (by rw [rawImage_length]; exact ha) (fun _ => rfl) rfl rfl
    · exact .fault .addr 0 rfl nofun (.inl rfl) (by decide) (fun _ => rfl)
  | pmov | pred | pcaddq | ntt | intt | p2rhi | p2rlo | dechi | declo =>
    exact ⟨_, rfl, .poly _ _ rfl (fun _ => rfl) rfl rfl⟩
  | mkhint | usehint | padd | psub | pwmul | pwmac => exact ⟨_, rfl, .poly _ _ rfl (fun _ => rfl) rfl rfl⟩
  | sampu pd => exact ⟨_, rfl, .uniform pd rfl⟩
  | sampe pd => exact ⟨_, rfl, .eta pd rfl⟩
  | sampg pd => exact ⟨_, execSampg_eq pd s, .masked pd _ rfl⟩
  | sampc pd => exact ⟨_, rfl, by rw [startChallenge_eq]; exact .challenge pd _ rfl⟩
  | pkt1 | pkt0 | pketa | pkz | pkw1 => exact ⟨_, rfl, effect_pack rfl (fun _ => rfl) rfl rfl rfl⟩
  | upt1 | upt0 | upeta | upz | upw1 => exact ⟨_, rfl, effect_load rfl (fun _ => rfl) rfl rfl rfl⟩
  | hintenc pa addr => exact effect_hintenc pa addr s
  | hintdec pd addr => exact effect_hintdec pd addr s

/-- A next state that `exec` answers is one of the effects above. -/
theorem effect_of_exec {i : Instr} {s t : State} (h : exec i s = .next t) : Effect i s t := by
  obtain ⟨u, hu, he⟩ := exec_effect i s
  rw [hu] at h
  exact Host.Outcome.next.inj h ▸ he

/-- What a run of a sampler keeps, whether it ends or goes on, and when it counts itself (R110, R116). -/
theorem runSampler_frame (r : Running) (s : State) :
    (runSampler r s).buf = s.buf ∧ (runSampler r s).err = s.err ∧ (runSampler r s).hrej = s.hrej ∧
    (runSampler r s).fault = s.fault ∧ (runSampler r s).faultcmd = s.faultcmd ∧ (runSampler r s).host = s.host ∧
    (runSampler r s).reply = s.reply ∧ (∀ q : PReg, q ≠ r.pd → (runSampler r s).p[q] = s.p[q]) ∧
    (runSampler r s).cmdcnt = if (runSampler r s).busy = true then s.cmdcnt else s.cmdcnt + 1 := by
  rcases runSampler_cases r s with ⟨v, _, h⟩ | ⟨_, h⟩ <;> rw [h]
  · refine ⟨rfl, rfl, rfl, rfl, rfl, rfl, rfl, fun q hq => ?_, rfl⟩
    have hne : r.pd.val ≠ q.val := fun h => hq (Fin.ext h.symm)
    simp [hne]
  · exact ⟨rfl, rfl, rfl, rfl, rfl, rfl, rfl, fun _ _ => rfl, rfl⟩

/-- The invariant speaks of five fields only. -/
theorem State.Inv.of_fields {s t : State} (h : s.Inv) (hb : t.buf = s.buf) (he : t.err = s.err)
    (hf : t.fault = s.fault) (hw : t.faultcmd = s.faultcmd) (hr : t.running = s.running) : t.Inv where
  buf_wf := hb ▸ h.buf_wf
  buf_range := hb ▸ h.buf_range
  fault_ok := by
    obtain ⟨h1, h2, h3, h4⟩ := h.fault_ok
    constructor <;> rw [hf] <;> try rw [he]
    · rw [hw]; exact h1
    · exact h2
    · exact h3
    · exact h4
  running_ok := by rw [hr, he]; exact h.running_ok

end Sys2Proof.Machine
end

