-- ==== Sys2Proof/Laws/Host.lean ====
section
/-! SUPPORT. What one step can do, by the command in progress and the host's next move (R40, R75). -/

namespace Sys2Proof.Machine

/-- An idle engine with no host move keeps its state. -/
theorem step_idle {s : State} (hr : s.running = none) (hh : s.host = []) : step s = .next s := by
  simp [step, advance, hr, hh]

/-- An idle engine lets the host's next move take effect. -/
theorem step_move {s : State} {m : HostMove} {ms : List HostMove} (hr : s.running = none) (hh : s.host = m :: ms) :
    step s = perform m { s with host := ms } := by
  simp [step, advance, hr, hh, State.setHost]

/-- A running sampler goes on unless the host's next move is one that never waits. -/
theorem step_running {s : State} {r : Running} (hr : s.running = some r)
    (hh : ∀ m ms, s.host = m :: ms → m.neverWaits = false) : step s = .next (runSampler r s) := by
  cases h : s.host with
  | nil => simp [step, advance, hr, h]
  | cons m ms => simp [step, advance, hr, h, hh m ms h]

/-- A host move that never waits takes effect in every state. -/
theorem step_neverWaits {s : State} {m : HostMove} {ms : List HostMove} (hh : s.host = m :: ms)
    (hm : m.neverWaits = true) : step s = perform m { s with host := ms } := by
  cases hr : s.running <;> simp [step, advance, hr, hh, hm, State.setHost]

/-- The moves that never wait are reset and the `STATUS` read. -/
theorem neverWaits_iff (m : HostMove) : m.neverWaits = true ↔ m = .reset ∨ m = .read 4 4 := by
  cases m <;> simp [HostMove.neverWaits]

/-- An access of a control register is an aligned word below offset `0x18`. -/
theorem target_control {k : Nat} (h : k < 6) : target (4 * k) 4 = .control k := by
  have : k = 0 ∨ k = 1 ∨ k = 2 ∨ k = 3 ∨ k = 4 ∨ k = 5 := by omega
  rcases this with rfl | rfl | rfl | rfl | rfl | rfl <;> rfl

/-- An access inside the buffer window reaches `BUF`. -/
theorem target_buffer {a n : Nat} (h : a + n ≤ 8192) : target (0x2000 + a) n = .buffer a := by
  have h1 : ¬ 16384 < 8192 + a + n := by omega
  have h2 : 8192 ≤ 8192 + a := by omega
  simp [target, windowBase, Config.bufBytes, h1, h2]

/-- A host write of a word to offset 0 is a command. -/
theorem perform_command (w : Word) (s : State) : perform (.write 0 4 w.toNat) s = accept w s := by
  have h : target 0 4 = .control 0 := target_control (k := 0) (by omega)
  simp [perform, hostWrite, h]

/-- What a written word can do: dropped while `ERR = 1`, executed, or refused as illegal (R75). -/
theorem accept_cases (w : Word) (s : State) :
    (s.err = true ∧ w ≠ clrerrWord ∧ accept w s = .next s) ∨
    ((s.err = false ∨ w = clrerrWord) ∧ ∃ i, decode w = .instr i ∧ accept w s = exec i s) ∨
    ((s.err = false ∨ w = clrerrWord) ∧ ∃ r, decode w = .reject r ∧ accept w s = .next (s.raiseFault w .illegal 0)) := by
  by_cases he : s.err = true ∧ w ≠ clrerrWord
  · exact .inl ⟨he.1, he.2, by simp [accept, he]⟩
  · have he' : s.err = false ∨ w = clrerrWord := by
      cases h : s.err with
      | false => exact .inl rfl
      | true => exact .inr (by by_contra hw; exact he ⟨h, hw⟩)
    cases hd : decode w with
    | instr i => exact .inr (.inl ⟨he', i, rfl, by simp only [accept, he, if_false, hd]⟩)
    | reject r => exact .inr (.inr ⟨he', r, rfl, by simp only [accept, he, if_false, hd]⟩)

end Sys2Proof.Machine
end

