-- ==== Sys2Proof/Laws/PerInstr.lean ====
section
/-! SUPPORT. Every command's word satisfies the row of the opcode map with the command's own mnemonic (R57): one lemma
per constructor of `Instr`. -/

namespace Sys2Proof.Laws

/-- The word of the command satisfies a row of the opcode map that has the command's mnemonic. -/
def EncodedInRow.Statement (i : Instr) : Prop := ∃ r ∈ opcodeRows, r.mnemonic = i.mnemonic ∧ r.accepts (encode i)

/-- A format Z word under the mask of its format is the word with all operand fields 0 (R51, R57). -/
theorem wordZ_masked (op : Byte) : wordZ op &&& 0xFFFFFFFF = op ++ 0#24 := by
  ext i hi
  interval_cases i <;> simp [wordZ]

/-- The same for format P2 (R52). -/
theorem wordP2_masked (op : Byte) (pd pa : PReg) : wordP2 op pd pa &&& 0xFF00FFFF = op ++ 0#24 := by
  unfold wordP2
  generalize regBits pd = x
  generalize regBits pa = y
  apply BitVec.eq_of_getLsbD_eq
  intro i hi
  simp only [BitVec.getLsbD_and, BitVec.getLsbD_append]
  interval_cases i <;> simp

/-- The same for format P3 (R53). -/
theorem wordP3_masked (op : Byte) (pd pa pb : PReg) : wordP3 op pd pa pb &&& 0xFF000FFF = op ++ 0#24 := by
  unfold wordP3
  generalize regBits pd = x
  generalize regBits pa = y
  generalize regBits pb = z
  apply BitVec.eq_of_getLsbD_eq
  intro i hi
  simp only [BitVec.getLsbD_and, BitVec.getLsbD_append]
  interval_cases i <;> simp

/-- The same for format S (R54). -/
theorem wordS_masked (op : Byte) (pd : PReg) : wordS op pd &&& 0xFF0FFFFF = op ++ 0#24 := by
  unfold wordS
  generalize regBits pd = x
  apply BitVec.eq_of_getLsbD_eq
  intro i hi
  simp only [BitVec.getLsbD_and, BitVec.getLsbD_append]
  interval_cases i <;> simp

/-- The same for format M (R55). -/
theorem wordM_masked (op : Byte) (r : PReg) (addr : Nat) : wordM op r addr &&& 0xFF0F0000 = op ++ 0#24 := by
  unfold wordM
  generalize regBits r = x
  generalize BitVec.ofNat 16 addr = y
  apply BitVec.eq_of_getLsbD_eq
  intro i hi
  simp only [BitVec.getLsbD_and, BitVec.getLsbD_append]
  interval_cases i <;> simp

theorem EncodedInRow.nop : EncodedInRow.Statement .nop :=
  ⟨⟨"NOP", 0x00000000, 0xFFFFFFFF⟩, by decide, rfl, (wordZ_masked 0x00).trans (by decide)⟩

theorem EncodedInRow.clrerr : EncodedInRow.Statement .clrerr :=
  ⟨⟨"CLRERR", 0x01000000, 0xFFFFFFFF⟩, by decide, rfl, (wordZ_masked 0x01).trans (by decide)⟩

theorem EncodedInRow.zeroize : EncodedInRow.Statement .zeroize :=
  ⟨⟨"ZEROIZE", 0x02000000, 0xFFFFFFFF⟩, by decide, rfl, (wordZ_masked 0x02).trans (by decide)⟩

theorem EncodedInRow.ldraw (pd : PReg) (addr : Nat) : EncodedInRow.Statement (.ldraw pd addr) :=
  ⟨⟨"LDRAW", 0x08000000, 0xFF0F0000⟩, by decide, rfl, (wordM_masked 0x08 pd addr).trans (by decide)⟩

theorem EncodedInRow.straw (pa : PReg) (addr : Nat) : EncodedInRow.Statement (.straw pa addr) :=
  ⟨⟨"STRAW", 0x09000000, 0xFF0F0000⟩, by decide, rfl, (wordM_masked 0x09 pa addr).trans (by decide)⟩

theorem EncodedInRow.pmov (pd pa : PReg) : EncodedInRow.Statement (.pmov pd pa) :=
  ⟨⟨"PMOV", 0x10000000, 0xFF00FFFF⟩, by decide, rfl, (wordP2_masked 0x10 pd pa).trans (by decide)⟩

theorem EncodedInRow.pred (pd pa : PReg) : EncodedInRow.Statement (.pred pd pa) :=
  ⟨⟨"PRED", 0x11000000, 0xFF00FFFF⟩, by decide, rfl, (wordP2_masked 0x11 pd pa).trans (by decide)⟩

theorem EncodedInRow.pcaddq (pd pa : PReg) : EncodedInRow.Statement (.pcaddq pd pa) :=
  ⟨⟨"PCADDQ", 0x12000000, 0xFF00FFFF⟩, by decide, rfl, (wordP2_masked 0x12 pd pa).trans (by decide)⟩

theorem EncodedInRow.ntt (pd pa : PReg) : EncodedInRow.Statement (.ntt pd pa) :=
  ⟨⟨"NTT", 0x18000000, 0xFF00FFFF⟩, by decide, rfl, (wordP2_masked 0x18 pd pa).trans (by decide)⟩

theorem EncodedInRow.intt (pd pa : PReg) : EncodedInRow.Statement (.intt pd pa) :=
  ⟨⟨"INTT", 0x19000000, 0xFF00FFFF⟩, by decide, rfl, (wordP2_masked 0x19 pd pa).trans (by decide)⟩

theorem EncodedInRow.p2rhi (pd pa : PReg) : EncodedInRow.Statement (.p2rhi pd pa) :=
  ⟨⟨"P2RHI", 0x20000000, 0xFF00FFFF⟩, by decide, rfl, (wordP2_masked 0x20 pd pa).trans (by decide)⟩

theorem EncodedInRow.p2rlo (pd pa : PReg) : EncodedInRow.Statement (.p2rlo pd pa) :=
  ⟨⟨"P2RLO", 0x21000000, 0xFF00FFFF⟩, by decide, rfl, (wordP2_masked 0x21 pd pa).trans (by decide)⟩

theorem EncodedInRow.dechi (pd pa : PReg) : EncodedInRow.Statement (.dechi pd pa) :=
  ⟨⟨"DECHI", 0x22000000, 0xFF00FFFF⟩, by decide, rfl, (wordP2_masked 0x22 pd pa).trans (by decide)⟩

theorem EncodedInRow.declo (pd pa : PReg) : EncodedInRow.Statement (.declo pd pa) :=
  ⟨⟨"DECLO", 0x23000000, 0xFF00FFFF⟩, by decide, rfl, (wordP2_masked 0x23 pd pa).trans (by decide)⟩

theorem EncodedInRow.mkhint (pd pa pb : PReg) : EncodedInRow.Statement (.mkhint pd pa pb) :=
  ⟨⟨"MKHINT", 0x24000000, 0xFF000FFF⟩, by decide, rfl, (wordP3_masked 0x24 pd pa pb).trans (by decide)⟩

theorem EncodedInRow.usehint (pd pa pb : PReg) : EncodedInRow.Statement (.usehint pd pa pb) :=
  ⟨⟨"USEHINT", 0x25000000, 0xFF000FFF⟩, by decide, rfl, (wordP3_masked 0x25 pd pa pb).trans (by decide)⟩

theorem EncodedInRow.sampu (pd : PReg) : EncodedInRow.Statement (.sampu pd) :=
  ⟨⟨"SAMPU", 0x30000000, 0xFF0FFFFF⟩, by decide, rfl, (wordS_masked 0x30 pd).trans (by decide)⟩

theorem EncodedInRow.sampe (pd : PReg) : EncodedInRow.Statement (.sampe pd) :=
  ⟨⟨"SAMPE", 0x31000000, 0xFF0FFFFF⟩, by decide, rfl, (wordS_masked 0x31 pd).trans (by decide)⟩

theorem EncodedInRow.sampg (pd : PReg) : EncodedInRow.Statement (.sampg pd) :=
  ⟨⟨"SAMPG", 0x32000000, 0xFF0FFFFF⟩, by decide, rfl, (wordS_masked 0x32 pd).trans (by decide)⟩

theorem EncodedInRow.sampc (pd : PReg) : EncodedInRow.Statement (.sampc pd) :=
  ⟨⟨"SAMPC", 0x33000000, 0xFF0FFFFF⟩, by decide, rfl, (wordS_masked 0x33 pd).trans (by decide)⟩

theorem EncodedInRow.padd (pd pa pb : PReg) : EncodedInRow.Statement (.padd pd pa pb) :=
  ⟨⟨"PADD", 0x40000000, 0xFF000FFF⟩, by decide, rfl, (wordP3_masked 0x40 pd pa pb).trans (by decide)⟩

theorem EncodedInRow.psub (pd pa pb : PReg) : EncodedInRow.Statement (.psub pd pa pb) :=
  ⟨⟨"PSUB", 0x41000000, 0xFF000FFF⟩, by decide, rfl, (wordP3_masked 0x41 pd pa pb).trans (by decide)⟩

theorem EncodedInRow.pwmul (pd pa pb : PReg) : EncodedInRow.Statement (.pwmul pd pa pb) :=
  ⟨⟨"PWMUL", 0x42000000, 0xFF000FFF⟩, by decide, rfl, (wordP3_masked 0x42 pd pa pb).trans (by decide)⟩

theorem EncodedInRow.pwmac (pd pa pb : PReg) : EncodedInRow.Statement (.pwmac pd pa pb) :=
  ⟨⟨"PWMAC", 0x43000000, 0xFF000FFF⟩, by decide, rfl, (wordP3_masked 0x43 pd pa pb).trans (by decide)⟩

theorem EncodedInRow.pkt1 (pa : PReg) (addr : Nat) : EncodedInRow.Statement (.pkt1 pa addr) :=
  ⟨⟨"PKT1", 0x50000000, 0xFF0F0000⟩, by decide, rfl, (wordM_masked 0x50 pa addr).trans (by decide)⟩

theorem EncodedInRow.pkt0 (pa : PReg) (addr : Nat) : EncodedInRow.Statement (.pkt0 pa addr) :=
  ⟨⟨"PKT0", 0x51000000, 0xFF0F0000⟩, by decide, rfl, (wordM_masked 0x51 pa addr).trans (by decide)⟩

theorem EncodedInRow.pketa (pa : PReg) (addr : Nat) : EncodedInRow.Statement (.pketa pa addr) :=
  ⟨⟨"PKETA", 0x52000000, 0xFF0F0000⟩, by decide, rfl, (wordM_masked 0x52 pa addr).trans (by decide)⟩

theorem EncodedInRow.pkz (pa : PReg) (addr : Nat) : EncodedInRow.Statement (.pkz pa addr) :=
  ⟨⟨"PKZ", 0x53000000, 0xFF0F0000⟩, by decide, rfl, (wordM_masked 0x53 pa addr).trans (by decide)⟩

theorem EncodedInRow.pkw1 (pa : PReg) (addr : Nat) : EncodedInRow.Statement (.pkw1 pa addr) :=
  ⟨⟨"PKW1", 0x54000000, 0xFF0F0000⟩, by decide, rfl, (wordM_masked 0x54 pa addr).trans (by decide)⟩

theorem EncodedInRow.upt1 (pd : PReg) (addr : Nat) : EncodedInRow.Statement (.upt1 pd addr) :=
  ⟨⟨"UPT1", 0x58000000, 0xFF0F0000⟩, by decide, rfl, (wordM_masked 0x58 pd addr).trans (by decide)⟩

theorem EncodedInRow.upt0 (pd : PReg) (addr : Nat) : EncodedInRow.Statement (.upt0 pd addr) :=
  ⟨⟨"UPT0", 0x59000000, 0xFF0F0000⟩, by decide, rfl, (wordM_masked 0x59 pd addr).trans (by decide)⟩

theorem EncodedInRow.upeta (pd : PReg) (addr : Nat) : EncodedInRow.Statement (.upeta pd addr) :=
  ⟨⟨"UPETA", 0x5A000000, 0xFF0F0000⟩, by decide, rfl, (wordM_masked 0x5A pd addr).trans (by decide)⟩

theorem EncodedInRow.upz (pd : PReg) (addr : Nat) : EncodedInRow.Statement (.upz pd addr) :=
  ⟨⟨"UPZ", 0x5B000000, 0xFF0F0000⟩, by decide, rfl, (wordM_masked 0x5B pd addr).trans (by decide)⟩

theorem EncodedInRow.upw1 (pd : PReg) (addr : Nat) : EncodedInRow.Statement (.upw1 pd addr) :=
  ⟨⟨"UPW1", 0x5C000000, 0xFF0F0000⟩, by decide, rfl, (wordM_masked 0x5C pd addr).trans (by decide)⟩

theorem EncodedInRow.hintenc (pa : PReg) (addr : Nat) : EncodedInRow.Statement (.hintenc pa addr) :=
  ⟨⟨"HINTENC", 0x60000000, 0xFF0F0000⟩, by decide, rfl, (wordM_masked 0x60 pa addr).trans (by decide)⟩

theorem EncodedInRow.hintdec (pd : PReg) (addr : Nat) : EncodedInRow.Statement (.hintdec pd addr) :=
  ⟨⟨"HINTDEC", 0x61000000, 0xFF0F0000⟩, by decide, rfl, (wordM_masked 0x61 pd addr).trans (by decide)⟩

end Sys2Proof.Laws
end

