-- ==== Sys2Proof/Laws/Transform.lean ====
section
/-! SUPPORT. The transforms' layers keep 256 coefficients, and what is known of the zetas table (R91 to R93). -/

namespace Sys2Proof.Machine

/-- A forward layer keeps the number of coefficients. -/
theorem nttLayer_length (len blocks k : Nat) (a : List Int) (h : blocks * (2 * len) ≤ a.length) :
    (nttLayer len blocks k a).length = a.length := by
  induction blocks generalizing k a with
  | zero => rfl
  | succ b ih =>
    have h' : b * (2 * len) + 2 * len ≤ a.length := by rw [← Nat.succ_mul]; exact h
    have hr := ih (k + 1) (a.drop (2 * len)) (by rw [List.length_drop]; omega)
    simp only [nttLayer, List.length_append, List.length_zipWith, List.length_take, List.length_map, List.length_drop,
      hr]
    omega

/-- An inverse layer keeps the number of coefficients. -/
theorem inttLayer_length (len blocks k : Nat) (a : List Int) (h : blocks * (2 * len) ≤ a.length) :
    (inttLayer len blocks k a).length = a.length := by
  induction blocks generalizing k a with
  | zero => rfl
  | succ b ih =>
    have h' : b * (2 * len) + 2 * len ≤ a.length := by rw [← Nat.succ_mul]; exact h
    have hr := ih (k - 1) (a.drop (2 * len)) (by rw [List.length_drop]; omega)
    simp only [inttLayer, List.length_append, List.length_zipWith, List.length_take, List.length_drop, hr]
    omega

/-- The forward transform of 256 coefficients has 256 coefficients. -/
theorem nttInts_length {a : List Int} (h : a.length = 256) : (nttInts a).length = 256 := by
  have step : ∀ (ls : List Nat), (∀ l ∈ ls, 128 / l * (2 * l) ≤ 256) → ∀ a : List Int, a.length = 256 →
      (ls.foldl (fun a len => nttLayer len (128 / len) (128 / len) a) a).length = 256 := by
    intro ls
    induction ls with
    | nil => exact fun _ _ h => h
    | cons l ls ih =>
      intro hl a h
      refine ih (fun m hm => hl m (List.mem_cons_of_mem _ hm)) _ ?_
      rw [nttLayer_length _ _ _ _ (by rw [h]; exact hl l List.mem_cons_self), h]
  exact step _ (by decide) a h

/-- The inverse transform of 256 coefficients has 256 coefficients. -/
theorem inttInts_length {a : List Int} (h : a.length = 256) : (inttInts a).length = 256 := by
  have step : ∀ (ls : List Nat), (∀ l ∈ ls, 128 / l * (2 * l) ≤ 256) → ∀ a : List Int, a.length = 256 →
      (ls.foldl (fun a len => inttLayer len (128 / len) (256 / len - 1) a) a).length = 256 := by
    intro ls
    induction ls with
    | nil => exact fun _ _ h => h
    | cons l ls ih =>
      intro hl a h
      refine ih (fun m hm => hl m (List.mem_cons_of_mem _ hm)) _ ?_
      rw [inttLayer_length _ _ _ _ (by rw [h]; exact hl l List.mem_cons_self), h]
  rw [inttInts, List.length_map]
  exact step [1, 2, 4, 8, 16, 32, 64, 128] (by decide) a h

/-- Lane `j` of a forward transform. -/
theorem nttRing_getElem (v : RingElement) (j : Nat) (hj : j < 256) :
    ((nttRing v)[j]).toInt = wrap32 ((nttInts (ints v))[j]'(by rw [nttInts_length (ints_length v)]; exact hj)) := by
  simp only [nttRing, ringOfInts_getElem (nttInts_length (ints_length v)) j hj]
  exact coeff_toInt _

/-- Lane `j` of an inverse transform. -/
theorem inttRing_getElem (v : RingElement) (j : Nat) (hj : j < 256) :
    ((inttRing v)[j]).toInt = wrap32 ((inttInts (ints v))[j]'(by rw [inttInts_length (ints_length v)]; exact hj)) := by
  simp only [inttRing, ringOfInts_getElem (inttInts_length (ints_length v)) j hj]
  exact coeff_toInt _

/-- `QINV` is the inverse of `q` modulo `2^32` (R5). -/
theorem qinv_mul_q : qinv * Config.q % 4294967296 = 1 := by decide

/-- Every zeta is below `q / 2` in magnitude (R91). -/
theorem zeta_bound (k : Nat) : -4190208 ≤ zeta k ∧ zeta k ≤ 4190208 := by
  have h : ∀ z ∈ zetas, -4190208 ≤ z ∧ z ≤ 4190208 := by decide +kernel
  simp only [zeta, List.getD_eq_getElem?_getD]
  cases hz : zetas[k]? with
  | none => simp
  | some z => exact h z (List.mem_of_getElem? hz)

/-- Zeta `k` is the Montgomery form of `1753` to the power `brv8 k` (R91). -/
theorem zeta_formula : ∀ k < 256, 1 ≤ k → (zeta k - 2 ^ 32 * 1753 ^ brv8 k) % 8380417 = 0 := by decide +kernel

/-- `1753` is a primitive 512th root of unity modulo `q` (R5). -/
theorem root_of_unity : (1753 ^ 256 + 1 : Int) % 8380417 = 0 := by decide +kernel

end Sys2Proof.Machine
end

