-- ==== Sys2Proof/Machine/Assembly.lean ====
section
/-! DEFINITION. The assembly form of a command and the pseudo-commands (30_encoding.md R61, R62): text to a command, and
by `encode` to its word. Nothing of the machine reads it. -/

namespace Sys2Proof.Machine

/-- A space or a tabulator. -/
def isBlank (k : Char) : Bool := k == ' ' || k == '\t'

/-- Blanks at both ends removed. -/
def trimBlanks (l : List Char) : List Char := ((l.dropWhile isBlank).reverse.dropWhile isBlank).reverse

/-- The parts of a text between commas. -/
def commaParts : List Char → List (List Char)
  | [] => [[]]
  | k :: l =>
    if k == ',' then [] :: commaParts l
    else
      match commaParts l with
      | [] => [[k]]
      | w :: ws => (k :: w) :: ws

/-- A digit, hexadecimal ones in lower case. -/
def digitValue (k : Char) : Option Nat :=
  if '0' ≤ k ∧ k ≤ '9' then some (k.toNat - 48) else if 'a' ≤ k ∧ k ≤ 'f' then some (k.toNat - 87) else none

/-- A number in base `b`, after the digits read so far. -/
def numberFrom (b acc : Nat) : List Char → Option Nat
  | [] => some acc
  | k :: l =>
    match digitValue k with
    | some d => if d < b then numberFrom b (b * acc + d) l else none
    | none => none

/-- A number of at least one digit. -/
def numberOf (b : Nat) (l : List Char) : Option Nat := if l.isEmpty then none else numberFrom b 0 l

/-- A register: `p` and its decimal number `0 .. 15` (R61). -/
def registerOf : List Char → Option PReg
  | 'p' :: l =>
    match numberOf 10 l with
    | some n => if n < 16 then some (Fin.ofNat 16 n) else none
    | none => none
  | _ => none

/-- An address: decimal, or hexadecimal with `0x`, in `0 .. 65535` (R61). -/
def addressOf (l : List Char) : Option Nat :=
  let n := match l with
    | '0' :: 'x' :: h => numberOf 16 h
    | _ => numberOf 10 l
  n.filter addrFits

/-- No operand. -/
def asmZ (i : Instr) : List (List Char) → Option Instr
  | [] => some i
  | _ => none

/-- One register. -/
def asmS (f : PReg → Instr) : List (List Char) → Option Instr
  | [d] => (registerOf d).map f
  | _ => none

/-- Two registers. -/
def asmP2 (f : PReg → PReg → Instr) : List (List Char) → Option Instr
  | [d, a] => (registerOf d).bind fun d => (registerOf a).map (f d)
  | _ => none

/-- Three registers. -/
def asmP3 (f : PReg → PReg → PReg → Instr) : List (List Char) → Option Instr
  | [d, a, b] => (registerOf d).bind fun d => (registerOf a).bind fun a => (registerOf b).map (f d a)
  | _ => none

/-- A register and an address. -/
def asmM (f : PReg → Nat → Instr) : List (List Char) → Option Instr
  | [r, n] => (registerOf r).bind fun r => (addressOf n).map (f r)
  | _ => none

/-- A transform with two operands, or with the one that is both (R62). -/
def asmTransform (f : PReg → PReg → Instr) (ops : List (List Char)) : Option Instr :=
  match ops with
  | [_] => asmS (fun d => f d d) ops
  | _ => asmP2 f ops

/-- The command of a mnemonic in lower case and its operands (R57, R61), or of a pseudo-command (R62). -/
def assembleParts (m : String) (ops : List (List Char)) : Option Instr :=
  match m with
  | "nop" => asmZ .nop ops
  | "clrerr" => asmZ .clrerr ops
  | "zeroize" => asmZ .zeroize ops
  | "ldraw" => asmM .ldraw ops
  | "straw" => asmM .straw ops
  | "pmov" => asmP2 .pmov ops
  | "pred" => asmP2 .pred ops
  | "pcaddq" => asmP2 .pcaddq ops
  | "ntt" => asmTransform .ntt ops
  | "intt" => asmTransform .intt ops
  | "p2rhi" => asmP2 .p2rhi ops
  | "p2rlo" => asmP2 .p2rlo ops
  | "dechi" => asmP2 .dechi ops
  | "declo" => asmP2 .declo ops
  | "mkhint" => asmP3 .mkhint ops
  | "usehint" => asmP3 .usehint ops
  | "sampu" => asmS .sampu ops
  | "sampe" => asmS .sampe ops
  | "sampg" => asmS .sampg ops
  | "sampc" => asmS .sampc ops
  | "padd" => asmP3 .padd ops
  | "psub" => asmP3 .psub ops
  | "pwmul" => asmP3 .pwmul ops
  | "pwmac" => asmP3 .pwmac ops
  | "pkt1" => asmM .pkt1 ops
  | "pkt0" => asmM .pkt0 ops
  | "pketa" => asmM .pketa ops
  | "pkz" => asmM .pkz ops
  | "pkw1" => asmM .pkw1 ops
  | "upt1" => asmM .upt1 ops
  | "upt0" => asmM .upt0 ops
  | "upeta" => asmM .upeta ops
  | "upz" => asmM .upz ops
  | "upw1" => asmM .upw1 ops
  | "hintenc" => asmM .hintenc ops
  | "hintdec" => asmM .hintdec ops
  | "pzero" => asmS (fun d => .psub d d d) ops
  | "pdbl" => asmP2 (fun d a => .padd d a a) ops
  | _ => none

/-- One line of assembly (R61): a comment starts at `#`; the mnemonic, then the operands with commas between. -/
def assemble (line : String) : Option Instr :=
  let text := trimBlanks ((line.toList.takeWhile (· != '#')).map Char.toLower)
  let rest := trimBlanks (text.dropWhile fun k => !isBlank k)
  assembleParts (String.ofList (text.takeWhile fun k => !isBlank k))
    (if rest.isEmpty then [] else (commaParts rest).map trimBlanks)

end Sys2Proof.Machine
end

