-- ==== Sys2Proof/Tests/Slice0.lean ====
section
/-! SUPPORT. The model's own tests: the WellFormed smoke, every command's word, one step of every command on values of
95_test_vectors.md, and for every statement with hypotheses a state that meets them. -/

namespace Sys2Proof.Tests

set_option Elab.async false

open Sys2Proof.Machine

/-! ### Helpers -/

/-- The reset state with the given registers; missing coefficients are 0. -/
def regs (l : List (PReg × List Int)) : State := l.foldl (fun s rv => s.setPoly rv.1 (ringOfInts rv.2)) State.reset

/-- The state with the given bytes of `BUF`. -/
def bytesAt (addr : Nat) (bs : List Nat) (s : State) : State := s.storeBytes addr (bs.map (BitVec.ofNat 8))

/-- The state in which the stream begins with the given bytes. -/
def stream (bs : List Nat) (s : State) : State := s.setXs ⟨bs.map (BitVec.ofNat 8), 0, 0⟩

/-- The first `n` bytes of stream T (95_test_vectors.md section 2.5). -/
def streamT (n : Nat) : List Nat := (List.range n).map fun k => (151 * k + 43) % 256

/-- The state after one step in which the host writes `w` to `CMD`; the reset state should the machine stop. -/
def after (w : Nat) (s : State) : State :=
  match step (s.withFetchWord 32 w) with
  | .next t => t
  | .fault _ => State.reset
  | .refused _ => State.reset

/-- Coefficients `k .. k + n - 1` of register `r`. -/
def coeffs (r : PReg) (k n : Nat) (s : State) : List Int := ((ints s.p[r]).drop k).take n

/-- The places of the coefficients of register `r` that equal `v`. -/
def places (v : Int) (r : PReg) (s : State) : List Nat :=
  ((List.range 256).zip (ints s.p[r])).filterMap fun jc => if jc.2 = v then some jc.1 else none

/-- `n` bytes of `BUF` at `addr`. -/
def bytesOfBuf (addr n : Nat) (s : State) : List Nat := (s.buf.readBytes addr n).map BitVec.toNat

/-- `STATUS`, `FAULT`, `FAULTCMD` and `CMDCNT`. -/
def control (s : State) : List Nat := [1, 2, 3, 4].map fun k => (s.controlWord k).toNat

/-! ### WellFormed: an ill-formed term for each check -/

theorem test_address_out_of_field_is_refused :
    [Instr.ldraw 0 65536, .straw 0 65536, .pkt1 0 65536, .pkt0 0 65536, .pketa 0 65536, .pkz 0 65536, .pkw1 0 65536,
     .upt1 0 65536, .upt0 0 65536, .upeta 0 65536, .upz 0 65536, .upw1 0 65536, .hintenc 0 65536,
     .hintdec 0 65536].map Instr.wellFormed = List.replicate 14 false := by decide

theorem test_address_in_field_is_accepted :
    [Instr.ldraw 0 65535, .straw 0 65535, .pkt1 0 65535, .pkt0 0 65535, .pketa 0 65535, .pkz 0 65535, .pkw1 0 65535,
     .upt1 0 65535, .upt0 0 65535, .upeta 0 65535, .upz 0 65535, .upw1 0 65535, .hintenc 0 65535,
     .hintdec 0 65535].map Instr.wellFormed = List.replicate 14 true := by decide

/-! ### Words written from 30_encoding.md: opcode, pd, pa, pb, addr in their places -/

theorem test_decode_control :
    decode 0b00000000_000000000000000000000000 = .instr .nop ∧
    decode 0b00000001_000000000000000000000000 = .instr .clrerr ∧
    decode 0b00000010_000000000000000000000000 = .instr .zeroize ∧
    decode 0b00001000_1010_0000_0001110000000001 = .instr (.ldraw 10 0x1C01) ∧
    decode 0b00001001_1111_0000_0001110000000000 = .instr (.straw 15 0x1C00) := by decide

theorem test_decode_reduce_and_transform :
    decode 0b00010000_0101_0000_0000000000000000 = .instr (.pmov 5 0) ∧
    decode 0b00010001_0001_0010_0000000000000000 = .instr (.pred 1 2) ∧
    decode 0b00010010_1000_0100_0000000000000000 = .instr (.pcaddq 8 4) ∧
    decode 0b00011000_0001_0000_0000000000000000 = .instr (.ntt 1 0) ∧
    decode 0b00011001_0010_1111_0000000000000000 = .instr (.intt 2 15) := by decide

theorem test_decode_rounding :
    decode 0b00100000_0001_0011_0000000000000000 = .instr (.p2rhi 1 3) ∧
    decode 0b00100001_0010_0000_0000000000000000 = .instr (.p2rlo 2 0) ∧
    decode 0b00100010_1001_0110_0000000000000000 = .instr (.dechi 9 6) ∧
    decode 0b00100011_0010_1011_0000000000000000 = .instr (.declo 2 11) ∧
    decode 0b00100100_0010_0000_0001_000000000000 = .instr (.mkhint 2 0 1) ∧
    decode 0b00100101_1100_0011_1010_000000000000 = .instr (.usehint 12 3 10) := by decide

theorem test_decode_sampler_and_pointwise :
    decode 0b00110000_0111_00000000000000000000 = .instr (.sampu 7) ∧
    decode 0b00110001_1000_00000000000000000000 = .instr (.sampe 8) ∧
    decode 0b00110010_0001_00000000000000000000 = .instr (.sampg 1) ∧
    decode 0b00110011_0011_00000000000000000000 = .instr (.sampc 3) ∧
    decode 0b01000000_0110_0100_0101_000000000000 = .instr (.padd 6 4 5) ∧
    decode 0b01000001_0010_0001_1000_000000000000 = .instr (.psub 2 1 8) ∧
    decode 0b01000010_0101_0011_0000_000000000000 = .instr (.pwmul 5 3 0) ∧
    decode 0b01000011_0100_0001_0011_000000000000 = .instr (.pwmac 4 1 3) := by decide

theorem test_decode_packing_and_hint :
    decode 0b01010000_0111_0000_0000000100000000 = .instr (.pkt1 7 0x100) ∧
    decode 0b01010001_1000_0000_0000001100000000 = .instr (.pkt0 8 0x300) ∧
    decode 0b01010010_0000_0000_0000000000000001 = .instr (.pketa 0 1) ∧
    decode 0b01010011_0011_0000_0000010000000000 = .instr (.pkz 3 0x400) ∧
    decode 0b01010100_0101_0000_1000000000000000 = .instr (.pkw1 5 0x8000) ∧
    decode 0b01011000_0000_0000_0000000000000010 = .instr (.upt1 0 2) ∧
    decode 0b01011001_0001_0000_0000000000000000 = .instr (.upt0 1 0) ∧
    decode 0b01011010_0010_0000_0100000000000000 = .instr (.upeta 2 0x4000) ∧
    decode 0b01011011_0001_0000_1111111111111111 = .instr (.upz 1 0xFFFF) ∧
    decode 0b01011100_1001_0000_0000000010000000 = .instr (.upw1 9 0x80) ∧
    decode 0b01100000_0100_0000_0010000000000000 = .instr (.hintenc 4 0x2000) ∧
    decode 0b01100001_1000_0000_0000000100000000 = .instr (.hintdec 8 0x100) := by decide

/-- The illegal words of 95_test_vectors.md section 2.1. -/
theorem test_decode_rejects :
    [0x00000001, 0x10500001, 0x24201001, 0x30010000, 0x08010000, 0x60080053].map decode =
      List.replicate 6 (.reject .reservedBit) ∧
    [0x03000000, 0x5D000000, 0x62000000, 0xFFFFFFFF].map decode = List.replicate 4 (.reject .unusedOpcode) := by
  decide

/-- No word satisfies two rows of the opcode map: two rows differ in a bit that both masks cover. -/
theorem test_rows_disjoint :
    opcodeRows.Pairwise fun r q => r.pattern &&& (r.mask &&& q.mask) ≠ q.pattern &&& (r.mask &&& q.mask) := by
  decide +kernel

theorem test_encode_words :
    encode (.pmov 5 0) = 0x10500000 ∧ encode (.mkhint 2 0 1) = 0x24201000 ∧ encode (.sampc 3) = 0x33300000 ∧
    encode (.upz 1 0xFFFF) = 0x5B10FFFF ∧ encode (.hintdec 8 0x100) = 0x61800100 := by decide

/-- The assembly lines of 30_encoding.md section 5 and 95_test_vectors.md section 2.1. -/
theorem test_assemble :
    (assemble "pkz p3, 0x0400").map encode = some 0x53300400 ∧ (assemble "STRAW P15,7168 # last").map encode =
      some 0x09F01C00 ∧ (assemble "mkhint p2, p0, p1").map encode = some 0x24201000 ∧
    (assemble "clrerr").map encode = some 0x01000000 ∧ assemble "sampc p16" = none ∧ assemble "upz p1, 65536" = none := by
  decide +kernel

/-- The pseudo-commands of R62. -/
theorem test_assemble_pseudo :
    assemble "pzero p3" = some (.psub 3 3 3) ∧ assemble "pdbl p1, p2" = some (.padd 1 2 2) ∧
    assemble "ntt p4" = some (.ntt 4 4) ∧ assemble "intt p4" = some (.intt 4 4) := by decide +kernel

/-! ### The constants of 41_reduce.md and 42_ntt.md -/

/-- The checks of R91; that every entry follows R91's formula is `zeta_formula` and `zeta_bound` of
Laws/Transform.lean. -/
theorem test_zetas : zetas.length = 256 ∧ zetas.sum = -23867686 ∧ zeta 1 = 25847 ∧ zeta 128 = 2091667 := by
  decide +kernel

theorem test_montRed :
    [1, -1, 2 ^ 32, 8380417, 4193792, 25847, 2 ^ 31 * 8380417, -(2 ^ 31) * 8380417, 2 ^ 62,
      (-(2 ^ 31)) * (2 ^ 31 - 1)].map montRed =
    [-114592, 114592, 1, 0, 1, -3572223, 8380417, 0, 1073741824, -1069551615] := by decide +kernel

theorem test_reduce32_caddq :
    [8380417, -8380418, 4194303, 4194304, -4194304, -4194305, 2143289343, 2143289344, 2147483647, -2147483648].map
      reduce32 = [0, -1, 4194303, -4186113, -4194304, 4186112, 6283008, -2097408, 2096895, -2096896] ∧
    [-1, 0, -8380417, -8380418, 8380417, -2147483648].map caddq = [8380416, 0, 0, -1, 8380417, -2139103231] := by
  decide +kernel

/-! ### Control and raw transfer -/

theorem test_nop : control (after 0x00000000 State.reset) = [0, 0, 0, 1] := by decide +kernel

/-- P3 steps 7 and 8: the word next to CLRERR is dropped, CLRERR clears the fault. -/
theorem test_clrerr :
    control (after 0x01000001 (State.reset.raiseFault 0x60900200 .regspan 0)) = [2, 5, 0x60900200, 0] ∧
    control (after 0x01000000 (State.reset.raiseFault 0x60900200 .regspan 0)) = [0, 0, 0, 1] := by decide +kernel

theorem test_zeroize :
    let t := after 0x02000000 ((((bytesAt 5 [7] (regs [(3, [9])])).setHrej true).setXofcnt 137).complete)
    control t = [0, 0, 0, 2] ∧ coeffs 3 0 1 t = [0] ∧ bytesOfBuf 5 1 t = [0] ∧ t.xofcnt = 0 := by decide +kernel

theorem test_ldraw :
    coeffs 0 0 3 (after 0x08000000 (bytesAt 0 [255, 255, 255, 255, 1, 0, 128, 0] State.reset)) = [-1, 8388609, 0] := by
  decide +kernel

theorem test_ldraw_bound :
    control (after 0x08001C00 State.reset) = [0, 0, 0, 1] ∧
    control (after 0x08001C01 State.reset) = [2, 2, 0x08001C01, 0] := by decide +kernel

theorem test_straw :
    bytesOfBuf 0x400 5 (after 0x09200400 (regs [(2, [-4186625])])) = [0xFF, 0x1D, 0xC0, 0xFF, 0] := by decide +kernel

/-! ### Reduction and transforms -/

theorem test_pmov : coeffs 5 0 2 (after 0x10500000 (regs [(0, [8380416, -2])])) = [8380416, -2] := by decide +kernel

theorem test_pred : coeffs 1 0 2 (after 0x11100000 (regs [(0, [8380416])])) = [-1, 0] := by decide +kernel

theorem test_pcaddq : coeffs 1 0 2 (after 0x12110000 (regs [(1, [-1])])) = [8380416, 0] := by decide +kernel

/-- NTT of X. -/
theorem test_ntt :
    let t := after 0x18100000 (regs [(0, [0, 1])])
    coeffs 1 0 8 t = [1753, -1753, -1935420, 1935420, -2659525, 2659525, -1455890, 1455890] ∧
    coeffs 1 254 2 t = [-731434, 731434] ∧ coeffs 0 0 2 t = [0, 1] := by decide +kernel

/-- INTT of 1. -/
theorem test_intt :
    let t := after 0x19100000 (regs [(0, [1])])
    coeffs 1 0 6 t = [16382, -1644522, -1291704, 3608627, 1484049, 2003924] ∧
    coeffs 1 128 1 t = [-294725] ∧ coeffs 1 255 1 t = [-3576395] := by decide +kernel

/-! ### Rounding -/

theorem test_p2rhi :
    coeffs 1 0 9 (after 0x20100000 (regs [(0, [4096, 4097, 8191, 12289, 8380416, -1, -4096, 2147483647,
      -2147483648])])) = [0, 1, 1, 2, 1023, 0, -1, 262144, -262144] := by decide +kernel

theorem test_p2rlo :
    coeffs 2 0 9 (after 0x21200000 (regs [(0, [4096, 4097, 8191, 12289, 8380416, -1, -4096, 2147483647,
      -2147483648])])) = [4096, -4095, -1, -4095, 0, -1, 4096, -1, 0] := by decide +kernel

theorem test_dechi :
    coeffs 1 0 10 (after 0x22100000 (regs [(0, [261888, 261889, 785665, 4190208, 8118528, 8118529, 8380416, 8380417, -1,
      2147483647])])) = [0, 1, 2, 8, 15, 0, 0, 0, 0, 4] := by decide +kernel

theorem test_declo :
    coeffs 2 0 10 (after 0x23200000 (regs [(0, [261888, 261889, 785665, 4190208, 8118528, 8118529, 8380416, 8380417, -1,
      2147483647])])) = [261888, -261887, -261887, 0, 261888, -261888, -1, 0, -1, 1791] := by decide +kernel

theorem test_mkhint :
    coeffs 2 0 8 (after 0x24201000 (regs [(0, [0, 261888, 261889, -261887, -261888, -261888, -261889, -2147483648]),
      (1, [0, 3, 3, 5, 0, 1, 0, 0])])) = [0, 0, 1, 0, 0, 1, 1, 1] := by decide +kernel

theorem test_usehint :
    coeffs 2 0 13 (after 0x25201000 (regs [(0, [0, 0, 1, 261888, 261889, 523776, 523777, 7856640, 7856641, 8118528,
      8118529, 523777, 523777]), (1, [0, 1, 1, 1, 1, 1, 1, 1, 1, 1, 1, 7, 0])])) =
      [0, 15, 1, 1, 0, 0, 2, 14, 0, 0, 15, 2, 1] := by decide +kernel

/-! ### Samplers, on stream T -/

theorem test_sampu :
    let t := after 0x30000000 (stream (streamT 771) State.reset)
    coeffs 0 0 8 t = [5882411, 2000880, 6507701, 2625914, 7198271, 3316484, 7823561, 3941774] ∧
    coeffs 0 254 2 t = [1375590, 5882411] ∧ (ints t.p[0]).sum = 1071241562 ∧ t.xofcnt = 771 ∧ t.xs = ⟨[], 0, 0⟩ := by
  decide +kernel

/-- Chunks `00 E0 7F`, `01 E0 7F`, `01 E0 FF`, `FF FF FF`, `00 00 80`: two of the five are accepted. -/
theorem test_sampu_chunks :
    let t := after 0x30000000 (stream ([0, 0xE0, 0x7F, 1, 0xE0, 0x7F, 1, 0xE0, 0xFF, 255, 255, 255, 0, 0, 0x80, 1, 2, 3] ++
      List.replicate 759 0) State.reset)
    coeffs 0 0 4 t = [8380416, 0, 197121, 0] ∧ t.xofcnt = 777 := by decide +kernel

theorem test_sampe :
    let t := after 0x31000000 (stream (streamT 137) State.reset)
    coeffs 0 0 16 t = [1, 0, 0, 0, -2, 2, 2, 0, -1, -2, 1, 2, 1, 0, -2, -1] ∧ coeffs 0 252 4 t = [-1, 0, 0, -1] ∧
    (ints t.p[0]).sum = -4 ∧ t.xofcnt = 137 ∧ t.xs = ⟨[], 0, 0⟩ := by decide +kernel

/-- Bytes `50`, `E9`, `F3`, `FF`, `4A`. -/
theorem test_sampe_nibbles :
    coeffs 0 0 8 (after 0x31000000 (stream ([0x50, 0xE9, 0xF3, 0xFF, 0x4A] ++ List.replicate 125 0) State.reset)) =
      [2, 2, -2, -2, -1, 2, -2, 2] := by decide +kernel

theorem test_sampg :
    let t := after 0x32000000 (stream (streamT 640) State.reset)
    coeffs 0 0 4 t = [-115243, -32517, -308510, 20940] ∧ coeffs 0 254 2 t = [110664, 440354] ∧
    (ints t.p[0]).sum = 2054288 ∧ t.xofcnt = 640 := by decide +kernel

theorem test_sampc :
    let t := after 0x33000000 (stream (streamT 76) State.reset)
    places (-1) 0 t = [4, 5, 11, 12, 17, 18, 24, 25, 31, 51, 63, 71, 77, 96,
      97, 104, 122, 123, 129, 136, 143, 162, 175, 182, 202, 208, 209, 222, 228, 235] ∧
    places 1 0 t = [37, 38, 44, 50, 57, 58, 64, 70, 83, 84, 90, 103, 109,
      110, 116, 117, 130, 142, 149, 155, 156, 163, 168, 169, 176, 188, 189, 195, 201, 215] ∧ t.xofcnt = 76 := by
  decide +kernel

/-- All bytes 0: `c[0] = 1`, `c[196] = 0`, `c[197..255] = 1`. -/
theorem test_sampc_zeros :
    let t := after 0x33000000 (stream (List.replicate 68 0) State.reset)
    coeffs 0 0 256 t = 1 :: List.replicate 196 0 ++ List.replicate 59 1 ∧ t.xofcnt = 68 := by decide +kernel

/-! ### Point-wise -/

theorem test_padd :
    coeffs 2 0 3 (after 0x40201000 (regs [(0, [8380416, 2147483647]), (1, [5, 1])])) = [8380421, -2147483648, 0] := by
  decide +kernel

theorem test_psub :
    coeffs 2 0 3 (after 0x41201000 (regs [(0, [3, -2147483648]), (1, [5, 1])])) = [-2, 2147483647, 0] := by
  decide +kernel

theorem test_pwmul :
    coeffs 2 0 5 (after 0x42201000 (regs [(0, [4193792, 1, 8380416, 0, -2147483648]),
      (1, [4193792, 1, 8380416, 2147483647, -2147483648])])) = [4193792, -114592, -114592, 0, 1073741824] := by
  decide +kernel

theorem test_pwmac :
    coeffs 2 0 3 (after 0x43201000 (regs [(2, [10, 2147483647]), (0, [4193792, 4193792]), (1, [4193792, 4193792])])) =
      [4193802, -2143289857, 0] := by decide +kernel

/-- The accumulator is also both factors: all three are read first. -/
theorem test_pwmac_same_register :
    coeffs 0 0 1 (after 0x43000000 (regs [(0, [4193792])])) = [8387584] := by decide +kernel

/-! ### Packing -/

theorem test_pkt1 :
    bytesOfBuf 0 6 (after 0x50000000 (regs [(0, [682, 341, 1023, 1])])) = [0xAA, 0x56, 0xF5, 0x7F, 0, 0] := by
  decide +kernel

/-- `P[0][17] = -1` and `P[0][200] = 5000`: the lowest index is reported. -/
theorem test_pkt1_range :
    control (after 0x50000000 (regs [(0, List.replicate 17 0 ++ [-1] ++ List.replicate 182 0 ++ [5000])])) =
      [2, 0x1103, 0x50000000, 0] := by decide +kernel

theorem test_pkt0 :
    bytesOfBuf 0x200 13 (after 0x51100200 (regs [(1, [4096, -4095, 0, 1, -1, 4095, -4094, 100])])) =
      [0x00, 0xE0, 0xFF, 0x03, 0xC0, 0xFF, 0x17, 0x00, 0x03, 0x80, 0xFF, 0xE7, 0x7C] := by decide +kernel

theorem test_pkt0_range : control (after 0x51100000 (regs [(1, [-4096])])) = [2, 3, 0x51100000, 0] := by
  decide +kernel

theorem test_pketa :
    bytesOfBuf 0 4 (after 0x52200000 (regs [(2, [2, 1, 0, -1, -2, 2, -2, 0])])) = [0x88, 0x46, 0x50, 0x92] := by
  decide +kernel

theorem test_pketa_range :
    control (after 0x52200000 (regs [(2, [-5])])) = [0, 0, 0, 1] ∧
    control (after 0x52200000 (regs [(2, [-6])])) = [2, 3, 0x52200000, 0] := by decide +kernel

theorem test_pkz :
    bytesOfBuf 0x400 10 (after 0x53300400 (regs [(3, [0, 1, -1, 131072])])) =
      [0x00, 0x00, 0xF8, 0xFF, 0x7F, 0x01, 0x00, 0x08, 0x00, 0x60] := by decide +kernel

theorem test_pkz_range : control (after 0x53300000 (regs [(3, [524288, -524288])])) = [2, 0x103, 0x53300000, 0] := by
  decide +kernel

theorem test_pkw1 : bytesOfBuf 0 4 (after 0x54400000 (regs [(4, [0, 15, 1, 2, 9, 10])])) = [0xF0, 0x21, 0xA9, 0] := by
  decide +kernel

theorem test_pkw1_range : control (after 0x54400000 (regs [(4, [16])])) = [2, 3, 0x54400000, 0] := by decide +kernel

theorem test_upt1 :
    coeffs 0 0 5 (after 0x58000000 (bytesAt 0 [0x01, 0x08, 0x30, 0x00, 0x01] State.reset)) = [1, 2, 3, 4, 0] := by
  decide +kernel

theorem test_upt0 :
    coeffs 1 0 9 (after 0x59100000 (bytesAt 0 [0x00, 0xE0, 0xFF, 0x03, 0xC0, 0xFF, 0x17, 0x00, 0x03, 0x80, 0xFF, 0xE7,
      0x7C] State.reset)) = [4096, -4095, 0, 1, -1, 4095, -4094, 100, 4096] := by decide +kernel

theorem test_upeta :
    coeffs 2 0 9 (after 0x5A200000 (bytesAt 0 [0x88, 0xC6, 0xFA] State.reset)) = [2, 1, 0, -1, -2, -3, -4, -5, 2] := by
  decide +kernel

theorem test_upz :
    coeffs 3 0 5 (after 0x5B300000 (bytesAt 0 [0x00, 0x00, 0xF8, 0xFF, 0x7F, 0x01, 0x00, 0x08, 0x00, 0x60] State.reset)) =
      [0, 1, -1, 131072, 524288] := by decide +kernel

theorem test_upz_bound : control (after 0x5B10FFFF State.reset) = [2, 2, 0x5B10FFFF, 0] := by decide +kernel

theorem test_upw1 :
    coeffs 4 0 7 (after 0x5C400000 (bytesAt 0 [0xF0, 0x21, 0xA9] State.reset)) = [0, 15, 1, 2, 9, 10, 0] := by
  decide +kernel

/-! ### Hint vectors -/

/-- Row 0 has ones at 3 and 200, row 2 at 0 (H1). -/
def hintH1 : State := regs [(0, List.replicate 3 0 ++ [1] ++ List.replicate 196 0 ++ [1]), (2, [1])]

/-- The bytes of H1 at `0x100`. -/
def bytesH1 : List Nat := [0x03, 0xC8] ++ List.replicate 73 0 ++ [2, 2, 3, 3, 3, 3, 3, 3]

theorem test_hintenc : bytesOfBuf 0x100 83 (after 0x60000100 hintH1) = bytesH1 := by decide +kernel

/-- H10: `RANGE` before `HINTCNT`; and a base above 8 before a bad address (R166). -/
theorem test_hintenc_order :
    control (after 0x60000000 (regs [(0, List.replicate 80 1), (2, List.replicate 5 0 ++ [2])])) =
      [2, 0x00020503, 0x60000000, 0] ∧
    control (after 0x60901FFF State.reset) = [2, 5, 0x60901FFF, 0] := by decide +kernel

/-- H2. -/
theorem test_hintdec :
    let t := after 0x61800100 (bytesAt 0x100 bytesH1 (State.reset.setHrej true))
    places 1 8 t = [3, 200] ∧ coeffs 10 0 2 t = [1, 0] ∧
    control t = [0, 0, 0, 1] := by decide +kernel

/-- H3 to H6: equal indices, a non-zero tail, a falling count, a count of 76: each rejects. -/
theorem test_hintdec_rejects :
    [(0x101, 0x03), (0x103, 0x01), (0x14C, 0x01), (0x152, 0x4C)].map (fun e =>
      control (after 0x61800100 (bytesAt e.1 [e.2] (bytesAt 0x100 bytesH1 State.reset)))) =
      List.replicate 4 [4, 0, 0, 1] := by decide +kernel

/-! ### Witnesses: states and operands that meet the hypotheses of a statement, clause by clause -/

/-- All coefficients of all registers equal to `v`. -/
def flat (v : Int) : State := { State.reset with p := Vector.replicate 16 (Vector.replicate 256 (coeff v)) }

/-- Every lane of such a state is `v`. -/
theorem flat_lane (v : Int) (h : -2147483648 ≤ v ∧ v < 2147483648) (r : PReg) (j : Fin 256) : (flat v).lane r j = v := by
  simp only [flat, State.lane, Fin.getElem_fin, Vector.getElem_replicate, coeff]
  rw [BitVec.toInt_ofInt_eq_self (by omega) (by simpa using h.1) (by simpa using h.2)]

/-- The reset state with the host's moves and, if given, a sampler in progress. -/
def hosting (ms : List HostMove) (r : Option Running) : State := { State.reset with host := ms, running := r }

/-- A SAMPU that has accepted nothing yet. -/
def startedSampu : Running := ⟨3, .uniform 0 [], 0⟩

theorem witness_DecodeOfEncode : (Instr.hintdec 15 65535).wellFormed = true ∧ Instr.nop.wellFormed = true := by decide

theorem witness_EncodeOfDecode : decode 0x5B10FFFF = .instr (.upz 1 0xFFFF) := by decide

theorem witness_CommandIffItsTableRowMatches :
    decode 0x24FFF000 = .instr (.mkhint 15 15 15) ∧
    (⟨"MKHINT", 0x24000000, 0xFF000FFF⟩ : OpcodeRow) ∈ opcodeRows ∧
    (⟨"MKHINT", 0x24000000, 0xFF000FFF⟩ : OpcodeRow).accepts 0x24FFF000 := by
  refine ⟨by decide, by decide, ?_⟩
  show (0x24FFF000 : Word) &&& 0xFF000FFF = 0x24000000
  decide

theorem witness_StepRunsTheWrittenCommand :
    ∃ s : State, s.running = none ∧ s.host = .write 0 4 (0x10500000 : Word).toNat :: [.reset] ∧
      decode 0x10500000 = .instr (.pmov 5 0) ∧ s.err = false :=
  ⟨hosting [.write 0 4 0x10500000, .reset] none, rfl, rfl, by decide, rfl⟩

theorem witness_StepRunsTheWrittenCommand_clrerr :
    ∃ s : State, s.running = none ∧ s.host = .write 0 4 (0x01000000 : Word).toNat :: [] ∧
      decode 0x01000000 = .instr .clrerr ∧ s.err = true :=
  ⟨(hosting [.write 0 4 0x01000000] none).raiseFault 0 .range 5, rfl, rfl, by decide, rfl⟩

theorem witness_IllegalWordRaisesIllegal :
    ∃ s : State, s.err = false ∧ s.running = none ∧ s.host = .write 0 4 (0x5D000000 : Word).toNat :: [] ∧
      ∀ r ∈ opcodeRows, ¬ r.accepts 0x5D000000 := by
  refine ⟨hosting [.write 0 4 0x5D000000] none, rfl, rfl, rfl, ?_⟩
  simp only [OpcodeRow.accepts]
  decide

theorem witness_CommandsAreDroppedWhileErrIsSet :
    ∃ s : State, s.err = true ∧ s.running = none ∧ s.host = .write 0 4 (0x01000001 : Word).toNat :: [] ∧
      (0x01000001 : Word) ≠ 0x01000000 :=
  ⟨(hosting [.write 0 4 0x01000001] none).raiseFault 0 .range 5, rfl, rfl, rfl, by decide⟩

theorem witness_ResetAbandonsTheRunningCommand :
    ∃ s : State, s.host = .reset :: [] ∧ s.running = some startedSampu := ⟨hosting [.reset] (some startedSampu), rfl, rfl⟩

/-- One command for each cause. -/
theorem witness_FaultsArePrecise :
    (∃ t, exec (.pkt1 0 7873) State.reset = .next t ∧ t.err = true) ∧
    (∃ t, exec (.pkw1 4 0) (regs [(4, [16])]) = .next t ∧ t.err = true) ∧
    (∃ t, exec (.hintenc 0 0) (regs [(0, List.replicate 76 1)]) = .next t ∧ t.err = true) ∧
    (∃ t, exec (.hintdec 9 0) State.reset = .next t ∧ t.err = true) ∧
    State.reset.err = false ∧ (regs [(4, [16])]).err = false ∧ (regs [(0, List.replicate 76 1)]).err = false :=
  ⟨⟨_, rfl, by decide +kernel⟩, ⟨_, rfl, by decide +kernel⟩, ⟨_, rfl, by decide +kernel⟩, ⟨_, rfl, by decide +kernel⟩,
    rfl, rfl, rfl⟩

theorem witness_OnlyBufferCommandsFault :
    ∃ t, State.reset.err = false ∧ bufferSpan (.ntt 1 0) = none ∧ exec (.ntt 1 0) State.reset = .next t ∧
      Instr.ntt 1 0 ≠ .clrerr := ⟨_, rfl, rfl, rfl, by decide⟩

/-- A command that completes, one that faults and a sampler that goes on. -/
theorem witness_CompletedCommandsAreCounted :
    (∃ t, exec .nop State.reset = .next t ∧ t.err = false ∧ t.busy = false) ∧
    (∃ t, exec (.ldraw 0 7169) State.reset = .next t ∧ t.err = true) ∧
    (∃ t, exec (.sampu 0) (stream (List.replicate 12288 255) State.reset) = .next t ∧ t.busy = true) ∧
    State.reset.running = none ∧ (stream (List.replicate 12288 255) State.reset).running = none :=
  ⟨⟨_, rfl, rfl, rfl⟩, ⟨_, rfl, rfl⟩, ⟨_, rfl, by decide +kernel⟩, rfl, rfl⟩

theorem witness_CommandsWriteOnlyTheirOwnState :
    ∃ t, exec (.straw 2 7168) State.reset = .next t ∧ mayWritePoly 2 (.straw 2 7168) = false ∧
      writesBuf (.ldraw 2 7168) = false ∧ bufferSpan (.straw 2 7168) = some (7168, 1024) ∧
      writesHrej (.straw 2 7168) = false ∧ isSampler (.straw 2 7168) = false ∧ Instr.straw 2 7168 ≠ .zeroize :=
  ⟨_, rfl, rfl, rfl, rfl, rfl, rfl, by decide⟩

/-- Idle with a command to come, and with a sampler in progress. -/
theorem witness_StepKeepsTheInvariant :
    (∃ s t : State, s.Inv ∧ step s = .next t ∧ s.running = none) ∧
    ∃ s t : State, s.Inv ∧ step s = .next t ∧ s.running = some startedSampu := by
  have hi : ∀ r, (r = none ∨ r = some startedSampu) → (hosting [.write 0 4 0] r).Inv := fun r h =>
    { buf_wf := Memory.wf_nil
      buf_range := fun _ h => absurd h List.not_mem_nil
      fault_ok := ⟨fun _ => ⟨rfl, rfl⟩, fun h => (by cases h), fun _ => rfl, (by decide : (0 : BitVec 12).toNat < 2048)⟩
      running_ok := by
        intro q hq
        rcases h with rfl | rfl
        · cases hq
        · cases hq
          exact ⟨rfl, rfl, by decide, fun _ hm => absurd hm List.not_mem_nil⟩ }
  exact ⟨⟨_, _, hi none (.inl rfl), rfl, rfl⟩, ⟨_, _, hi (some startedSampu) (.inr rfl), rfl, rfl⟩⟩

/-- The address bounds of the statements about LDRAW, STRAW, the packers and the hint commands, each at its largest
address. -/
theorem witness_address_bounds :
    7168 + 1024 ≤ 8192 ∧ 7872 + 32 * 10 ≤ 8192 ∧ 7776 + 32 * 13 ≤ 8192 ∧ 8096 + 32 * 3 ≤ 8192 ∧ 7552 + 32 * 20 ≤ 8192 ∧
    8064 + 32 * 4 ≤ 8192 ∧ 8109 + 83 ≤ 8192 := by decide

theorem witness_RawTransfersAreInverse :
    (∃ t u, exec (.straw 2 7168) State.reset = .next t ∧ exec (.ldraw 3 7168) t = .next u) ∧
    ∃ t u, exec (.ldraw 2 7168) State.reset = .next t ∧ exec (.straw 2 7168) t = .next u :=
  ⟨⟨_, _, rfl, rfl⟩, ⟨_, _, rfl, rfl⟩⟩

theorem witness_OutOfRangeAddressRaisesAddr :
    (bufferSpan (.ldraw 0 7169) = some (7169, 1024) ∧ 8192 < 7169 + 1024 ∧
      ∀ r, groupBase (.ldraw 0 7169) = some r → r.val ≤ 8) ∧
    bufferSpan (.hintdec 8 65535) = some (65535, 83) ∧ 8192 < 65535 + 83 ∧
      ∀ r, groupBase (.hintdec 8 65535) = some r → r.val ≤ 8 :=
  ⟨⟨rfl, by decide, fun _ h => (by cases h)⟩, rfl, by decide, fun _ h => (by cases h; decide)⟩

/-- The ends of the domain, and the ends of the range in which the result lies in `(-q, q)`. -/
theorem witness_MontRedContract :
    -(2 ^ 62) ≤ (2 ^ 62 : Int) ∧ (2 ^ 62 : Int) ≤ 2 ^ 62 ∧ -(2 ^ 62) ≤ (-(2 ^ 62) : Int) ∧
    -(2 ^ 62) ≤ (-(2 ^ 31) * 8380417 : Int) ∧ -(2 ^ 31) * 8380417 ≤ (-(2 ^ 31) * 8380417 : Int) ∧
    (2 ^ 31 * 8380417 - 1 : Int) < 2 ^ 31 * 8380417 ∧ (2 ^ 31 * 8380417 - 1 : Int) ≤ 2 ^ 62 := by decide

theorem witness_NttGrowthBound :
    (0 : Int) ≤ 2080440319 ∧ (2080440319 : Int) ≤ 2080440319 ∧ ∀ r j, |(flat 2080440319).lane r j| ≤ 2080440319 := by
  refine ⟨by decide, by decide, fun r j => ?_⟩
  rw [flat_lane _ (by decide)]
  decide

theorem witness_NttEvaluatesAtTheOddPowers : ∀ r j, |(flat (-2080440319)).lane r j| ≤ 2080440319 := by
  intro r j
  rw [flat_lane _ (by decide)]
  decide

theorem witness_InttUndoesNtt : ∀ r j, |(flat 2080440319).lane r j| ≤ 2080440319 :=
  witness_NttGrowthBound.2.2

theorem witness_InttInterpolates : ∀ r j, |(flat 8380416).lane r j| < 8380417 := by
  intro r j
  rw [flat_lane _ (by decide)]
  decide

theorem witness_TransformsMultiplyInTheRing :
    (0 : PReg) ≠ 1 ∧ (∀ j, |(flat (-8380416)).lane 0 j| < 8380417) ∧ ∀ j, |(flat (-8380416)).lane 1 j| < 8380417 := by
  refine ⟨by decide, fun j => ?_, fun j => ?_⟩ <;> rw [flat_lane _ (by decide)] <;> decide

/-- A stream that begins with `m` equal bytes. -/
theorem byteAt_replicate (v : Byte) (m k : Nat) (h : k < m) : (⟨List.replicate m v, 0, 0⟩ : Xof).byteAt k = v := by
  have h' : k < (List.replicate m v).length := by rw [List.length_replicate]; exact h
  unfold Xof.byteAt
  rw [dif_pos h', List.getElem_replicate]

/-- A stream of zeros gives an accepted chunk each time. -/
theorem uniformAccepted_zeros (m n : Nat) (h : 3 * n ≤ m) :
    (uniformAccepted ⟨List.replicate m 0, 0, 0⟩ n).length = n := by
  have hz : ∀ v ∈ (List.range n).map (uniformChunk ⟨List.replicate m 0, 0, 0⟩), v < 8380417 := by
    simp only [List.mem_map, List.mem_range]
    rintro _ ⟨j, hj, rfl⟩
    unfold uniformChunk
    rw [byteAt_replicate _ _ _ (by omega), byteAt_replicate _ _ _ (by omega), byteAt_replicate _ _ _ (by omega)]
    decide
  unfold uniformAccepted
  rw [List.filter_eq_self.mpr (by simpa using hz), List.length_map, List.length_range]

theorem witness_SampuTakesTheAcceptedChunks :
    (uniformAccepted ⟨List.replicate 768 0, 0, 0⟩ 256).length = 256 ∧
    (uniformAccepted ⟨List.replicate 768 0, 0, 0⟩ (256 - 1)).length = 255 ∧ 256 ≤ 4096 :=
  ⟨uniformAccepted_zeros _ _ (by decide), uniformAccepted_zeros _ _ (by decide), by decide⟩

theorem witness_SampuCompletesWheneverTheStreamAllows :
    ∃ s : State, s.host = [] ∧ (uniformAccepted s.xs 256).length = 256 ∧ (uniformAccepted s.xs (256 - 1)).length = 255 :=
  ⟨State.reset.setXs ⟨List.replicate 768 0, 0, 0⟩, rfl, uniformAccepted_zeros _ _ (by decide),
    uniformAccepted_zeros _ _ (by decide)⟩

/-- The 256th nibble is the low one of byte 129: the high one is lost. -/
theorem witness_SampeTakesTheAcceptedNibbles :
    256 ≤ (etaAccepted (stream (0xF0 :: List.replicate 128 0) State.reset).xs 129).length ∧
    (etaAccepted (stream (0xF0 :: List.replicate 128 0) State.reset).xs 128).length < 256 ∧ 129 ≤ 4096 := by
  decide +kernel

theorem witness_SampcShufflesTheAcceptedBytes :
    (challengePicks 196 (challengeDraws (stream (List.replicate 8 0 ++ 197 :: List.replicate 60 0) State.reset).xs 61)).length =
      60 ∧
    (challengePicks 196 (challengeDraws (stream (List.replicate 8 0 ++ 197 :: List.replicate 60 0) State.reset).xs
      60)).length = 59 ∧ 61 ≤ 4096 := by decide +kernel

/-- A predicate that fails below `a` and holds on the `b` numbers from there holds `b` times below `a + b`. -/
theorem countP_range_tail (p : Nat → Bool) (a b : Nat) (h0 : ∀ j < a, p j = false)
    (h1 : ∀ j < b, p (a + j) = true) : (List.range (a + b)).countP p = b := by
  have hlo : (List.range a).countP p = 0 := by
    rw [List.countP_eq_zero]
    exact fun j hj => by simp [h0 j (List.mem_range.mp hj)]
  have hhi : (List.range b).countP (p ∘ fun j => a + j) = b := by
    exact (List.countP_eq_length.mpr fun j hj => h1 j (List.mem_range.mp hj)).trans List.length_range
  rw [List.range_add, List.countP_append, hlo, List.countP_map, hhi, Nat.zero_add]

/-- A stream of `m` bytes `u` and then `n` bytes `v`. -/
def twoPart (u v : Byte) (m n : Nat) : Xof := ⟨List.replicate m u ++ List.replicate n v, 0, 0⟩

theorem twoPart_first (u v : Byte) (m n k : Nat) (h : k < m) : (twoPart u v m n).byteAt k = u := by
  simp only [twoPart, Xof.byteAt, List.length_append, List.length_replicate]
  rw [dif_pos (by omega), List.getElem_append_left (by simpa using h), List.getElem_replicate]

theorem twoPart_second (u v : Byte) (m n k : Nat) (h : m ≤ k) (hn : k < m + n) : (twoPart u v m n).byteAt k = v := by
  simp only [twoPart, Xof.byteAt, List.length_append, List.length_replicate]
  rw [dif_pos hn, List.getElem_append_right (by simpa using h), List.getElem_replicate]

/-- After `m` rejected bytes every zero byte gives SAMPE two coefficients. -/
theorem etaAccepted_late (m k : Nat) (hk : k ≤ 128) :
    (etaAccepted (twoPart 0xFF 0 m 128) (m + k)).length = 2 * k := by
  unfold etaAccepted
  rw [List.length_map, ← List.countP_eq_length_filter, List.countP_map, Nat.mul_add]
  refine countP_range_tail _ _ _ (fun j hj => ?_) (fun j hj => ?_)
  · have hb := twoPart_first 0xFF 0 m 128 (j / 2) (by omega)
    simp only [Function.comp_apply, nibble, hb]
    split <;> decide
  · have hb := twoPart_second 0xFF 0 m 128 ((2 * m + j) / 2) (by omega) (by omega)
    simp only [Function.comp_apply, nibble, hb]
    split <;> decide

/-- SAMPC rejects a byte 255 at index 196. -/
theorem challengePicks_rejected (m : Nat) (l : List Nat) :
    challengePicks 196 (List.replicate m 255 ++ l) = challengePicks 196 l := by
  induction m with
  | zero => rfl
  | succ m ih => rw [List.replicate_succ, List.cons_append, challengePicks]; simpa using ih

/-- SAMPC's draws where the 8 sign bytes and the first `m` draws are 255 and zeros follow. -/
theorem challengeDraws_late (m k : Nat) (hk : k ≤ 60) :
    challengeDraws (twoPart 0xFF 0 (8 + m) 60) (m + k) = List.replicate m 255 ++ List.replicate k 0 := by
  unfold challengeDraws
  rw [List.range_add, List.map_append, List.map_map]
  congr 1 <;> refine List.eq_replicate_iff.mpr ⟨by simp, fun b hb => ?_⟩ <;>
    obtain ⟨j, hj, rfl⟩ := List.mem_map.mp hb
  · rw [twoPart_first 0xFF 0 (8 + m) 60 _ (by have := List.mem_range.mp hj; omega)]; rfl
  · simp only [Function.comp_apply]
    rw [twoPart_second 0xFF 0 (8 + m) 60 _ (by omega) (by have := List.mem_range.mp hj; omega)]; rfl

/-- Both samplers end in a later step: 4096 draws are rejected before the first accepted one. -/
theorem witness_SampeAndSampcCompleteWheneverTheStreamAllows :
    (∃ s : State, s.host = [] ∧ 256 ≤ (etaAccepted s.xs 4224).length ∧ (etaAccepted s.xs (4224 - 1)).length < 256) ∧
    ∃ s : State, s.host = [] ∧ (challengePicks 196 (challengeDraws s.xs 4156)).length = 60 ∧
      (challengePicks 196 (challengeDraws s.xs (4156 - 1))).length = 59 := by
  refine ⟨⟨State.reset.setXs (twoPart 0xFF 0 4096 128), rfl, ?_, ?_⟩,
    ⟨State.reset.setXs (twoPart 0xFF 0 (8 + 4096) 60), rfl, ?_, ?_⟩⟩ <;> rw [State.setXs_xs]
  · exact (etaAccepted_late 4096 128 (by decide)).ge
  · exact (etaAccepted_late 4096 127 (by decide)).trans_lt (by decide)
  · rw [challengeDraws_late 4096 60 (by decide), challengePicks_rejected]; decide +kernel
  · rw [challengeDraws_late 4096 59 (by decide), challengePicks_rejected]; decide +kernel

/-- A SAMPC that has its sign bytes and no index done, before 60 zero bytes of the stream. -/
def startedSampc : State :=
  (stream (List.replicate 60 0) State.reset).setRunning (some ⟨3, .challenge 0 196 zeroRing, 8⟩)

/-- A SAMPC that ends in its first step, and one that ends in a later one. -/
theorem witness_SampcHasWeightSixty :
    (∃ t, (stream (List.replicate 68 0) State.reset).running = none ∧
      exec (.sampc 3) (stream (List.replicate 68 0) State.reset) = .next t ∧ t.busy = false) ∧
    ∃ t, startedSampc.Inv ∧ startedSampc.running = some ⟨3, .challenge 0 196 zeroRing, 8⟩ ∧
      (∀ rest, startedSampc.host ≠ .reset :: rest) ∧ step startedSampc = .next t ∧ t.busy = false := by
  refine ⟨⟨_, rfl, rfl, by decide +kernel⟩, ⟨_, ?_, rfl, nofun, rfl, by decide +kernel⟩⟩
  exact
    { buf_wf := Memory.wf_nil
      buf_range := fun _ h => absurd h List.not_mem_nil
      fault_ok := ⟨fun _ => ⟨rfl, rfl⟩, nofun, fun _ => rfl, (by decide : (0 : BitVec 12).toNat < 2048)⟩
      running_ok := by
        intro q hq
        cases hq
        exact ⟨rfl, by decide, by decide, by decide +kernel, by decide +kernel, by decide +kernel⟩ }

theorem witness_RejectedStreamLeavesTheSamplerBusy :
    ∃ s : State, s.running = none ∧ s.host = [] ∧ ∀ k < 12288 * (7 + 1), s.xs.byteAt k = 0xFF :=
  ⟨State.reset.setXs ⟨List.replicate (12288 * (7 + 1)) 0xFF, 0, 0⟩, rfl, rfl, byteAt_replicate _ _⟩

/-- For all four samplers: two states that differ in registers, flags and `BUF` and have one stream. -/
theorem witness_SamplersDependOnTheStreamAlone :
    ∃ s s' : State, s ≠ s' ∧ s.running = none ∧ s'.running = none ∧ s.xs = s'.xs ∧ s.host = [] ∧ s'.host = [] :=
  ⟨stream [1, 2, 3] State.reset, stream [1, 2, 3] ((bytesAt 7 [9] (regs [(1, [5])])).setHrej true),
    fun h => absurd (congrArg State.hrej h) (by decide), rfl, rfl, rfl, rfl, rfl⟩

/-- In each format a register whose lanes are the least, and one whose lanes are the greatest value that fits. -/
theorem witness_PackCommandsWriteTheFields (r : PReg) (j : Fin 256) :
    (0 ≤ (flat 0).lane r j ∧ (flat 1023).lane r j < 2 ^ 10) ∧
    (0 ≤ 4096 - (flat 4096).lane r j ∧ 4096 - (flat (-4095)).lane r j < 2 ^ 13) ∧
    (0 ≤ 2 - (flat 2).lane r j ∧ 2 - (flat (-5)).lane r j < 2 ^ 3) ∧
    (0 ≤ 524288 - (flat 524288).lane r j ∧ 524288 - (flat (-524287)).lane r j < 2 ^ 20) ∧
    (0 ≤ (flat 0).lane r j ∧ (flat 15).lane r j < 2 ^ 4) := by
  repeat rw [flat_lane _ (by decide)]
  decide

/-- In each format a register whose lane 1 is the first that does not fit, by one. -/
theorem witness_PackCommandsRaiseRange :
    (∀ i : Fin 256, i < 1 → 0 ≤ (regs [(0, [0, 1024])]).lane 0 i ∧ (regs [(0, [0, 1024])]).lane 0 i < 2 ^ 10) ∧
    (¬ (regs [(0, [0, 1024])]).lane 0 1 < 2 ^ 10) ∧ (¬ 4096 - (regs [(0, [0, -4096])]).lane 0 1 < 2 ^ 13) ∧
    (¬ 0 ≤ 2 - (regs [(0, [0, 3])]).lane 0 1) ∧ (¬ 524288 - (regs [(0, [0, -524288])]).lane 0 1 < 2 ^ 20) ∧
    ¬ 0 ≤ (regs [(0, [0, -1])]).lane 0 1 := by decide +kernel

/-- In each format the zero polynomial packs, and what it packs to unpacks. -/
theorem witness_PackingAndUnpackingAreInverse :
    (∃ t u, exec (.pkt1 0 7872) State.reset = .next t ∧ t.err = false ∧ exec (.upt1 1 0) State.reset = .next u) ∧
    (∃ t u, exec (.pkt0 0 7776) State.reset = .next t ∧ t.err = false ∧ exec (.upt0 1 0) State.reset = .next u) ∧
    (∃ t u, exec (.pketa 0 8096) State.reset = .next t ∧ t.err = false ∧ exec (.upeta 1 0) State.reset = .next u) ∧
    (∃ t u, exec (.pkz 0 7552) State.reset = .next t ∧ t.err = false ∧ exec (.upz 1 0) State.reset = .next u) ∧
    (∃ t u, exec (.pkw1 0 8064) State.reset = .next t ∧ t.err = false ∧ exec (.upw1 1 0) State.reset = .next u) ∧
    State.reset.err = false :=
  ⟨⟨_, _, rfl, by decide +kernel, rfl⟩, ⟨_, _, rfl, by decide +kernel, rfl⟩, ⟨_, _, rfl, by decide +kernel, rfl⟩,
    ⟨_, _, rfl, by decide +kernel, rfl⟩, ⟨_, _, rfl, by decide +kernel, rfl⟩, rfl⟩

/-- Rows whose lists of coefficients are bits are rows of bits. -/
theorem row_bits {s : State} {r : PReg} {i : Nat} (h : (ints (s.row r i)).all (fun v => v == 0 || v == 1) = true)
    (j : Fin 256) : ((s.row r i)[j]).toInt = 0 ∨ ((s.row r i)[j]).toInt = 1 := by
  have hm : ((s.row r i)[j]).toInt ∈ ints (s.row r i) := List.mem_map.mpr ⟨_, by simp, rfl⟩
  simpa using List.all_eq_true.mp h _ hm

/-- 75 ones in row 0: no tail is left; the first index byte falls under the clause of row 0. -/
theorem witness_HintencWritesTheEncoding :
    ∃ s : State, (8 : PReg).val ≤ 8 ∧ 8109 + 83 ≤ 8192 ∧ s.rowsAreBits 8 ∧ s.onesBefore 8 8 = 75 ∧
      s.onesBefore 8 0 ≤ 0 ∧ 0 + 1 < s.onesBefore 8 1 := by
  have h : ∀ i < 8, (ints ((regs [(8, List.replicate 75 1)]).row 8 i)).all (fun v => v == 0 || v == 1) = true := by
    decide +kernel
  exact ⟨_, by decide, by decide, fun i hi => row_bits (h i hi), by decide +kernel, by decide +kernel, by decide +kernel⟩

/-- H1 has ones in two rows, row 2's at index 2 of the region, and a tail. -/
theorem witness_HintencWritesTheEncoding_tail :
    hintH1.rowsAreBits 0 ∧ hintH1.onesBefore 0 2 ≤ 2 ∧ 2 < hintH1.onesBefore 0 3 ∧ hintH1.onesBefore 0 8 ≤ 74 := by
  have h : ∀ i < 8, (ints (hintH1.row 0 i)).all (fun v => v == 0 || v == 1) = true := by decide +kernel
  exact ⟨fun i hi => row_bits (h i hi), by decide +kernel, by decide +kernel, by decide +kernel⟩

/-- A base above 8; a first coefficient that is no bit, in row 1; and 76 ones. -/
theorem witness_HintCommandsFaultInOrder :
    8 < (9 : PReg).val ∧
    (∃ s : State, ¬ (((s.row 8 1)[(1 : Fin 256)]).toInt = 0 ∨ ((s.row 8 1)[(1 : Fin 256)]).toInt = 1) ∧
      ∀ i' < 8, ∀ j' : Fin 256, 256 * i' + j'.val < 256 * 1 + (1 : Fin 256).val →
        ((s.row 8 i')[j']).toInt = 0 ∨ ((s.row 8 i')[j']).toInt = 1) ∧
    ∃ s : State, s.rowsAreBits 0 ∧ 75 < s.onesBefore 0 8 := by
  refine ⟨by decide, ⟨regs [(8, List.replicate 256 1), (9, [0, 2])], by decide +kernel, fun i' _ j' hl => ?_⟩, ?_⟩
  · have h1 : (1 : Fin 256).val = 1 := rfl
    rw [h1] at hl
    obtain rfl | rfl : i' = 0 ∨ i' = 1 := by omega
    · exact row_bits (by decide +kernel) j'
    · obtain rfl : j' = 0 := Fin.ext (by simpa using (by omega : j'.val = 0))
      decide +kernel
  · have h : ∀ i < 8, (ints ((regs [(0, List.replicate 76 1)]).row 0 i)).all (fun v => v == 0 || v == 1) = true := by
      decide +kernel
    exact ⟨_, fun i hi => row_bits (h i hi), by decide +kernel⟩

/-- The bytes of H1 are canonical: index byte 0 belongs to row 0. -/
theorem witness_HintdecAcceptsCanonicalEncodings :
    let s := bytesAt 0x100 bytesH1 State.reset
    s.CanonicalHint 0x100 ∧ s.hintCount 0x100 0 ≤ 0 ∧ 0 < s.hintCount 0x100 1 ∧ s.hintByte 0x100 0 = (3 : Fin 256).val := by
  intro s
  have h75 : ∀ i < 8, s.hintCount 0x100 (i + 1) ≤ 75 := by decide +kernel
  have hrise : ∀ i < 8, ∀ m < 75, s.hintCount 0x100 i ≤ m → m + 1 < s.hintCount 0x100 (i + 1) →
      s.hintByte 0x100 m < s.hintByte 0x100 (m + 1) := by decide +kernel
  have htail : ∀ m < 75, s.hintCount 0x100 8 ≤ m → s.hintByte 0x100 m = 0 := by decide +kernel
  refine ⟨⟨by decide +kernel, h75, fun i hi m h1 h2 => hrise i hi m ?_ h1 h2, fun m h1 h2 => htail m h2 h1⟩,
    by decide +kernel, by decide +kernel, by decide +kernel⟩
  have := h75 i hi
  omega

/-- A count of 76 is not canonical. -/
theorem witness_HintdecAcceptsCanonicalEncodings_reject :
    ¬ (bytesAt 0x152 [76] State.reset).CanonicalHint 0x100 :=
  fun h => absurd (h.counts_bound 7 (by decide)) (by decide +kernel)

theorem witness_HintEncodingIsCanonical :
    (∃ t, exec (.hintenc 0 0x100) hintH1 = .next t ∧ hintH1.err = false ∧ t.err = false) ∧
    ∃ t, exec (.hintdec 8 0x100) (bytesAt 0x100 bytesH1 State.reset) = .next t ∧
      (bytesAt 0x100 bytesH1 State.reset).err = false ∧ t.err = false ∧ t.hrej = false :=
  ⟨⟨_, rfl, rfl, by decide +kernel⟩, ⟨_, rfl, rfl, by decide +kernel, by decide +kernel⟩⟩

/-- The whole window, and its last byte. -/
theorem witness_HostAccessesTheBufferWindow :
    (∃ s : State, s.running = none ∧ 0 + 8192 ≤ 8192 ∧ s.host = .read (0x2000 + 0) 8192 :: []) ∧
    ∃ s : State, s.running = none ∧ 8191 + 1 ≤ 8192 ∧ s.host = .write (0x2000 + 8191) 1 0x1FF :: [] :=
  ⟨⟨hosting [.read 0x2000 8192] none, rfl, by decide, rfl⟩, ⟨hosting [.write 0x3FFF 1 0x1FF] none, rfl, by decide, rfl⟩⟩

/-- `CMD` and `XOFCNT` are read, `STATUS` and `XOFCNT` are written. -/
theorem witness_HostReadsTheControlRegisters :
    (∃ s : State, s.running = none ∧ 0 < 6 ∧ s.host = .read (4 * 0) 4 :: []) ∧
    (∃ s : State, s.running = none ∧ 5 < 6 ∧ s.host = .read (4 * 5) 4 :: []) ∧
    (∃ s : State, s.running = none ∧ 1 ≤ 1 ∧ s.host = .write (4 * 1) 4 7 :: []) ∧
    ∃ s : State, s.running = none ∧ 1 ≤ 5 ∧ s.host = .write (4 * 5) 4 7 :: [] :=
  ⟨⟨hosting [.read 0 4] none, rfl, by decide, rfl⟩, ⟨hosting [.read 20 4] none, rfl, by decide, rfl⟩,
    ⟨hosting [.write 4 4 7] none, rfl, by decide, rfl⟩, ⟨hosting [.write 20 4 7] none, rfl, by decide, rfl⟩⟩

/-- A held-off move before a SAMPC that ends in this step and one that does not, and a `STATUS` read. -/
theorem witness_HostWaitsWhileACommandRuns :
    (∃ (s : State) (r : Running), s.running = some r ∧ s.host = .read 8 4 :: [] ∧ HostMove.read 8 4 ≠ .reset ∧
      HostMove.read 8 4 ≠ .read 4 4 ∧ (runSampler r s).busy = false) ∧
    (∃ (s : State) (r : Running), s.running = some r ∧ s.host = .write 0x2000 1 7 :: [] ∧
      HostMove.write 0x2000 1 7 ≠ .reset ∧ HostMove.write 0x2000 1 7 ≠ .read 4 4 ∧ (runSampler r s).busy = true) ∧
    ∃ (s : State) (r : Running), s.running = some r ∧ s.host = .read 4 4 :: [] :=
  ⟨⟨startedSampc.setHost [.read 8 4], _, rfl, rfl, by decide, by decide, by decide +kernel⟩,
    ⟨(startedSampc.setXs ⟨List.replicate 4096 0xFF, 0, 0⟩).setHost [.write 0x2000 1 7], _, rfl, rfl, by decide, by decide,
      by decide +kernel⟩,
    ⟨hosting [.read 4 4] (some startedSampu), _, rfl, rfl⟩⟩

/-- The first and last reserved bytes, a byte and an odd word of the registers, and an access across the window's end. -/
theorem witness_MeaninglessHostAccessesStop :
    (∃ s : State, s.running = none ∧ s.host = .read 0x18 1 :: [] ∧ 0x18 ≤ 0x18 ∧ 0x18 < 0x2000 ∧ 0x18 + 1 ≤ 0x4000) ∧
    (∃ s : State, s.running = none ∧ s.host = .write 0x1FFF 1 0 :: [] ∧ 0x18 ≤ 0x1FFF ∧ 0x1FFF < 0x2000) ∧
    (∃ s : State, s.running = none ∧ s.host = .read 0x17 1 :: [] ∧ 0x17 < 0x18 ∧ 1 ≠ 4) ∧
    (∃ s : State, s.running = none ∧ s.host = .write 2 4 0 :: [] ∧ 2 < 0x18 ∧ 2 % 4 ≠ 0) ∧
    ∃ s : State, s.running = none ∧ s.host = .read 0x3FFF 2 :: [] ∧ 0x4000 < 0x3FFF + 2 :=
  ⟨⟨hosting [.read 0x18 1] none, rfl, rfl, by decide, by decide, by decide⟩,
    ⟨hosting [.write 0x1FFF 1 0] none, rfl, rfl, by decide, by decide⟩,
    ⟨hosting [.read 0x17 1] none, rfl, rfl, by decide, by decide⟩,
    ⟨hosting [.write 2 4 0] none, rfl, rfl, by decide, by decide⟩,
    ⟨hosting [.read 0x3FFF 2] none, rfl, rfl, by decide⟩⟩

end Sys2Proof.Tests
end

section
/-! PROOFS. The state after reset (R23), and the reading rules of cleared registers and an empty `BUF`, which hold of
every state so that ZEROIZE (R72) can use them too. -/

namespace Sys2Proof.Machine

/-- Every byte of a `BUF` that lists nothing is 0. -/
@[simp] theorem Memory.read_nil_eq_zero (a : Nat) : Memory.read [] a = 0 := rfl

/-- Where all registers hold the zero polynomial, every lane of every register is 0. -/
theorem State.lane_eq_zero_of_p_cleared {s : State} (h : s.p = Vector.replicate 16 zeroRing) (r : PReg)
    (j : Fin 256) : s.lane r j = 0 := by
  simp [State.lane, h, zeroRing]

/-- With no command running and neither flag set, the `STATUS` word is 0 (R14). -/
theorem State.statusWord_eq_zero {s : State} (hbusy : s.busy = false) (herr : s.err = false)
    (hhrej : s.hrej = false) : s.statusWord = 0 := by
  rw [State.statusWord, hbusy, herr, hhrej]
  decide

/-- With no fault recorded, the `FAULT` word is 0 (R15). -/
@[simp] theorem FaultReg.word_none : FaultReg.word ⟨.none, 0⟩ = 0 := by decide

/-- Every control register, `CMD` and numbers past the last included, reads 0 after reset (R23). -/
theorem State.reset_controlWord (k : Nat) : State.reset.controlWord k = 0 := by
  unfold State.controlWord
  split
  case h_1 => exact State.statusWord_eq_zero rfl rfl rfl
  case h_2 => exact FaultReg.word_none
  all_goals rfl

/-- Settles O9: each part is the reading rule of a cleared piece of state, at the value it has in `State.reset`; the
stream is a field that `resetBlock` copies. -/
theorem resetLeavesEverythingZero : Obligations.ResetLeavesEverythingZero := by
  have hlanes : ∀ r j, State.reset.lane r j = 0 := State.lane_eq_zero_of_p_cleared rfl
  have hbuf : ∀ a, State.reset.buf.read a = 0 := Memory.read_nil_eq_zero
  have hcontrol : ∀ k < 6, State.reset.controlWord k = 0 := fun k _ => State.reset_controlWord k
  exact ⟨hlanes, hbuf, hcontrol, rfl, rfl, rfl, rfl, State.resetBlock_xs⟩

end Sys2Proof.Machine
end

section
/-! PROOFS. The bounds check of the commands that access `BUF` (R32): each of the fourteen is its `buffered` check, the
two hint commands once their eight registers exist (R166). -/

namespace Sys2Proof.Machine

/-- A buffer command whose bytes do not all lie in `BUF` raises `ADDR`, whatever it would have gone on to do (R32). -/
theorem buffered_eq_raiseFault (i : Instr) {addr n : Nat} (body : State → State) (s : State) (h : 8192 < addr + n) :
    buffered i addr n body s = s.raiseFault (encode i) .addr 0 := by
  rcases buffered_cases i addr n body s with ⟨hle, -⟩ | ⟨-, heq⟩
  · omega
  · exact heq

/-- A group command whose eight registers exist goes on (R11). -/
theorem grouped_eq_body (i : Instr) {r : PReg} (body : State → State) (s : State) (h : r.val ≤ 8) :
    grouped i r body s = body s := by
  rcases grouped_cases i r body s with ⟨-, heq⟩ | ⟨hlt, -⟩
  · exact heq
  · omega

/-- A command that accesses `BUF` is a body behind the bounds check of its own span; a hint command checks its registers
before (R31, R32, R166). -/
theorem exec_eq_buffered {i : Instr} {addr n : Nat} (hspan : bufferSpan i = some (addr, n))
    (hbase : ∀ r, groupBase i = some r → r.val ≤ 8) :
    ∃ body, ∀ s, exec i s = .next (buffered i addr n body s) := by
  cases i with
  | ldraw | straw | pkt1 | pkt0 | pketa | pkz | pkw1 | upt1 | upt0 | upeta | upz | upw1 =>
    cases hspan
    exact ⟨_, fun _ => rfl⟩
  | hintenc r | hintdec r =>
    cases hspan
    exact ⟨_, fun s => congrArg Host.Outcome.next (grouped_eq_body _ _ s (hbase r rfl))⟩
  | _ => cases hspan

/-- Settles O20: behind the check stands a body that an address out of range never reaches. -/
theorem outOfRangeAddressRaisesAddr : Obligations.OutOfRangeAddressRaisesAddr := by
  intro s i addr n hspan hout hbase
  obtain ⟨body, hexec⟩ := exec_eq_buffered hspan hbase
  calc exec i s = .next (buffered i addr n body s) := hexec s
    _ = .next (s.raiseFault (encode i) .addr 0) := by rw [buffered_eq_raiseFault i body s hout]

end Sys2Proof.Machine
end

section
/-! PROOFS. The decoder against the opcode map (R57, R59): a row is an opcode with a set of reserved bits, a word satisfies
the row exactly when it has that opcode and those bits 0, and `decode` tests the same two things. -/

namespace Sys2Proof

/-- The 24 bits below the opcode: the operand fields and the reserved bits (R50). -/
def operandBits (w : Word) : BitVec 24 := w.extractLsb' 0 24

/-- The opcode of a row. -/
def OpcodeRow.opcode (r : OpcodeRow) : Byte := opcodeField r.pattern

/-- The reserved bits of a row's format: what its mask covers below the opcode. -/
def OpcodeRow.reserved (r : OpcodeRow) : BitVec 24 := operandBits r.mask

/-- The reserved bits of the row are all 0 in the word. -/
def OpcodeRow.reservedClear (r : OpcodeRow) (w : Word) : Bool := operandBits w &&& r.reserved == 0

/-! ### What it takes to satisfy a row -/

/-- A word is its opcode and its operand bits. -/
theorem word_eq_iff (v w : Word) : v = w ↔ opcodeField v = opcodeField w ∧ operandBits v = operandBits w := by
  refine ⟨fun h => h ▸ ⟨rfl, rfl⟩, fun ⟨hop, hlow⟩ => ?_⟩
  have hsplit (u : Word) : opcodeField u ++ operandBits u = u := BitVec.extractLsb'_append_extractLsb'
  rw [← hsplit v, ← hsplit w, hop, hlow]

/-- Every row's mask covers the whole opcode, and its pattern has no bit below the opcode. -/
theorem opcodeRows_shape : ∀ r ∈ opcodeRows, opcodeField r.mask = BitVec.allOnes 8 ∧ operandBits r.pattern = 0 := by
  decide

/-- Masking with a row of the map asks for the row's opcode and for reserved bits 0, and for nothing else. -/
theorem accepts_iff {r : OpcodeRow} (hr : r ∈ opcodeRows) (w : Word) :
    r.accepts w ↔ opcodeField w = r.opcode ∧ r.reservedClear w = true := by
  obtain ⟨hmask, hpattern⟩ := opcodeRows_shape r hr
  have hop : opcodeField (w &&& r.mask) = opcodeField w := by
    calc opcodeField (w &&& r.mask) = opcodeField w &&& opcodeField r.mask := BitVec.extractLsb'_and
      _ = opcodeField w := by rw [hmask, BitVec.and_allOnes]
  have hlow : operandBits (w &&& r.mask) = operandBits w &&& r.reserved := BitVec.extractLsb'_and
  rw [OpcodeRow.accepts, word_eq_iff, hop, hlow, hpattern, OpcodeRow.opcode, OpcodeRow.reservedClear, beq_iff_eq]

/-! ### What the decoder tests -/

/-- The `len` bits from `lo` on. -/
def fieldMask (lo len : Nat) : BitVec 24 := BitVec.setWidth 24 (BitVec.allOnes len) <<< lo

/-- A bit of the masked operand bits is the word's bit inside the field and 0 outside. -/
theorem operandBits_and_fieldMask_getLsbD (w : Word) {lo len : Nat} (h : lo + len ≤ 24) (k : Nat) :
    (operandBits w &&& fieldMask lo len).getLsbD k = (decide (lo ≤ k ∧ k < lo + len) && w.getLsbD k) := by
  simp only [operandBits, fieldMask, BitVec.getLsbD_and, BitVec.getLsbD_extractLsb', BitVec.getLsbD_shiftLeft,
    BitVec.getLsbD_setWidth, BitVec.getLsbD_allOnes]
  grind

/-- A field of the operand bits is 0 when masking leaves none of its bits. -/
theorem field_eq_zero_iff (w : Word) {lo len : Nat} (h : lo + len ≤ 24) :
    w.extractLsb' lo len = 0 ↔ operandBits w &&& fieldMask lo len = 0 := by
  constructor <;> intro hz <;> refine BitVec.eq_of_getLsbD_eq fun k hk => ?_
  · have hbit := congrArg (·.getLsbD (k - lo)) hz
    rw [operandBits_and_fieldMask_getLsbD w h]
    grind
  · have hbit := operandBits_and_fieldMask_getLsbD w h (lo + k)
    rw [hz] at hbit
    grind

/-- The check of the reserved bits lets exactly its own command through (R59 (b)). -/
theorem checkReserved_eq_instr_iff (clear : Bool) (i j : Instr) :
    checkReserved clear i = .instr j ↔ clear = true ∧ i = j := by
  cases clear <;> simp [checkReserved]

/-- The word decodes as the row says: to a command of the row's mnemonic if the row's reserved bits are 0, else to a
rejection. -/
def OpcodeRow.DecodesTo (r : OpcodeRow) (w : Word) : Prop :=
  ∃ i, decode w = checkReserved (r.reservedClear w) i ∧ i.mnemonic = r.mnemonic

/-- An arm of `decode` that tests the row's reserved bits as one field (R51 to R55) decodes as the row says. -/
theorem decodesTo_of_field {r : OpcodeRow} {w : Word} {lo len : Nat} {i : Instr}
    (hdecode : decode w = checkReserved (w.extractLsb' lo len == 0) i) (hlen : lo + len ≤ 24)
    (hreserved : r.reserved = fieldMask lo len) (hname : i.mnemonic = r.mnemonic) : r.DecodesTo w := by
  have hclear : r.reservedClear w = (w.extractLsb' lo len == 0) := by
    rw [Bool.eq_iff_iff, OpcodeRow.reservedClear, hreserved, beq_iff_eq, beq_iff_eq, field_eq_zero_iff w hlen]
  exact ⟨i, hclear ▸ hdecode, hname⟩

/-- A word with the opcode of a row decodes as the row says. In each row the opcode picks the arm of `decode`; what is
left is to compare the arm's reserved field and mnemonic with the row's. -/
theorem decodesTo_of_opcode {r : OpcodeRow} (hr : r ∈ opcodeRows) {w : Word} (hop : opcodeField w = r.opcode) :
    r.DecodesTo w := by
  fin_cases hr
  all_goals
    apply decodesTo_of_field
    case hdecode =>
      rw [decode, hop]
      exact rfl
    case hlen => decide
    case hreserved => decide
    case hname => rfl

/-- A word without the opcode of a row is rejected (R59 (a)): every other arm of `decode` is that of a row. -/
theorem decode_unused_or_opcode (w : Word) :
    decode w = .reject .unusedOpcode ∨ ∃ r ∈ opcodeRows, opcodeField w = r.opcode := by
  unfold decode
  split
  case h_37 => exact .inl rfl
  all_goals next hop => exact .inr (by rw [hop]; decide)

/-! ### Commands and rows -/

/-- A command's word satisfies the row of its mnemonic. -/
theorem exists_row_of_decode {w : Word} {i : Instr} (h : decode w = .instr i) :
    ∃ r ∈ opcodeRows, r.mnemonic = i.mnemonic ∧ r.accepts w := by
  obtain hunused | ⟨r, hr, hop⟩ := decode_unused_or_opcode w
  · rw [hunused] at h
    cases h
  · obtain ⟨j, hdecode, hname⟩ := decodesTo_of_opcode hr hop
    rw [hdecode, checkReserved_eq_instr_iff] at h
    obtain ⟨hclear, rfl⟩ := h
    exact ⟨r, hr, hname.symm, (accepts_iff hr w).mpr ⟨hop, hclear⟩⟩

/-- A word that satisfies a row is a command of the row's mnemonic. -/
theorem exists_decode_of_accepts {r : OpcodeRow} (hr : r ∈ opcodeRows) {w : Word} (h : r.accepts w) :
    ∃ i, decode w = .instr i ∧ i.mnemonic = r.mnemonic := by
  obtain ⟨hop, hclear⟩ := (accepts_iff hr w).mp h
  obtain ⟨i, hdecode, hname⟩ := decodesTo_of_opcode hr hop
  exact ⟨i, by rw [hdecode, checkReserved_eq_instr_iff]; exact ⟨hclear, rfl⟩, hname⟩

/-- Settles O4: both directions go through the opcode and the reserved bits of the row. -/
theorem commandIffItsTableRowMatches : Obligations.CommandIffItsTableRowMatches :=
  fun _ => ⟨fun _ => exists_row_of_decode, fun _ hr => exists_decode_of_accepts hr⟩

end Sys2Proof
end

section
/-! PROOFS. A word that is no command (R59): the host's write of it ends in the fault `ILLEGAL` (R160, R161). -/

namespace Sys2Proof.Machine

/-- With `ERR = 0`, a word that decodes to no command raises `ILLEGAL` (R59, R75). -/
theorem accept_eq_raiseFault {w : Word} {s : State} (herr : s.err = false) (hdecode : ∀ i, decode w ≠ .instr i) :
    accept w s = .next (s.raiseFault w .illegal 0) := by
  obtain ⟨herr', -, -⟩ | ⟨-, i, hi, -⟩ | ⟨-, -, -, haccept⟩ := accept_cases w s
  · rw [herr] at herr'
    cases herr'
  · exact absurd hi (hdecode i)
  · exact haccept

/-- Settles O6: a word of no row decodes to no command by O4, and the step is the write of that word. -/
theorem illegalWordRaisesIllegal : Obligations.IllegalWordRaisesIllegal := by
  intro s w rest herr hidle hhost hrows
  have hdecode : ∀ i, decode w ≠ .instr i := fun i hi => by
    obtain ⟨r, hr, -, haccepts⟩ := exists_row_of_decode hi
    exact hrows r hr haccepts
  calc step s = perform (.write 0 4 w.toNat) { s with host := rest } := step_move hidle hhost
    _ = accept w { s with host := rest } := perform_command w _
    _ = .next (State.raiseFault { s with host := rest } w .illegal 0) := accept_eq_raiseFault herr hdecode

end Sys2Proof.Machine
end

section
/-! PROOFS. The commands of the modular reducer (R83 to R85): what a format P2 command leaves in the lanes of its
destination, and that `Reduce32` and `CAddQ` never leave the range of a coefficient, so that no lane wraps (R81, R82). -/

namespace Sys2Proof.Machine

/-! ### Lanes of a format P2 command -/

/-- A command of format P2 leaves in its destination the lanes of the polynomial it computes (R52). -/
theorem lanesBecome_of_unary {s : State} {i : Instr} {pd pa : PReg} {g : RingElement → RingElement}
    {f : Fin 256 → Int} (hexec : exec i s = .next (unary g pd pa s))
    (hlanes : ∀ j : Fin 256, (g s.p[pa])[j].toInt = f j) : lanesBecome s i pd f :=
  ⟨_, completesInto_of_setPoly hexec, fun j => (lane_setPoly_complete s pd _ j).trans (hlanes j)⟩

/-- Where the function of a lane-wise command of format P2 stays in the range of a coefficient, its values are stored
as they are (R125). -/
theorem lanesBecome_of_lanes1 {s : State} {i : Instr} {pd pa : PReg} {g : Int → Int}
    (hexec : exec i s = .next (unary (lanes1 g) pd pa s))
    (hrange : ∀ j, -2147483648 ≤ g (s.lane pa j) ∧ g (s.lane pa j) < 2147483648) :
    lanesBecome s i pd fun j => g (s.lane pa j) :=
  lanesBecome_of_unary hexec fun j => by
    calc (lanes1 g s.p[pa])[j].toInt = (coeff (g (s.lane pa j))).toInt :=
          congrArg BitVec.toInt (lanes1_getElem g s.p[pa] j j.isLt)
      _ = wrap32 (g (s.lane pa j)) := coeff_toInt _
      _ = g (s.lane pa j) := wrap32_of_range (hrange j)

/-! ### The scalar functions -/

/-- `Reduce32` with the numbers of the parameter set written out (R81). -/
theorem reduce32_eq (a : Int) : reduce32 a = a - (a + 4194304) / 8388608 * 8380417 := rfl

/-- `CAddQ` with the modulus written out (R82). -/
theorem caddq_eq (a : Int) : caddq a = if a < 0 then a + 8380417 else a := rfl

/-- With `a = 2^23 t + e`, where `-2^22 ≤ e < 2^22` and `-256 ≤ t ≤ 256`, `Reduce32(a)` is `8191 t + e`; its ends are at
`t = -255` and `t = 255`, since `t = ±256` leaves room for one sign of `e` only (R81). -/
theorem reduce32_range {a : Int} (ha : -2147483648 ≤ a ∧ a < 2147483648) :
    -6283009 ≤ reduce32 a ∧ reduce32 a ≤ 6283008 := by
  rw [reduce32_eq]
  omega

/-- Adding `q` to a negative coefficient cannot overflow (R82). -/
theorem caddq_range {a : Int} (ha : -2147483648 ≤ a ∧ a < 2147483648) :
    -2147483648 ≤ caddq a ∧ caddq a < 2147483648 := by
  rw [caddq_eq]
  split <;> omega

/-! ### The commands -/

/-- Settles O21: PMOV is the format P2 command of the identity. -/
theorem pmovCopiesThePolynomial : Obligations.PmovCopiesThePolynomial :=
  fun _ _ _ => lanesBecome_of_unary rfl fun _ => rfl

/-- Settles O22: the range of `Reduce32`, tighter than that of a coefficient, also says that no lane wraps. -/
theorem predReducesEveryLane : Obligations.PredReducesEveryLane := by
  intro s pd pa
  have hrange : ∀ j, -6283009 ≤ reduce32 (s.lane pa j) ∧ reduce32 (s.lane pa j) ≤ 6283008 :=
    fun j => reduce32_range (lane_range s pa j)
  refine ⟨lanesBecome_of_lanes1 (g := reduce32) rfl fun j => ?_, hrange⟩
  have hj := hrange j
  omega

/-- Settles O23: PCADDQ is `CAddQ` on every lane, and `CAddQ` stays in the range of a coefficient. -/
theorem pcaddqAddsToNegativeLanes : Obligations.PcaddqAddsToNegativeLanes :=
  fun s _ pa => lanesBecome_of_lanes1 (g := caddq) rfl fun j => caddq_range (lane_range s pa j)

end Sys2Proof.Machine
end

section
/-! PROOFS. NTT and INTT against the loops of R92 and R93: one butterfly network, run in two ways, gives the same
coefficients. The array loops assign one coefficient at a time; the model's layers cut the list of coefficients into
blocks. Both are written here over the butterfly, so that each loop is compared once for the two transforms. -/

namespace Sys2Proof.Machine

/-! ### Butterflies and the two ways to run a layer of them -/

/-- The integer is in the range of a coefficient. -/
def FitsCoeff (x : Int) : Prop := -2147483648 ≤ x ∧ x < 2147483648

/-- The butterflies of one layer: what replaces the old pair `a[j]`, `a[j+len]` in block `g`. -/
structure Butterfly where
  /-- The new `a[j]`. -/
  low : Nat → Int → Int → Int
  /-- The new `a[j+len]`. -/
  high : Nat → Int → Int → Int
  low_fits : ∀ g x y, FitsCoeff (low g x y)
  high_fits : ∀ g x y, FitsCoeff (high g x y)

/-- One butterfly as two assignments, both from the old pair. -/
def Butterfly.assign (B : Butterfly) (g len j : Nat) (a : Ints) : Ints :=
  (a.put (j + len) (B.high g (a j) (a (j + len)))).put j (B.low g (a j) (a (j + len)))

/-- The first `m` assignments of block `g`, which begins at `g * (2 * len)`. -/
def Butterfly.run (B : Butterfly) (g len m : Nat) (a : Ints) : Ints :=
  (List.range m).foldl (fun a o => B.assign g len (g * (2 * len) + o) a) a

/-- Blocks `g`, `g + 1`, ..., `g + n - 1` of the layer by assignments. -/
def Butterfly.runs (B : Butterfly) (len : Nat) : Nat → Nat → Ints → Ints
  | 0, _, a => a
  | n + 1, g, a => B.runs len n (g + 1) (B.run g len len a)

/-- The same blocks on the list of the coefficients from block `g` on. -/
def Butterfly.blocks (B : Butterfly) (len : Nat) : Nat → Nat → List Int → List Int
  | 0, _, l => l
  | n + 1, g, l =>
    List.zipWith (B.low g) (l.take len) ((l.drop len).take len) ++
      (List.zipWith (B.high g) (l.take len) ((l.drop len).take len) ++ B.blocks len n (g + 1) (l.drop (2 * len)))

/-! ### What the assignments leave in an array -/

/-- Every assignment of a layer keeps the array in the range of a coefficient. -/
theorem Butterfly.assign_fits (B : Butterfly) (g len j : Nat) {a : Ints} (h : ∀ i, FitsCoeff (a i)) (i : Nat) :
    FitsCoeff (B.assign g len j a i) := by
  simp only [Butterfly.assign, Ints.put]
  split
  · exact B.low_fits ..
  · split
    · exact B.high_fits ..
    · exact h i

/-- A block keeps the array in the range of a coefficient. -/
theorem Butterfly.run_fits (B : Butterfly) (g len m : Nat) {a : Ints} (h : ∀ i, FitsCoeff (a i)) :
    ∀ i, FitsCoeff (B.run g len m a i) :=
  List.foldlRecOn (motive := fun b : Ints => ∀ i, FitsCoeff (b i)) (List.range m) _ h
    fun _ hb _ _ => B.assign_fits _ _ _ hb

/-- A layer keeps the array in the range of a coefficient. -/
theorem Butterfly.runs_fits (B : Butterfly) (len n g : Nat) {a : Ints} (h : ∀ i, FitsCoeff (a i)) :
    ∀ i, FitsCoeff (B.runs len n g a i) := by
  induction n generalizing g a with
  | zero => exact h
  | succ n ih => exact ih (g + 1) (B.run_fits g len len h)

/-- One more assignment of a block. -/
theorem Butterfly.run_succ (B : Butterfly) (g len m : Nat) (a : Ints) :
    B.run g len (m + 1) a = B.assign g len (g * (2 * len) + m) (B.run g len m a) := by
  simp only [Butterfly.run, List.range_succ, List.foldl_append, List.foldl_cons, List.foldl_nil]

/-- The pairs of a block are disjoint: after `m` butterflies the first `m` of each half are new, all else is old. -/
theorem Butterfly.run_apply (B : Butterfly) (g len : Nat) (a : Ints) {m : Nat} (hm : m ≤ len) (i : Nat) :
    B.run g len m a i =
      if g * (2 * len) ≤ i ∧ i < g * (2 * len) + m then B.low g (a i) (a (i + len))
      else if g * (2 * len) + len ≤ i ∧ i < g * (2 * len) + len + m then B.high g (a (i - len)) (a i)
      else a i := by
  induction m generalizing i with
  | zero =>
    rw [if_neg (by omega), if_neg (by omega)]
    rfl
  | succ m ih =>
    have hsucc := B.run_succ g len m a
    have hold := ih (by omega)
    generalize g * (2 * len) = s at hsucc hold ⊢
    have hlow : B.run g len m a (s + m) = a (s + m) := by
      rw [hold, if_neg (by omega), if_neg (by omega)]
    have hhigh : B.run g len m a (s + m + len) = a (s + m + len) := by
      rw [hold, if_neg (by omega), if_neg (by omega)]
    rw [hsucc, Butterfly.assign, hlow, hhigh]
    simp only [Ints.put]
    obtain rfl | hi := eq_or_ne i (s + m)
    · rw [if_pos rfl, if_pos (by omega)]
    · obtain rfl | hi' := eq_or_ne i (s + m + len)
      · rw [if_neg hi, if_pos rfl, if_neg (by omega), if_pos (by omega), Nat.add_sub_cancel]
      · have hlo : (s ≤ i ∧ i < s + (m + 1)) ↔ s ≤ i ∧ i < s + m := by omega
        have hhi : (s + len ≤ i ∧ i < s + len + (m + 1)) ↔ s + len ≤ i ∧ i < s + len + m := by omega
        simp only [if_neg hi, if_neg hi', hold, hlo, hhi]

/-! ### A layer by assignments is the layer on the list -/

/-- The `n` coefficients of an array from `s` on. -/
def Ints.segment (a : Ints) (s n : Nat) : List Int := (List.range' s n).map a

/-- The number of coefficients of a segment. -/
@[simp] theorem Ints.segment_length (a : Ints) (s n : Nat) : (a.segment s n).length = n := by
  simp [Ints.segment]

/-- Coefficient `j` of a segment. -/
@[simp] theorem Ints.segment_getElem (a : Ints) (s n j : Nat) (h : j < (a.segment s n).length) :
    (a.segment s n)[j] = a (s + j) := by
  simp [Ints.segment]

/-- A segment cut in two. -/
theorem Ints.segment_append (a : Ints) (s m n : Nat) :
    a.segment s m ++ a.segment (s + m) n = a.segment s (m + n) := by
  rw [Ints.segment, Ints.segment, ← List.map_append, List.range'_append_1, Ints.segment]

/-- The first coefficients of a segment. -/
theorem Ints.take_segment (a : Ints) (s m n : Nat) : (a.segment s (m + n)).take m = a.segment s m := by
  rw [← Ints.segment_append, List.take_left' (Ints.segment_length a s m)]

/-- What is left of a segment without its first coefficients. -/
theorem Ints.drop_segment (a : Ints) (s m n : Nat) : (a.segment s (m + n)).drop m = a.segment (s + m) n := by
  rw [← Ints.segment_append, List.drop_left' (Ints.segment_length a s m)]

/-- Two arrays that agree on a segment have it in common. -/
theorem Ints.segment_congr {a b : Ints} {s n : Nat} (h : ∀ i, s ≤ i → i < s + n → a i = b i) :
    a.segment s n = b.segment s n :=
  List.map_congr_left fun i hi => by
    obtain ⟨hle, hlt⟩ := List.mem_range'_1.mp hi
    exact h i hle hlt

/-- A segment further on is a segment of the shifted array. -/
theorem Ints.segment_add (a : Ints) (s m n : Nat) : a.segment (s + m) n = Ints.segment (fun i => a (i + m)) s n := by
  simp only [Ints.segment, Nat.add_comm _ m, ← List.map_add_range', List.map_map, Function.comp_def]

/-- Two segments combined place by place. -/
theorem Ints.zipWith_segment (f : Int → Int → Int) (a : Ints) (s m n : Nat) :
    List.zipWith f (a.segment s n) (a.segment (s + m) n) = Ints.segment (fun i => f (a i) (a (i + m))) s n := by
  rw [Ints.segment_add, Ints.segment, Ints.segment, List.zipWith_map, List.zipWith_self, Ints.segment]

/-- Later blocks leave the coefficients before them alone. -/
theorem Butterfly.runs_apply_before (B : Butterfly) (len n g : Nat) (a : Ints) {i : Nat} (hi : i < g * (2 * len)) :
    B.runs len n g a i = a i := by
  induction n generalizing g a with
  | zero => rfl
  | succ n ih =>
    have hnext : (g + 1) * (2 * len) = g * (2 * len) + 2 * len := Nat.succ_mul ..
    calc B.runs len n (g + 1) (B.run g len len a) i = B.run g len len a i := ih _ _ (by omega)
      _ = a i := by rw [B.run_apply g len a le_rfl, if_neg (by omega), if_neg (by omega)]

/-- One block of the list, cut off a segment, and the blocks after it. -/
theorem Butterfly.blocks_segment_succ (B : Butterfly) (len n g : Nat) (a : Ints) :
    B.blocks len (n + 1) g (a.segment (g * (2 * len)) ((n + 1) * (2 * len))) =
      Ints.segment (fun i => B.low g (a i) (a (i + len))) (g * (2 * len)) len ++
        (Ints.segment (fun i => B.high g (a i) (a (i + len))) (g * (2 * len)) len ++
          B.blocks len n (g + 1) (a.segment ((g + 1) * (2 * len)) (n * (2 * len)))) := by
  have hsize : (n + 1) * (2 * len) = len + (len + n * (2 * len)) := by rw [Nat.succ_mul]; omega
  have hrest : (a.segment (g * (2 * len)) ((n + 1) * (2 * len))).drop (2 * len) =
      a.segment ((g + 1) * (2 * len)) (n * (2 * len)) := by
    rw [Nat.succ_mul n, Nat.add_comm (n * _), Ints.drop_segment, Nat.succ_mul g]
  rw [Butterfly.blocks, hrest, hsize, Ints.take_segment, Ints.drop_segment, Ints.take_segment, Ints.zipWith_segment,
    Ints.zipWith_segment]

/-- The blocks by assignments and the blocks on the list give the same coefficients. -/
theorem Butterfly.segment_runs (B : Butterfly) (len n g : Nat) (a : Ints) :
    (B.runs len n g a).segment (g * (2 * len)) (n * (2 * len)) =
      B.blocks len n g (a.segment (g * (2 * len)) (n * (2 * len))) := by
  induction n generalizing g a with
  | zero => simp [Ints.segment, Butterfly.blocks]
  | succ n ih =>
    have hnext : (g + 1) * (2 * len) = g * (2 * len) + len + len := by rw [Nat.succ_mul]; omega
    have hsize : (n + 1) * (2 * len) = len + (len + n * (2 * len)) := by rw [Nat.succ_mul]; omega
    have hblock : ∀ i < (g + 1) * (2 * len), B.runs len (n + 1) g a i = B.run g len len a i :=
      fun i hi => B.runs_apply_before len n (g + 1) (B.run g len len a) hi
    have hlow : (B.runs len (n + 1) g a).segment (g * (2 * len)) len =
        Ints.segment (fun i => B.low g (a i) (a (i + len))) (g * (2 * len)) len :=
      Ints.segment_congr fun i hle hlt => by
        rw [hblock i (by omega), B.run_apply g len a le_rfl, if_pos ⟨hle, hlt⟩]
    have hhigh : (B.runs len (n + 1) g a).segment (g * (2 * len) + len) len =
        Ints.segment (fun i => B.high g (a i) (a (i + len))) (g * (2 * len)) len := by
      rw [Ints.segment_add]
      refine Ints.segment_congr fun i hle hlt => ?_
      rw [hblock (i + len) (by omega), B.run_apply g len a le_rfl, if_neg (by omega), if_pos (by omega),
        Nat.add_sub_cancel]
    have hrest : (B.run g len len a).segment ((g + 1) * (2 * len)) (n * (2 * len)) =
        a.segment ((g + 1) * (2 * len)) (n * (2 * len)) :=
      Ints.segment_congr fun i hle _ => by
        rw [B.run_apply g len a le_rfl, if_neg (by omega), if_neg (by omega)]
    rw [B.blocks_segment_succ, ← hrest, ← ih, hsize, ← Ints.segment_append, ← Ints.segment_append, hlow, hhigh, hnext]
    rfl

/-! ### The layers of the two transforms -/

/-- The Montgomery product of a coefficient and a factor bounded as the zetas and `F` are fits a coefficient (R80 (iii),
R86). -/
theorem montMul_fits {z x : Int} (hz : -4190208 ≤ z ∧ z ≤ 4190208) (hx : FitsCoeff x) : FitsCoeff (montMul z x) := by
  have hprod : |z * x| ≤ 4190208 * 2147483648 := by
    rw [abs_mul]
    exact mul_le_mul (abs_le.mpr hz) (abs_le.mpr ⟨hx.1, hx.2.le⟩) (abs_nonneg x) (by decide)
  have hwrap := wrap32_range (z * x % 4294967296 * qinv)
  have hle := abs_le.mp hprod
  have hmont : montMul z x = (z * x - wrap32 (z * x % 4294967296 * qinv) * 8380417) / 4294967296 := rfl
  rw [FitsCoeff, hmont]
  generalize wrap32 (z * x % 4294967296 * qinv) = w at hwrap ⊢
  generalize z * x = p at hle ⊢
  omega

/-- The butterflies of a forward layer whose block 0 has zeta `k` (R92). -/
def forwardButterfly (k : Nat) : Butterfly where
  low g x y := wrap32 (x + montMul (zeta (k + g)) y)
  high g x y := wrap32 (x - montMul (zeta (k + g)) y)
  low_fits _ _ _ := wrap32_range _
  high_fits _ _ _ := wrap32_range _

/-- The butterflies of an inverse layer whose block 0 has zeta `k` (R93). -/
def inverseButterfly (k : Nat) : Butterfly where
  low _ x y := wrap32 (x + y)
  high g x y := montMul (-zeta (k - g)) (wrap32 (x - y))
  low_fits _ _ _ := wrap32_range _
  high_fits g _ _ := montMul_fits (by have := zeta_bound (k - g); omega) (wrap32_range _)

/-- The model's forward layer is the list form of its butterflies. -/
theorem nttLayer_eq_blocks (len n k g : Nat) (l : List Int) :
    nttLayer len n (k + g) l = (forwardButterfly k).blocks len n g l := by
  induction n generalizing g l with
  | zero => rfl
  | succ n ih =>
    rw [nttLayer, Butterfly.blocks, ← ih (g + 1)]
    simp only [List.zipWith_map_right]
    rfl

/-- The model's inverse layer is the list form of its butterflies. -/
theorem inttLayer_eq_blocks (len n k g : Nat) (l : List Int) :
    inttLayer len n (k - g) l = (inverseButterfly k).blocks len n g l := by
  induction n generalizing g l with
  | zero => rfl
  | succ n ih =>
    rw [inttLayer, Butterfly.blocks, ← ih (g + 1)]
    rfl

/-- The body of the forward loops is a butterfly of the layer: `a[j]` is still old when it is read again (R92). -/
theorem forwardBody_eq_assign {len : Nat} (hlen : 0 < len) (k g j : Nat) (a : Ints) :
    forwardBody (zeta (k + g)) len j a = (forwardButterfly k).assign g len j a := by
  have hne : j ≠ j + len := by omega
  simp only [forwardBody, Butterfly.assign, forwardButterfly, Ints.put, if_neg hne]

/-- The body of the inverse loops is a butterfly of the layer, its two assignments in the other order (R93). -/
theorem inverseBody_eq_assign {len : Nat} (hlen : 0 < len) (k g j : Nat) (a : Ints) :
    inverseBody (-zeta (k - g)) len j a = (inverseButterfly k).assign g len j a := by
  have hne : j + len ≠ j := by omega
  funext i
  simp only [inverseBody, Butterfly.assign, inverseButterfly, Ints.put, if_neg hne]
  by_cases hi : i = j
  · rw [if_neg (by omega), if_pos hi, if_pos hi]
  · simp only [if_neg hi]

/-! ### The running index -/

/-- One round of the loop over `start` in R92: `k` rises and block `g` is assigned. -/
def forwardRound (len : Nat) (ka : Nat × Ints) (g : Nat) : Nat × Ints :=
  (ka.1 + 1, (List.range len).foldl (fun a o => forwardBody (zeta (ka.1 + 1)) len (g * (2 * len) + o) a) ka.2)

/-- One round of the loop over `start` in R93: `k` falls and block `g` is assigned. -/
def inverseRound (len : Nat) (ka : Nat × Ints) (g : Nat) : Nat × Ints :=
  (ka.1 - 1, (List.range len).foldl (fun a o => inverseBody (-zeta (ka.1 - 1)) len (g * (2 * len) + o) a) ka.2)

/-- Rounds that each count and assign their own block assign the blocks of a layer. -/
theorem foldl_range'_eq_runs {B : Butterfly} {len : Nat} {round : Nat × Ints → Nat → Nat × Ints} {count : Nat → Nat}
    (hround : ∀ g a, round (count g, a) g = (count (g + 1), B.run g len len a)) (n g : Nat) (a : Ints) :
    (List.range' g n).foldl round (count g, a) = (count (g + n), B.runs len n g a) := by
  induction n generalizing g a with
  | zero => rfl
  | succ n ih => rw [List.range'_succ, List.foldl_cons, hround, ih, Butterfly.runs, Nat.add_right_comm, Nat.add_assoc]

/-- The rounds of a whole loop over `start`. -/
theorem foldl_range_eq_runs {B : Butterfly} {len : Nat} {round : Nat × Ints → Nat → Nat × Ints} (count : Nat → Nat)
    (hround : ∀ g a, round (count g, a) g = (count (g + 1), B.run g len len a)) (n : Nat) (a : Ints) :
    (List.range n).foldl round (count 0, a) = (count n, B.runs len n 0 a) := by
  rw [List.range_eq_range', foldl_range'_eq_runs hround, Nat.zero_add]

/-- A forward layer that begins with the index at `k` takes its zetas from `k + 1` on (R92). -/
theorem forwardStarts_eq_runs {len : Nat} (hlen : 0 < len) (k : Nat) (a : Ints) :
    forwardStarts len (k, a) = (k + 128 / len, (forwardButterfly (k + 1)).runs len (128 / len) 0 a) := by
  have hround : ∀ g a, forwardRound len (k + g, a) g = (k + (g + 1), (forwardButterfly (k + 1)).run g len len a) := by
    intro g a
    simp only [forwardRound, Nat.add_right_comm k g 1, forwardBody_eq_assign hlen]
    rw [Butterfly.run, Nat.add_right_comm, Nat.add_assoc]
  exact foldl_range_eq_runs (k + ·) hround (128 / len) a

/-- An inverse layer that begins with the index at `k` takes its zetas from `k - 1` down (R93). -/
theorem inverseStarts_eq_runs {len : Nat} (hlen : 0 < len) (k : Nat) (a : Ints) :
    inverseStarts len (k, a) = (k - 128 / len, (inverseButterfly (k - 1)).runs len (128 / len) 0 a) := by
  have hround : ∀ g a, inverseRound len (k - g, a) g = (k - (g + 1), (inverseButterfly (k - 1)).run g len len a) := by
    intro g a
    simp only [inverseRound, Nat.sub_right_comm k g 1, inverseBody_eq_assign hlen]
    rw [Butterfly.run, Nat.sub_right_comm, Nat.sub_sub]
  exact foldl_range_eq_runs (k - ·) hround (128 / len) a

/-! ### From layer to layer -/

/-- The loops stand before a layer as the model does: the running index is at `k`, and the array holds the model's 256
coefficients. -/
structure LoopsAgree (k : Nat) (ka : Nat × Ints) (l : List Int) : Prop where
  index : ka.1 = k
  coeffs : l = ka.2.segment 0 256
  fits : ∀ i, FitsCoeff (ka.2 i)

/-- A whole layer by assignments is the whole layer on the list. -/
theorem Butterfly.agree_runs (B : Butterfly) {len : Nat} (hlen : len ∣ 128) (k : Nat) {a : Ints} {l : List Int}
    (hl : l = a.segment 0 256) (hfits : ∀ i, FitsCoeff (a i)) :
    LoopsAgree k (k, B.runs len (128 / len) 0 a) (B.blocks len (128 / len) 0 l) where
  index := rfl
  coeffs := by
    have hsize : 128 / len * (2 * len) = 256 := by
      rw [Nat.mul_left_comm, Nat.div_mul_cancel hlen]
    have hrun := B.segment_runs len (128 / len) 0 a
    rw [hsize, Nat.zero_mul, ← hl] at hrun
    exact hrun.symm
  fits := B.runs_fits _ _ _ hfits

/-- A forward layer: `128 / len` zetas from `128 / len` on (R92). -/
theorem LoopsAgree.forward {len : Nat} (hlen : len ∣ 128) {ka : Nat × Ints} {l : List Int}
    (h : LoopsAgree (128 / len - 1) ka l) :
    LoopsAgree (2 * (128 / len) - 1) (forwardStarts len ka) (nttLayer len (128 / len) (128 / len) l) := by
  obtain ⟨k, a⟩ := ka
  obtain ⟨rfl, hl, hfits⟩ := h
  have hpos : 0 < len := Nat.pos_of_dvd_of_pos hlen (by decide)
  have hcount : 0 < 128 / len := Nat.div_pos (Nat.le_of_dvd (by decide) hlen) hpos
  have hfirst : 128 / len - 1 + 1 = 128 / len := Nat.sub_add_cancel hcount
  have hlast : 128 / len - 1 + 128 / len = 2 * (128 / len) - 1 := by omega
  rw [forwardStarts_eq_runs hpos, hfirst, hlast]
  exact nttLayer_eq_blocks len _ (128 / len) 0 l ▸ Butterfly.agree_runs _ hlen _ hl hfits

/-- An inverse layer: `128 / len` zetas from `256 / len - 1` down (R93). -/
theorem LoopsAgree.inverse {len : Nat} (hlen : len ∣ 128) {ka : Nat × Ints} {l : List Int}
    (h : LoopsAgree (256 / len) ka l) :
    LoopsAgree (128 / len) (inverseStarts len ka) (inttLayer len (128 / len) (256 / len - 1) l) := by
  obtain ⟨k, a⟩ := ka
  obtain ⟨rfl, hl, hfits⟩ := h
  have hpos : 0 < len := Nat.pos_of_dvd_of_pos hlen (by decide)
  have hdouble : 256 / len = 2 * (128 / len) := Nat.mul_div_assoc 2 hlen
  have hlast : 256 / len - 128 / len = 128 / len := by omega
  rw [inverseStarts_eq_runs hpos, hlast]
  exact inttLayer_eq_blocks len _ (256 / len - 1) 0 l ▸ Butterfly.agree_runs _ hlen _ hl hfits

/-- The forward transform gives the coefficients that the forward loops leave (R92). -/
theorem nttInts_segment {a : Ints} (hfits : ∀ i, FitsCoeff (a i)) :
    nttInts (a.segment 0 256) = (forwardLoops a).segment 0 256 ∧ ∀ i, FitsCoeff (forwardLoops a i) := by
  have h0 : LoopsAgree 0 (0, a) (a.segment 0 256) := ⟨rfl, rfl, hfits⟩
  have h128 := h0.forward (len := 128) (by decide)
  have h64 := h128.forward (len := 64) (by decide)
  have h32 := h64.forward (len := 32) (by decide)
  have h16 := h32.forward (len := 16) (by decide)
  have h8 := h16.forward (len := 8) (by decide)
  have h4 := h8.forward (len := 4) (by decide)
  have h2 := h4.forward (len := 2) (by decide)
  have h1 := h2.forward (len := 1) (by decide)
  simp only [nttInts, forwardLoops, List.foldl_cons, List.foldl_nil]
  exact ⟨h1.coeffs, h1.fits⟩

/-- The inverse transform gives the coefficients that the inverse loops leave (R93). -/
theorem inttInts_segment {a : Ints} (hfits : ∀ i, FitsCoeff (a i)) :
    inttInts (a.segment 0 256) = (inverseLoops a).segment 0 256 ∧ ∀ i, FitsCoeff (inverseLoops a i) := by
  have h0 : LoopsAgree 256 (256, a) (a.segment 0 256) := ⟨rfl, rfl, hfits⟩
  have h1 := h0.inverse (len := 1) (by decide)
  have h2 := h1.inverse (len := 2) (by decide)
  have h4 := h2.inverse (len := 4) (by decide)
  have h8 := h4.inverse (len := 8) (by decide)
  have h16 := h8.inverse (len := 16) (by decide)
  have h32 := h16.inverse (len := 32) (by decide)
  have h64 := h32.inverse (len := 64) (by decide)
  have h128 := h64.inverse (len := 128) (by decide)
  constructor
  · simp only [inttInts, List.foldl_cons, List.foldl_nil]
    rw [h128.coeffs, Ints.segment, Ints.segment, List.map_map]
    rfl
  · intro i
    exact montMul_fits (by decide) (h128.fits i)

/-! ### The commands -/

/-- A register as the array the loops begin with: its lanes, and 0 outside. -/
def State.laneArray (s : State) (r : PReg) : Ints := fun k => if h : k < 256 then s.lane r ⟨k, h⟩ else 0

/-- The list of a register's integers is a segment of its array. -/
theorem State.ints_eq_segment (s : State) (r : PReg) : ints s.p[r] = (s.laneArray r).segment 0 256 := by
  refine List.ext_getElem (by simp) fun j hj _ => ?_
  rw [ints_length] at hj
  rw [ints_getElem _ j hj, Ints.segment_getElem, Nat.zero_add, State.laneArray, dif_pos hj]
  rfl

/-- The array of a register is in the range of a coefficient. -/
theorem State.laneArray_fits (s : State) (r : PReg) (i : Nat) : FitsCoeff (s.laneArray r i) := by
  unfold State.laneArray
  split
  · exact lane_range ..
  · exact ⟨by decide, by decide⟩

/-- The ring element made of an array in range holds the array's values: no lane wraps. -/
theorem ringOfInts_segment_getElem {a : Ints} (hfits : ∀ i, FitsCoeff (a i)) (j : Fin 256) :
    (ringOfInts (a.segment 0 256))[j].toInt = a j := by
  calc (ringOfInts (a.segment 0 256))[j].toInt = (coeff (a (0 + j))).toInt := by
        rw [Fin.getElem_fin, ringOfInts_getElem (Ints.segment_length a 0 256) j j.isLt, Ints.segment_getElem]
    _ = wrap32 (a j) := by rw [coeff_toInt, Nat.zero_add]
    _ = a j := wrap32_of_range (hfits j)

/-- Settles O26: layer by layer, the blocks cut from the list are the blocks assigned in the array. -/
theorem nttRunsTheForwardLoops : Obligations.NttRunsTheForwardLoops := by
  intro s pd pa
  obtain ⟨hloops, hfits⟩ := nttInts_segment (s.laneArray_fits pa)
  refine lanesBecome_of_unary rfl fun j => ?_
  rw [nttRing, s.ints_eq_segment, hloops]
  exact ringOfInts_segment_getElem hfits j

/-- Settles O27: as for NTT, the final scaling being applied to each coefficient of the list and of the array. -/
theorem inttRunsTheInverseLoops : Obligations.InttRunsTheInverseLoops := by
  intro s pd pa
  obtain ⟨hloops, hfits⟩ := inttInts_segment (s.laneArray_fits pa)
  refine lanesBecome_of_unary rfl fun j => ?_
  rw [inttRing, s.ints_eq_segment, hloops]
  exact ringOfInts_segment_getElem hfits j

end Sys2Proof.Machine
end

section
/-! PROOFS. The commands of the rounding unit (R102 to R107): the arithmetic of each scalar function (R100, R101, R108,
R109) with the range of its values, which says that no lane wraps, and what a lane-wise command of format P3 leaves in
the lanes of its destination. -/

namespace Sys2Proof.Machine

/-! ### Lanes of a format P3 command -/

/-- The format P3 counterpart of `lanesBecome_of_lanes1` (R53, R125). -/
theorem lanesBecome_of_lanes2 {s : State} {i : Instr} {pd pa pb : PReg} {g : Int → Int → Int}
    (hexec : exec i s = .next (binary (lanes2 g) pd pa pb s))
    (hrange : ∀ j, -2147483648 ≤ g (s.lane pa j) (s.lane pb j) ∧ g (s.lane pa j) (s.lane pb j) < 2147483648) :
    lanesBecome s i pd fun j => g (s.lane pa j) (s.lane pb j) :=
  ⟨_, completesInto_of_setPoly hexec, fun j => by
    calc (s.setPoly pd (lanes2 g s.p[pa] s.p[pb])).complete.lane pd j = (lanes2 g s.p[pa] s.p[pb])[j].toInt :=
          lane_setPoly_complete s pd _ j
      _ = (coeff (g (s.lane pa j) (s.lane pb j))).toInt :=
          congrArg BitVec.toInt (lanes2_getElem g s.p[pa] s.p[pb] j j.isLt)
      _ = wrap32 (g (s.lane pa j) (s.lane pb j)) := coeff_toInt _
      _ = g (s.lane pa j) (s.lane pb j) := wrap32_of_range (hrange j)⟩

/-! ### Power2Round -/

/-- The two parts add up to the argument, and the low part is the centred remainder (R100). -/
theorem power2Round_spec (a : Int) :
    a = 8192 * (power2Round a).1 + (power2Round a).2 ∧ -4096 < (power2Round a).2 ∧ (power2Round a).2 ≤ 4096 := by
  simp only [power2Round]
  omega

/-- P2RHI leaves the high parts: that of a coefficient is a coefficient (R102). -/
theorem p2rhi_lanesBecome (s : State) (pd pa : PReg) :
    lanesBecome s (.p2rhi pd pa) pd fun j => (power2Round (s.lane pa j)).1 :=
  lanesBecome_of_lanes1 (g := fun a => (power2Round a).1) rfl fun j => by
    have ha := lane_range s pa j
    have hspec := power2Round_spec (s.lane pa j)
    omega

/-- P2RLO leaves the low parts (R103). -/
theorem p2rlo_lanesBecome (s : State) (pd pa : PReg) :
    lanesBecome s (.p2rlo pd pa) pd fun j => (power2Round (s.lane pa j)).2 :=
  lanesBecome_of_lanes1 (g := fun a => (power2Round a).2) rfl fun j => by
    have hspec := power2Round_spec (s.lane pa j)
    omega

/-! ### Decompose -/

/-- `Decompose` with the numbers of the parameter set written out (R101). -/
theorem decompose_eq (a : Int) :
    decompose a =
      if a % 8380417 - centredMod (a % 8380417) 523776 = 8380416 then (0, centredMod (a % 8380417) 523776 - 1)
      else ((a % 8380417 - centredMod (a % 8380417) 523776) / 523776, centredMod (a % 8380417) 523776) := rfl

/-- The centred remainder modulo `2 * GAMMA2` differs from its argument by a multiple of the modulus and lies in the
half-open interval about 0 (R6). -/
theorem centredMod_twoGamma2_spec (r : Int) :
    r = 523776 * ((r - centredMod r 523776) / 523776) + centredMod r 523776 ∧
      -261888 < centredMod r 523776 ∧ centredMod r 523776 ≤ 261888 := by
  unfold centredMod
  split <;> omega

/-- Below the top bucket: the decomposition proper. `q - 1` is `16 * 523776`, so the multiple that is rounded to is one
of the sixteen below it (R101). -/
theorem decompose_of_le {a : Int} (h : a % 8380417 ≤ 8118528) :
    a % 8380417 = 523776 * (decompose a).1 + (decompose a).2 ∧
      -261888 < (decompose a).2 ∧ (decompose a).2 ≤ 261888 ∧ 0 ≤ (decompose a).1 ∧ (decompose a).1 ≤ 15 := by
  have hcentred := centredMod_twoGamma2_spec (a % 8380417)
  have hnot_top : ¬ a % 8380417 - centredMod (a % 8380417) 523776 = 8380416 := by omega
  rw [decompose_eq, if_neg hnot_top]
  dsimp only
  omega

/-- In the top bucket the residue is rounded to `q - 1`, folded into the high part 0 (R101). -/
theorem decompose_of_gt {a : Int} (h : 8118528 < a % 8380417) : decompose a = (0, a % 8380417 - 8380417) := by
  have hcentred := centredMod_twoGamma2_spec (a % 8380417)
  have htop : a % 8380417 - centredMod (a % 8380417) 523776 = 8380416 := by omega
  rw [decompose_eq, if_pos htop, Prod.mk.injEq]
  exact ⟨rfl, by omega⟩

/-- The range of both parts, the top bucket included (R104, R105). -/
theorem decompose_range (a : Int) :
    (0 ≤ (decompose a).1 ∧ (decompose a).1 ≤ 15) ∧ -261888 ≤ (decompose a).2 ∧ (decompose a).2 ≤ 261888 := by
  rcases le_or_gt (a % 8380417) 8118528 with h | h
  · have hparts := decompose_of_le h
    omega
  · rw [decompose_of_gt h]
    dsimp only
    omega

/-- DECHI leaves the high parts (R104). -/
theorem dechi_lanesBecome (s : State) (pd pa : PReg) :
    lanesBecome s (.dechi pd pa) pd fun j => (decompose (s.lane pa j)).1 :=
  lanesBecome_of_lanes1 (g := fun a => (decompose a).1) rfl fun j => by
    have hrange := decompose_range (s.lane pa j)
    omega

/-- DECLO leaves the low parts (R105). -/
theorem declo_lanesBecome (s : State) (pd pa : PReg) :
    lanesBecome s (.declo pd pa) pd fun j => (decompose (s.lane pa j)).2 :=
  lanesBecome_of_lanes1 (g := fun a => (decompose a).2) rfl fun j => by
    have hrange := decompose_range (s.lane pa j)
    omega

/-! ### Hints -/

/-- `MakeHint` with the number of the parameter set written out (R108). -/
theorem makeHint_eq (a0 a1 : Int) :
    makeHint a0 a1 = if a0 > 261888 ∨ a0 < -261888 ∨ (a0 = -261888 ∧ a1 ≠ 0) then 1 else 0 := rfl

/-- A made hint is a bit (R106). -/
theorem makeHint_range (a0 a1 : Int) : 0 ≤ makeHint a0 a1 ∧ makeHint a0 a1 ≤ 1 := by
  rw [makeHint_eq]
  split <;> decide

/-- `UseHint` in terms of the two parts of `Decompose` (R109). -/
theorem useHint_eq (a h : Int) :
    useHint a h = if h = 0 then (decompose a).1
      else if (decompose a).2 > 0 then ((decompose a).1 + 1) % 16 else ((decompose a).1 - 1) % 16 := rfl

/-- A corrected high part is a high part (R107). -/
theorem useHint_range (a h : Int) : 0 ≤ useHint a h ∧ useHint a h ≤ 15 := by
  obtain ⟨hhigh, -⟩ := decompose_range a
  rw [useHint_eq]
  split
  · exact hhigh
  · split <;> omega

/-- USEHINT leaves the corrected high parts (R107). -/
theorem usehint_lanesBecome (s : State) (pd pa pb : PReg) :
    lanesBecome s (.usehint pd pa pb) pd fun j => useHint (s.lane pa j) (s.lane pb j) :=
  lanesBecome_of_lanes2 (g := useHint) rfl fun j => by
    have hrange := useHint_range (s.lane pa j) (s.lane pb j)
    omega

/-! ### The commands -/

/-- Settles O33: the lanes of the two results are the two parts of `Power2Round`. -/
theorem power2RoundLanes : Obligations.Power2RoundLanes := by
  intro s pd pe pa
  obtain ⟨t, ht, hhigh⟩ := p2rhi_lanesBecome s pd pa
  obtain ⟨u, hu, hlow⟩ := p2rlo_lanesBecome s pe pa
  refine ⟨t, u, ht, hu, fun j => ?_⟩
  rw [hhigh, hlow]
  exact power2Round_spec (s.lane pa j)

/-- Settles O34: the lanes of the two results are the two parts of `Decompose`, below and in the top bucket. -/
theorem decomposeLanes : Obligations.DecomposeLanes := by
  intro s pd pe pa
  obtain ⟨t, ht, hhigh⟩ := dechi_lanesBecome s pd pa
  obtain ⟨u, hu, hlow⟩ := declo_lanesBecome s pe pa
  refine ⟨t, u, ht, hu, fun j => ?_⟩
  rw [hhigh, hlow]
  exact ⟨decompose_of_le, fun htop => Prod.mk.inj (decompose_of_gt htop)⟩

/-- Settles O35: MKHINT is `MakeHint` on every lane, and its values fit a coefficient. -/
theorem mkhintLanes : Obligations.MkhintLanes :=
  fun s _ pa pb => lanesBecome_of_lanes2 (g := makeHint) rfl fun j => by
    have hrange := makeHint_range (s.lane pa j) (s.lane pb j)
    omega

/-- Settles O36: USEHINT reads from its argument the parts that DECHI and DECLO leave. -/
theorem usehintLanes : Obligations.UsehintLanes := by
  intro s pd pa pb
  obtain ⟨t, ht, hused⟩ := usehint_lanesBecome s pd pa pb
  obtain ⟨u, ⟨hdechi, -⟩, hhigh⟩ := dechi_lanesBecome s pa pa
  obtain ⟨v, ⟨hdeclo, -⟩, hlow⟩ := declo_lanesBecome s pa pa
  refine ⟨t, u, v, ht, hdechi, hdeclo, fun j => ?_⟩
  rw [hused, hhigh, hlow]
  exact useHint_eq (s.lane pa j) (s.lane pb j)

end Sys2Proof.Machine
end

section
/-! PROOFS. SAMPG (R113): the lanes of an unpacked polynomial (R131, R133), the bits of its fields as bits of the byte
sequence they are cut from, and that no lane of format z wraps (R142). -/

namespace Sys2Proof.Machine

/-! ### Lanes of an unpacked polynomial -/

/-- The polynomial an unpacker makes, with the inverse map of its format taken on the fields themselves: the model reads
the list of fields as integers first (R133). -/
theorem unpackRing_eq (f : PackFormat) (bs : List Byte) :
    unpackRing f bs = ringOfInts ((unpackBits f.width bs).map fun v : Nat => f.restored v) := by
  simp only [unpackRing, bind_pure_comp, List.map_eq_map, List.map_map, Function.comp_def]

/-- Lane `j` that an unpacker leaves is the inverse map of its format on field `j`, wrapped (R125, R133). -/
theorem unpackRing_toInt (f : PackFormat) (bs : List Byte) (j : Fin 256) :
    (unpackRing f bs)[j].toInt = wrap32 (f.restored ((unpackBits f.width bs)[j.val]'(by simp) : Nat)) := by
  rw [unpackRing_eq, Fin.getElem_fin, ringOfInts_getElem (by simp) j.val j.isLt, coeff_toInt, List.getElem_map]

/-- Lane `j` that format z leaves is `2^19` less field `j`: a number from 20 bits does not wrap (R142). -/
theorem unpackRing_formatZ_toInt (bs : List Byte) (j : Fin 256) :
    (unpackRing formatZ bs)[j].toInt = 524288 - ((unpackBits 20 bs)[j.val]'(by simp) : Nat) := by
  have hfield := unpackBits_lt 20 bs _ (List.getElem_mem (n := j.val) (by simp))
  rw [unpackRing_toInt]
  exact wrap32_of_range (by simp only [formatZ]; omega)

/-- Bit `b` of field `i` of the first `32 * w` bytes of a sequence is bit `w * i + b` of the sequence (R131). -/
theorem unpackBits_range_testBit {w : Nat} (byte : Nat → Byte) {i b : Nat} (hi : i < 256) (hb : b < w) :
    ((unpackBits w ((List.range (32 * w)).map byte))[i]'(by simpa using hi)).testBit b =
      (byte ((w * i + b) / 8)).getLsbD ((w * i + b) % 8) := by
  have hbyte : (w * i + b) / 8 < 32 * w := by
    have hrow : w * i ≤ w * 255 := Nat.mul_le_mul_left w (by omega)
    omega
  rw [unpackBits_testBit w _ i b hi hb, List.getElem?_map, List.getElem?_range hbyte, Option.map_some, Option.getD_some]

/-! ### The command -/

/-- Settles O40: SAMPG is one write of the polynomial unpacked from the 640 bytes that come next, and the number asked
for lane `j` is field `j` of those bytes. -/
theorem sampgUnpacksTheStream : Obligations.SampgUnpacksTheStream := by
  intro s pd
  refine ⟨_, execSampg_eq pd s, rfl, fun j => ?lanes, fun r hr => State.setPoly_read_other s pd r _ hr⟩
  case lanes =>
    exact ⟨_, unpackBits_lt 20 _ _ (List.getElem_mem _),
      (lane_setPoly_complete s pd _ j).trans (unpackRing_formatZ_toInt _ j),
      fun b hb => unpackBits_range_testBit s.xs.byteAt j.isLt hb⟩

end Sys2Proof.Machine
end

section
/-! PROOFS. The point-wise commands (R120 to R123): the wrap as the balanced remainder, the Montgomery reducer as the
equation that fixes its result (R80, R86), and the lanes each command leaves. -/

namespace Sys2Proof.Machine

/-! ### Lanes of a format P3 command that is not one lane-wise function -/

/-- The format P3 counterpart of `lanesBecome_of_unary` (R53). -/
theorem lanesBecome_of_binary {s : State} {i : Instr} {pd pa pb : PReg}
    {g : RingElement → RingElement → RingElement} {f : Fin 256 → Int} (hexec : exec i s = .next (binary g pd pa pb s))
    (hlanes : ∀ j : Fin 256, (g s.p[pa] s.p[pb])[j].toInt = f j) : lanesBecome s i pd f :=
  ⟨_, completesInto_of_setPoly hexec, fun j => (lane_setPoly_complete s pd _ j).trans (hlanes j)⟩

/-- The value in a lane of a lane-wise function is the wrap of what the function gives (R125). -/
theorem lanes2_toInt (f : Int → Int → Int) (u v : RingElement) (j : Fin 256) :
    (lanes2 f u v)[j].toInt = wrap32 (f u[j].toInt v[j].toInt) :=
  (congrArg BitVec.toInt (lanes2_getElem f u v j j.isLt)).trans (coeff_toInt _)

/-! ### The scalar functions -/

/-- The wrap of R6 is the balanced remainder modulo `2^32`. -/
theorem wrap32_eq_bmod (x : Int) : wrap32 x = x.bmod (2 ^ 32) := by
  calc wrap32 x = (coeff x).toInt := (coeff_toInt x).symm
    _ = x.bmod (2 ^ 32) := BitVec.toInt_ofInt x

/-- The division in the Montgomery reducer is exact: the multiple of `q` it subtracts is congruent to its argument modulo
`2^32`, because `QINV * q` is congruent to 1 (R80 (i)). -/
theorem montRed_mul (a : Int) :
    montRed a * 4294967296 = a - wrap32 (a % 4294967296 * qinv) * Config.q := by
  have hinverse : qinv * Config.q ≡ 1 [ZMOD 4294967296] := by
    rw [Int.ModEq, qinv_mul_q]
    rfl
  have hmultiple : wrap32 (a % 4294967296 * qinv) * Config.q ≡ a [ZMOD 4294967296] := by
    calc wrap32 (a % 4294967296 * qinv) * Config.q
        ≡ a % 4294967296 * qinv * Config.q [ZMOD 4294967296] := Int.ModEq.mul_right _ (wrap32_emod _)
      _ ≡ a * qinv * Config.q [ZMOD 4294967296] := ((Int.mod_modEq a _).mul_right _).mul_right _
      _ = a * (qinv * Config.q) := mul_assoc ..
      _ ≡ a * 1 [ZMOD 4294967296] := hinverse.mul_left a
      _ = a := mul_one a
  exact Int.ediv_mul_cancel hmultiple.dvd

/-- The model's Montgomery product satisfies the equation that fixes it (R80, R86). -/
theorem montMul_isMontMul (x y : Int) : IsMontMul x y (montMul x y) := by
  obtain ⟨hlow, hhigh⟩ := wrap32_range (x * y % 4294967296 * qinv)
  exact ⟨_, hlow, hhigh, montRed_mul (x * y)⟩

/-- The Montgomery product of two coefficients fits a coefficient: the product is at most `2^62` in magnitude, so the
quotient is at most `2^30 + q / 2` (R80 (iii)). -/
theorem IsMontMul.fits {x y m : Int} (hx : FitsCoeff x) (hy : FitsCoeff y) (h : IsMontMul x y m) : FitsCoeff m := by
  obtain ⟨t, hlow, hhigh, hm⟩ := h
  have hprod : |x * y| ≤ 2147483648 * 2147483648 := by
    rw [abs_mul]
    exact mul_le_mul (abs_le.mpr ⟨hx.1, hx.2.le⟩) (abs_le.mpr ⟨hy.1, hy.2.le⟩) (abs_nonneg y) (by decide)
  have hle := abs_le.mp hprod
  generalize x * y = p at hm hle
  unfold FitsCoeff
  omega

/-- The Montgomery product of two lanes does not wrap (R122). -/
theorem montMul_lanes_fits (s : State) (pa pb : PReg) (j : Fin 256) :
    FitsCoeff (montMul (s.lane pa j) (s.lane pb j)) :=
  (montMul_isMontMul _ _).fits (lane_range s pa j) (lane_range s pb j)

/-! ### The commands -/

/-- PADD leaves the wrapped sums (R120). -/
theorem padd_lanesBecome (s : State) (pd pa pb : PReg) :
    lanesBecome s (.padd pd pa pb) pd fun j => wrap32 (s.lane pa j + s.lane pb j) :=
  lanesBecome_of_lanes2 (g := fun a b => wrap32 (a + b)) rfl fun _ => wrap32_range _

/-- PSUB leaves the wrapped differences (R121). -/
theorem psub_lanesBecome (s : State) (pd pa pb : PReg) :
    lanesBecome s (.psub pd pa pb) pd fun j => wrap32 (s.lane pa j - s.lane pb j) :=
  lanesBecome_of_lanes2 (g := fun a b => wrap32 (a - b)) rfl fun _ => wrap32_range _

/-- PWMUL leaves the Montgomery products (R122). -/
theorem pwmul_lanesBecome (s : State) (pd pa pb : PReg) :
    lanesBecome s (.pwmul pd pa pb) pd fun j => montMul (s.lane pa j) (s.lane pb j) :=
  lanesBecome_of_lanes2 (g := montMul) rfl (montMul_lanes_fits s pa pb)

/-- PWMAC leaves the wrapped sums of the old accumulator and the Montgomery products; those fit a coefficient, so holding
them in one before the addition changes nothing (R123). -/
theorem pwmac_lanesBecome (s : State) (pd pa pb : PReg) :
    lanesBecome s (.pwmac pd pa pb) pd fun j => wrap32 (s.lane pd j + montMul (s.lane pa j) (s.lane pb j)) :=
  lanesBecome_of_binary rfl fun j => by
    have hproduct : (lanes2 montMul s.p[pa] s.p[pb])[j].toInt = montMul (s.lane pa j) (s.lane pb j) :=
      (lanes2_toInt ..).trans (wrap32_of_range (montMul_lanes_fits s pa pb j))
    rw [lanes2_toInt, hproduct, wrap32_of_range (wrap32_range _)]
    rfl

/-- Settles O45: the wrap of each lane is the balanced remainder. -/
theorem paddAndPsubWrap : Obligations.PaddAndPsubWrap := by
  intro s pd pa pb
  simp only [← wrap32_eq_bmod]
  exact ⟨padd_lanesBecome s pd pa pb, psub_lanesBecome s pd pa pb⟩

/-- Settles O46: each lane is the model's Montgomery product, which satisfies the equation of R80. -/
theorem pwmulMultipliesEveryLane : Obligations.PwmulMultipliesEveryLane := by
  intro s pd pa pb
  obtain ⟨t, ht, hlanes⟩ := pwmul_lanesBecome s pd pa pb
  refine ⟨t, ht, fun j => ?_⟩
  rw [hlanes]
  exact montMul_isMontMul _ _

/-- Settles O47: the Montgomery product is the `m` asked for, and the wrap of the sum is the balanced remainder. -/
theorem pwmacAccumulatesEveryLane : Obligations.PwmacAccumulatesEveryLane := by
  intro s pd pa pb
  obtain ⟨t, ht, hlanes⟩ := pwmac_lanesBecome s pd pa pb
  refine ⟨t, ht, fun j => ⟨_, montMul_isMontMul _ _, ?_⟩⟩
  exact (hlanes j).trans (wrap32_eq_bmod _)

end Sys2Proof.Machine
end

section
/-! PROOFS. Packing and unpacking as exact inverses (R144): `PackBits` and `UnpackBits` are inverse on the fields (R131),
the two maps of a format are inverse on the values (R130), and the range check lets through exactly what fits (R132). -/

namespace Sys2Proof.Machine

/-! ### The maps of a format -/

/-- The maps of a format undo each other, and what its fields stand for does not wrap in a coefficient (R130). -/
structure PackFormat.Lossless (f : PackFormat) : Prop where
  width_pos : 0 < f.width
  restored_stored : ∀ c, f.restored (f.stored c) = c
  stored_restored : ∀ v, f.stored (f.restored v) = v
  restored_fits : ∀ v : Nat, v < 2 ^ f.width → FitsCoeff (f.restored v)

/-- A format that stores values as they stand, in fields narrower than a coefficient, is lossless. -/
theorem lossless_id {w : Nat} (hpos : 0 < w) (hw : 2 ^ w ≤ 2147483648) : PackFormat.Lossless ⟨w, id, id⟩ where
  width_pos := hpos
  restored_stored _ := rfl
  stored_restored _ := rfl
  restored_fits v (hv : v < 2 ^ w) := by
    simp only [FitsCoeff, id_eq]
    omega

/-- A format that stores `k` less the value, the fields and `k` being within a coefficient, is lossless. -/
theorem lossless_sub {w k : Nat} (hpos : 0 < w) (hw : 2 ^ w ≤ 2147483648) (hk : k < 2147483648) :
    PackFormat.Lossless ⟨w, fun c => k - c, fun v => k - v⟩ where
  width_pos := hpos
  restored_stored := sub_sub_cancel _
  stored_restored := sub_sub_cancel _
  restored_fits v (hv : v < 2 ^ w) := by
    simp only [FitsCoeff]
    omega

theorem formatT1_lossless : formatT1.Lossless := lossless_id (by decide) (by decide)
theorem formatT0_lossless : formatT0.Lossless := lossless_sub (k := 4096) (by decide) (by decide) (by decide)
theorem formatEta_lossless : formatEta.Lossless := lossless_sub (k := 2) (by decide) (by decide) (by decide)
theorem formatZ_lossless : formatZ.Lossless := lossless_sub (k := 524288) (by decide) (by decide) (by decide)
theorem formatW1_lossless : formatW1.Lossless := lossless_id (by decide) (by decide)

/-! ### Ring elements and their packed images -/

/-- The ring element made of a ring element's own integers is that ring element. -/
theorem ringOfInts_ints (v : RingElement) : ringOfInts (ints v) = v := by
  apply Vector.ext
  intro j hj
  rw [ringOfInts_getElem (ints_length v) j hj, ints_getElem v j hj, coeff_of_toInt]

/-- Every coefficient of the ring element has a stored value that fits the format's field (R130, R132). -/
def PackFormat.Admits (f : PackFormat) (v : RingElement) : Prop := ∀ x ∈ storedValues f v, 0 ≤ x ∧ x < 2 ^ f.width

/-- The bytes that a pack command writes for an admitted ring element (R132). -/
def packRing (f : PackFormat) (v : RingElement) : List Byte := packBits f.width ((storedValues f v).map Int.toNat)

@[simp] theorem packRing_length (f : PackFormat) (v : RingElement) : (packRing f v).length = 32 * f.width :=
  packBits_length _ _

/-- The stored values of an unpacked ring element are the fields it was unpacked from. -/
theorem storedValues_unpackRing {f : PackFormat} (hf : f.Lossless) (bs : List Byte) :
    storedValues f (unpackRing f bs) = (unpackBits f.width bs).map fun v : Nat => (v : Int) := by
  apply List.ext_getElem (by simp [storedValues])
  intro j hl hr
  have hj : j < 256 := by simpa using hr
  have hfield := hf.restored_fits _ (unpackBits_lt f.width bs _ (List.getElem_mem (n := j) (by simpa using hj)))
  have hlane := (unpackRing_toInt f bs ⟨j, hj⟩).trans (wrap32_of_range hfield)
  simp only [storedValues, List.getElem_map, ints_getElem _ j hj]
  exact (congrArg f.stored hlane).trans (hf.stored_restored _)

/-- Every unpacked ring element can be packed (R144 (b): no `RANGE`). -/
theorem PackFormat.Lossless.admits_unpackRing {f : PackFormat} (hf : f.Lossless) (bs : List Byte) :
    f.Admits (unpackRing f bs) := by
  intro x hx
  rw [storedValues_unpackRing hf] at hx
  obtain ⟨v, hv, rfl⟩ := List.mem_map.mp hx
  exact ⟨Int.natCast_nonneg v, by exact_mod_cast unpackBits_lt f.width bs v hv⟩

/-- Packing an unpacked ring element gives its bytes back. -/
theorem packRing_unpackRing {f : PackFormat} (hf : f.Lossless) {bs : List Byte} (hl : bs.length = 32 * f.width) :
    packRing f (unpackRing f bs) = bs := by
  have hvalues : (storedValues f (unpackRing f bs)).map Int.toNat = unpackBits f.width bs := by
    simp [storedValues_unpackRing hf, Function.comp_def]
  rw [packRing, hvalues, packBits_unpackBits hf.width_pos bs hl]

/-- Unpacking a packed ring element gives it back. -/
theorem unpackRing_packRing {f : PackFormat} (hf : f.Lossless) {v : RingElement} (hv : f.Admits v) :
    unpackRing f (packRing f v) = v := by
  have hfields : unpackBits f.width (packRing f v) = (storedValues f v).map Int.toNat := by
    refine unpackBits_packBits _ (by simp [storedValues]) fun n hn => ?_
    obtain ⟨x, hx, rfl⟩ := List.mem_map.mp hn
    obtain ⟨hlow, hhigh⟩ := hv x hx
    exact (Int.toNat_lt hlow).mpr (by exact_mod_cast hhigh)
  have hints : (unpackBits f.width (packRing f v)).map (fun n : Nat => f.restored n) = ints v := by
    rw [hfields, List.map_map]
    calc (storedValues f v).map ((fun n : Nat => f.restored n) ∘ Int.toNat)
        = (storedValues f v).map f.restored :=
          List.map_congr_left fun x hx => congrArg f.restored (Int.toNat_of_nonneg (hv x hx).1)
      _ = ints v := by simp [storedValues, Function.comp_def, hf.restored_stored]
  rw [unpackRing_eq, hints, ringOfInts_ints]

/-! ### The commands -/

/-- A pack command either finds its bytes in `BUF` and all stored values in their fields, and completes, or takes a
fault (R132). -/
theorem pack_cases (i : Instr) (f : PackFormat) (pa : PReg) (addr : Nat) (s : State) :
    (addr + 32 * f.width ≤ 8192 ∧ f.Admits s.p[pa] ∧
      pack i f pa addr s = (s.storeBytes addr (packRing f s.p[pa])).complete) ∨
    ((pack i f pa addr s).err = true ∧ (addr + 32 * f.width ≤ 8192 → ¬ f.Admits s.p[pa])) := by
  unfold pack buffered
  split
  · next haddr =>
    dsimp only
    cases hk : firstMisfit f.width (storedValues f s.p[pa]) with
    | none => exact .inl ⟨haddr, (firstMisfit_eq_none _ _).mp hk, rfl⟩
    | some k =>
      refine .inr ⟨rfl, fun _ hadmits => ?_⟩
      rw [(firstMisfit_eq_none _ _).mpr hadmits] at hk
      cases hk
  · next haddr => exact .inr ⟨rfl, fun h => absurd h haddr⟩

/-- A pack command whose bytes lie in `BUF` and whose stored values all fit completes (R132). -/
theorem pack_eq_storeBytes (i : Instr) {f : PackFormat} {pa : PReg} {addr : Nat} {s : State}
    (haddr : addr + 32 * f.width ≤ 8192) (hadmits : f.Admits s.p[pa]) :
    pack i f pa addr s = (s.storeBytes addr (packRing f s.p[pa])).complete := by
  rcases pack_cases i f pa addr s with ⟨-, -, heq⟩ | ⟨-, hfault⟩
  · exact heq
  · exact absurd hadmits (hfault haddr)

/-- An unpack command whose bytes lie in `BUF` completes (R133). -/
theorem unpack_eq_setPoly (i : Instr) {f : PackFormat} {pd : PReg} {addr : Nat} {s : State}
    (haddr : addr + 32 * f.width ≤ 8192) :
    unpack i f pd addr s = (s.setPoly pd (unpackRing f (s.buf.readBytes addr (32 * f.width)))).complete :=
  if_pos haddr

/-- Unpacking after packing: a pack that raised no fault has written the image of an admitted register, and the image
unpacks to it (R144 (a)). -/
theorem unpack_pack {f : PackFormat} (hf : f.Lossless) (i j : Instr) {s : State} {pa : PReg} (pd : PReg) {addr : Nat}
    (herr : (pack i f pa addr s).err = false) :
    (unpack j f pd addr (pack i f pa addr s)).err = false ∧
      (unpack j f pd addr (pack i f pa addr s)).p[pd] = s.p[pa] := by
  rcases pack_cases i f pa addr s with ⟨haddr, hadmits, heq⟩ | ⟨hfault, -⟩
  · have hread : (pack i f pa addr s).buf.readBytes addr (32 * f.width) = packRing f s.p[pa] := by
      rw [heq, ← packRing_length f s.p[pa]]
      exact Memory.readBytes_writeBytes ..
    rw [unpack_eq_setPoly j haddr, hread, unpackRing_packRing hf hadmits]
    exact ⟨herr, State.setPoly_read_same ..⟩
  · rw [hfault] at herr
    cases herr

/-- Packing after unpacking: an unpacked register is admitted, and its image is the bytes it came from (R144 (b)). -/
theorem pack_unpack {f : PackFormat} (hf : f.Lossless) (i j : Instr) {s : State} (pd : PReg) {addr addr2 : Nat}
    (haddr : addr + 32 * f.width ≤ 8192) (haddr2 : addr2 + 32 * f.width ≤ 8192) :
    (pack i f pd addr2 (unpack j f pd addr s)).err = s.err ∧
      ∀ m < 32 * f.width, (pack i f pd addr2 (unpack j f pd addr s)).buf.read (addr2 + m) = s.buf.read (addr + m) := by
  have hreg : (unpack j f pd addr s).p[pd] = unpackRing f (s.buf.readBytes addr (32 * f.width)) := by
    rw [unpack_eq_setPoly j haddr]
    exact State.setPoly_read_same ..
  rw [pack_eq_storeBytes i haddr2 (hreg ▸ hf.admits_unpackRing _), hreg,
    packRing_unpackRing hf (Memory.readBytes_length ..), unpack_eq_setPoly j haddr]
  refine ⟨rfl, fun m hm => ?_⟩
  calc (s.buf.writeBytes addr2 (s.buf.readBytes addr (32 * f.width))).read (addr2 + m)
      = (s.buf.readBytes addr (32 * f.width))[m]'(by simpa using hm) := Memory.read_writeBytes_inside ..
    _ = s.buf.read (addr + m) := Memory.readBytes_getElem _ _ _ _ hm

/-- The pack and unpack commands of a lossless format are exact inverses (R144). -/
theorem exactInverses_of_lossless {f : PackFormat} (hf : f.Lossless) {pk up : PReg → Nat → Instr}
    (hpk : ∀ pa addr s, exec (pk pa addr) s = .next (pack (pk pa addr) f pa addr s))
    (hup : ∀ pd addr s, exec (up pd addr) s = .next (unpack (up pd addr) f pd addr s)) :
    exactInverses pk up (32 * f.width) := by
  constructor
  case left =>
    intro s t pa pd addr _ hexec herr
    rw [hpk] at hexec
    cases hexec
    exact ⟨_, hup .., unpack_pack hf _ _ pd herr⟩
  case right =>
    intro s t pd addr addr2 herr haddr haddr2 hexec
    rw [hup] at hexec
    cases hexec
    obtain ⟨hkept, hbytes⟩ := pack_unpack hf (pk pd addr2) (up pd addr) (s := s) pd haddr haddr2
    exact ⟨_, hpk .., hkept.trans herr, hbytes⟩

/-- Settles O51: the five formats are lossless, and each one's two commands are `pack` and `unpack` of the format. -/
theorem packingAndUnpackingAreInverse : Obligations.PackingAndUnpackingAreInverse :=
  ⟨exactInverses_of_lossless formatT1_lossless (fun _ _ _ => rfl) fun _ _ _ => rfl,
    exactInverses_of_lossless formatT0_lossless (fun _ _ _ => rfl) fun _ _ _ => rfl,
    exactInverses_of_lossless formatEta_lossless (fun _ _ _ => rfl) fun _ _ _ => rfl,
    exactInverses_of_lossless formatZ_lossless (fun _ _ _ => rfl) fun _ _ _ => rfl,
    exactInverses_of_lossless formatW1_lossless (fun _ _ _ => rfl) fun _ _ _ => rfl⟩

end Sys2Proof.Machine
end

section
/-! PROOFS. A word written while `ERR = 1` (R164): every one but CLRERR's is dropped before it is decoded. -/

namespace Sys2Proof.Machine

/-- With `ERR = 1`, a word that is not CLRERR's leaves the state as it is, whether it is a command or not (R164). -/
theorem accept_eq_next {w : Word} {s : State} (herr : s.err = true) (hw : w ≠ clrerrWord) : accept w s = .next s := by
  have hnot : ¬ (s.err = false ∨ w = clrerrWord) := by simp [herr, hw]
  obtain ⟨-, -, hdropped⟩ | ⟨haccepted, -⟩ | ⟨haccepted, -⟩ := accept_cases w s
  · exact hdropped
  · exact absurd haccepted hnot
  · exact absurd haccepted hnot

/-- Settles O7: the step is the write of the word, and taking the move off the host's list leaves `ERR` at 1. -/
theorem commandsAreDroppedWhileErrIsSet : Obligations.CommandsAreDroppedWhileErrIsSet := by
  intro s w rest herr hidle hhost hw
  calc step s = perform (.write 0 4 w.toNat) { s with host := rest } := step_move hidle hhost
    _ = accept w { s with host := rest } := perform_command w _
    _ = .next { s with host := rest } := accept_eq_next herr hw

end Sys2Proof.Machine
end

section
/-! PROOFS. Reset as a host move (R180, R183): it never waits, so what a running command would still write is not in the
next state. -/

namespace Sys2Proof.Machine

/-- The reset move discards the block's state (R180). -/
@[simp] theorem perform_reset (s : State) : perform .reset s = .next s.resetBlock := rfl

/-- With reset as the host's next move, the step is that move and the running command, if any, makes no progress (R183). -/
theorem step_reset {s : State} {rest : List HostMove} (hhost : s.host = .reset :: rest) :
    step s = .next { s with host := rest }.resetBlock := by
  have hnow : HostMove.reset.neverWaits = true := (neverWaits_iff .reset).mpr (.inl rfl)
  exact (step_neverWaits hhost hnow).trans (perform_reset _)

/-- Settles O10: the step is the reset move, and of the state before it that move keeps the stream and the host's side
only. -/
theorem resetAbandonsTheRunningCommand : Obligations.ResetAbandonsTheRunningCommand := by
  intro s rest hhost
  exact step_reset hhost

end Sys2Proof.Machine
end

section
/-! PROOFS. Command words and commands determine each other (R50 to R59): a word of a format holds its operands in the
format's fields, and a word whose reserved bits are 0 is put together from its fields. -/

namespace Sys2Proof

open BitVec (extractLsb'_append_eq_of_le extractLsb'_append_eq_of_add_le extractLsb'_append_eq_left
  extractLsb'_append_eq_right extractLsb'_append_extractLsb'_eq_extractLsb' extractLsb'_eq_self)

/-! ### Fields -/

/-- A 4-bit field that holds a register number is read as that register (R56). -/
theorem regField_eq_of_extract {w : Word} {lo : Nat} {r : PReg} (h : w.extractLsb' lo 4 = regBits r) :
    regField w lo = r := by
  have hr : r.val < 2 ^ 4 := r.isLt
  rw [regField, h, regBits, BitVec.toNat_ofNat, Nat.mod_eq_of_lt hr]
  exact Fin.ofNat_val_eq_self r

/-- A register read from a field is that field again (R56). -/
theorem regBits_regField (w : Word) (lo : Nat) : regBits (regField w lo) = w.extractLsb' lo 4 := by
  have hlt : (w.extractLsb' lo 4).toNat < 16 := (w.extractLsb' lo 4).isLt
  rw [regField, regBits, Fin.val_ofNat, Nat.mod_eq_of_lt hlt, BitVec.ofNat_toNat, BitVec.setWidth_eq]

/-- An address read from its field is that field again (R55). -/
theorem ofNat_addrField (w : Word) : BitVec.ofNat 16 (addrField w) = w.extractLsb' 0 16 := by
  rw [addrField, BitVec.ofNat_toNat, BitVec.setWidth_eq]

/-- An address read from its field fits it (R55). -/
theorem addrFits_addrField (w : Word) : addrFits (addrField w) = true :=
  decide_eq_true (w.extractLsb' 0 16).isLt

/-- Bits of a word with the next lower field behind them are the bits of the longer field. -/
theorem append_field {w : Word} {lo a b : Nat} {x : BitVec a} (hx : x = w.extractLsb' (lo + b) a) :
    x ++ w.extractLsb' lo b = w.extractLsb' lo (a + b) :=
  hx ▸ extractLsb'_append_extractLsb'_eq_extractLsb' rfl

/-! ### From a command to its word and back -/

/-- The opcode of a format Z word (R51). -/
theorem opcodeField_wordZ (op : Byte) : opcodeField (wordZ op) = op := extractLsb'_append_eq_left

/-- The opcode of a format P2 word (R52). -/
theorem opcodeField_wordP2 (op : Byte) (pd pa : PReg) : opcodeField (wordP2 op pd pa) = op :=
  (extractLsb'_append_eq_of_le (by decide)).trans <| (extractLsb'_append_eq_of_le (by decide)).trans
    extractLsb'_append_eq_left

/-- The opcode of a format P3 word (R53). -/
theorem opcodeField_wordP3 (op : Byte) (pd pa pb : PReg) : opcodeField (wordP3 op pd pa pb) = op :=
  (extractLsb'_append_eq_of_le (by decide)).trans <| (extractLsb'_append_eq_of_le (by decide)).trans <|
    (extractLsb'_append_eq_of_le (by decide)).trans extractLsb'_append_eq_left

/-- The opcode of a format S word (R54). -/
theorem opcodeField_wordS (op : Byte) (pd : PReg) : opcodeField (wordS op pd) = op :=
  (extractLsb'_append_eq_of_le (by decide)).trans extractLsb'_append_eq_left

/-- The opcode of a format M word (R55). -/
theorem opcodeField_wordM (op : Byte) (pr : PReg) (addr : Nat) : opcodeField (wordM op pr addr) = op :=
  (extractLsb'_append_eq_of_le (by decide)).trans <| (extractLsb'_append_eq_of_le (by decide)).trans
    extractLsb'_append_eq_left

/-- A format Z word is read as its command (R51). -/
theorem decodeZ_wordZ (op : Byte) (i : Instr) : decodeZ (wordZ op) i = .instr i := by
  have hclear : (wordZ op).extractLsb' 0 24 = 0 := extractLsb'_append_eq_right
  rw [decodeZ, hclear]
  rfl

/-- A format P2 word is read with its own registers (R52). -/
theorem decodeP2_wordP2 (op : Byte) (pd pa : PReg) (f : PReg → PReg → Instr) :
    decodeP2 (wordP2 op pd pa) f = .instr (f pd pa) := by
  have hpd : regField (wordP2 op pd pa) 20 = pd := regField_eq_of_extract <|
    (extractLsb'_append_eq_of_le (by decide)).trans <|
      (extractLsb'_append_eq_of_le (by decide)).trans extractLsb'_append_eq_right
  have hpa : regField (wordP2 op pd pa) 16 = pa := regField_eq_of_extract <|
    (extractLsb'_append_eq_of_le (by decide)).trans extractLsb'_append_eq_right
  have hclear : (wordP2 op pd pa).extractLsb' 0 16 = 0 := extractLsb'_append_eq_right
  rw [decodeP2, hpd, hpa, hclear]
  rfl

/-- A format P3 word is read with its own registers (R53). -/
theorem decodeP3_wordP3 (op : Byte) (pd pa pb : PReg) (f : PReg → PReg → PReg → Instr) :
    decodeP3 (wordP3 op pd pa pb) f = .instr (f pd pa pb) := by
  have hpd : regField (wordP3 op pd pa pb) 20 = pd := regField_eq_of_extract <|
    (extractLsb'_append_eq_of_le (by decide)).trans <| (extractLsb'_append_eq_of_le (by decide)).trans <|
      (extractLsb'_append_eq_of_le (by decide)).trans extractLsb'_append_eq_right
  have hpa : regField (wordP3 op pd pa pb) 16 = pa := regField_eq_of_extract <|
    (extractLsb'_append_eq_of_le (by decide)).trans <|
      (extractLsb'_append_eq_of_le (by decide)).trans extractLsb'_append_eq_right
  have hpb : regField (wordP3 op pd pa pb) 12 = pb := regField_eq_of_extract <|
    (extractLsb'_append_eq_of_le (by decide)).trans extractLsb'_append_eq_right
  have hclear : (wordP3 op pd pa pb).extractLsb' 0 12 = 0 := extractLsb'_append_eq_right
  rw [decodeP3, hpd, hpa, hpb, hclear]
  rfl

/-- A format S word is read with its own register (R54). -/
theorem decodeS_wordS (op : Byte) (pd : PReg) (f : PReg → Instr) : decodeS (wordS op pd) f = .instr (f pd) := by
  have hpd : regField (wordS op pd) 20 = pd := regField_eq_of_extract <|
    (extractLsb'_append_eq_of_le (by decide)).trans extractLsb'_append_eq_right
  have hclear : (wordS op pd).extractLsb' 0 20 = 0 := extractLsb'_append_eq_right
  rw [decodeS, hpd, hclear]
  rfl

/-- A format M word is read with its own register, and with its own address if that fits (R55). -/
theorem decodeM_wordM (op : Byte) (pr : PReg) {addr : Nat} (f : PReg → Nat → Instr) (haddr : addrFits addr = true) :
    decodeM (wordM op pr addr) f = .instr (f pr addr) := by
  have hpr : regField (wordM op pr addr) 20 = pr := regField_eq_of_extract <|
    (extractLsb'_append_eq_of_le (by decide)).trans <|
      (extractLsb'_append_eq_of_le (by decide)).trans extractLsb'_append_eq_right
  have hfield : addrField (wordM op pr addr) = addr := by
    rw [addrField, wordM, extractLsb'_append_eq_right, BitVec.toNat_ofNat, Nat.mod_eq_of_lt (of_decide_eq_true haddr)]
  have hclear : (wordM op pr addr).extractLsb' 16 4 = 0 :=
    (extractLsb'_append_eq_of_le (by decide)).trans extractLsb'_append_eq_right
  rw [decodeM, hpr, hfield, hclear]
  rfl

/-- Settles O2: the opcode of the command's word picks the command's own arm of `decode`, which reads the operands back
from the fields of the format. -/
theorem decodeOfEncodeIsTheCommand : Obligations.DecodeOfEncodeIsTheCommand := by
  intro i hwf
  cases i with
  | nop | clrerr | zeroize =>
    rw [encode, decode, opcodeField_wordZ]
    exact decodeZ_wordZ ..
  | pmov | pred | pcaddq | ntt | intt | p2rhi | p2rlo | dechi | declo =>
    rw [encode, decode, opcodeField_wordP2]
    exact decodeP2_wordP2 ..
  | mkhint | usehint | padd | psub | pwmul | pwmac =>
    rw [encode, decode, opcodeField_wordP3]
    exact decodeP3_wordP3 ..
  | sampu | sampe | sampg | sampc =>
    rw [encode, decode, opcodeField_wordS]
    exact decodeS_wordS ..
  | ldraw | straw | pkt1 | pkt0 | pketa | pkz | pkw1 | upt1 | upt0 | upeta | upz | upw1 | hintenc | hintdec =>
    rw [encode, decode, opcodeField_wordM]
    exact decodeM_wordM _ _ _ hwf

/-! ### From a word to its command and back -/

/-- The opcode and the first register field together (R50, R56). -/
theorem opcodeField_append_regBits (w : Word) : opcodeField w ++ regBits (regField w 20) = w.extractLsb' 20 12 := by
  rw [regBits_regField]
  exact append_field rfl

/-- The opcode and the first two register fields together (R52, R53). -/
theorem opcodeField_append_regBits_regBits (w : Word) :
    opcodeField w ++ regBits (regField w 20) ++ regBits (regField w 16) = w.extractLsb' 16 16 := by
  rw [opcodeField_append_regBits, regBits_regField]
  exact append_field rfl

/-- The opcode and all three register fields together (R53). -/
theorem opcodeField_append_regBits_regBits_regBits (w : Word) :
    opcodeField w ++ regBits (regField w 20) ++ regBits (regField w 16) ++ regBits (regField w 12) =
      w.extractLsb' 12 20 := by
  rw [opcodeField_append_regBits_regBits, regBits_regField]
  exact append_field rfl

/-- A command read in format Z is the whole word (R51). -/
theorem decodeZ_eq_instr {w : Word} {i j : Instr} (h : decodeZ w i = .instr j) :
    j = i ∧ wordZ (opcodeField w) = w := by
  obtain ⟨hclear, rfl⟩ := (checkReserved_eq_instr_iff _ _ _).mp h
  have hzero : w.extractLsb' 0 24 = 0#24 := eq_of_beq hclear
  refine ⟨rfl, ?_⟩
  rw [wordZ, opcodeField, ← hzero]
  exact (append_field rfl).trans extractLsb'_eq_self

/-- A command read in format P2 is its registers in the word (R52). -/
theorem decodeP2_eq_instr {w : Word} {f : PReg → PReg → Instr} {j : Instr} (h : decodeP2 w f = .instr j) :
    ∃ pd pa, j = f pd pa ∧ wordP2 (opcodeField w) pd pa = w := by
  obtain ⟨hclear, rfl⟩ := (checkReserved_eq_instr_iff _ _ _).mp h
  have hzero : w.extractLsb' 0 16 = 0#16 := eq_of_beq hclear
  refine ⟨_, _, rfl, ?_⟩
  rw [wordP2, opcodeField_append_regBits_regBits, ← hzero]
  exact (append_field rfl).trans extractLsb'_eq_self

/-- A command read in format P3 is its registers in the word (R53). -/
theorem decodeP3_eq_instr {w : Word} {f : PReg → PReg → PReg → Instr} {j : Instr} (h : decodeP3 w f = .instr j) :
    ∃ pd pa pb, j = f pd pa pb ∧ wordP3 (opcodeField w) pd pa pb = w := by
  obtain ⟨hclear, rfl⟩ := (checkReserved_eq_instr_iff _ _ _).mp h
  have hzero : w.extractLsb' 0 12 = 0#12 := eq_of_beq hclear
  refine ⟨_, _, _, rfl, ?_⟩
  rw [wordP3, opcodeField_append_regBits_regBits_regBits, ← hzero]
  exact (append_field rfl).trans extractLsb'_eq_self

/-- A command read in format S is its register in the word (R54). -/
theorem decodeS_eq_instr {w : Word} {f : PReg → Instr} {j : Instr} (h : decodeS w f = .instr j) :
    ∃ pd, j = f pd ∧ wordS (opcodeField w) pd = w := by
  obtain ⟨hclear, rfl⟩ := (checkReserved_eq_instr_iff _ _ _).mp h
  have hzero : w.extractLsb' 0 20 = 0#20 := eq_of_beq hclear
  refine ⟨_, rfl, ?_⟩
  rw [wordS, opcodeField_append_regBits, ← hzero]
  exact (append_field rfl).trans extractLsb'_eq_self

/-- A command read in format M is its register and a fitting address in the word (R55). -/
theorem decodeM_eq_instr {w : Word} {f : PReg → Nat → Instr} {j : Instr} (h : decodeM w f = .instr j) :
    ∃ pr addr, j = f pr addr ∧ addrFits addr = true ∧ wordM (opcodeField w) pr addr = w := by
  obtain ⟨hclear, rfl⟩ := (checkReserved_eq_instr_iff _ _ _).mp h
  have hzero : w.extractLsb' 16 4 = 0#4 := eq_of_beq hclear
  refine ⟨_, _, rfl, addrFits_addrField w, ?_⟩
  have hhigh : w.extractLsb' 20 12 ++ w.extractLsb' 16 4 = w.extractLsb' 16 16 := append_field rfl
  rw [wordM, opcodeField_append_regBits, ← hzero, hhigh, ofNat_addrField]
  exact (append_field rfl).trans extractLsb'_eq_self

/-- Settles O3: in every arm of `decode` the command is made of the fields of its format, which with the opcode of the arm
and the reserved bits 0 make up the word. -/
theorem encodeOfDecodeIsTheWord : Obligations.EncodeOfDecodeIsTheWord := by
  intro w i h
  unfold decode at h
  split at h
  case h_1 hop | h_2 hop | h_3 hop =>
    obtain ⟨rfl, hw⟩ := decodeZ_eq_instr h
    rw [hop] at hw
    exact ⟨hw, rfl⟩
  case h_37 => cases h
  case h_6 hop | h_7 hop | h_8 hop | h_9 hop | h_10 hop | h_11 hop | h_12 hop | h_13 hop | h_14 hop =>
    obtain ⟨pd, pa, rfl, hw⟩ := decodeP2_eq_instr h
    rw [hop] at hw
    exact ⟨hw, rfl⟩
  case h_15 hop | h_16 hop | h_21 hop | h_22 hop | h_23 hop | h_24 hop =>
    obtain ⟨pd, pa, pb, rfl, hw⟩ := decodeP3_eq_instr h
    rw [hop] at hw
    exact ⟨hw, rfl⟩
  case h_17 hop | h_18 hop | h_19 hop | h_20 hop =>
    obtain ⟨pd, rfl, hw⟩ := decodeS_eq_instr h
    rw [hop] at hw
    exact ⟨hw, rfl⟩
  all_goals next hop =>
    obtain ⟨pr, addr, rfl, haddr, hw⟩ := decodeM_eq_instr h
    rw [hop] at hw
    exact ⟨hw, haddr⟩

/-- Settles O1: `decode` computes on each of the twelve words. -/
theorem wordsDecodeToTheirCommands : Obligations.WordsDecodeToTheirCommands := by
  unfold Obligations.WordsDecodeToTheirCommands
  decide

end Sys2Proof
end

section
/-! PROOFS. The progress of a rejection sampler, drawn on to its end (R111, R112, R114): what holds of it before and after
every draw, the last one included. -/

namespace Sys2Proof.Machine

/-- The progress of a sampler that may have ended: as `Sampling.Ok`, with the end reached at 256. -/
def Sampling.Sound : Sampling → Prop
  | .uniform n a => n = a.length ∧ n ≤ 256 ∧ ∀ c ∈ a, 0 ≤ c.toInt ∧ c.toInt < 8380417
  | .eta n a => n = a.length ∧ n ≤ 256 ∧ ∀ c ∈ a, -2 ≤ c.toInt ∧ c.toInt ≤ 2
  | .challenge _ i v => 196 ≤ i ∧ i ≤ 256 ∧ (ints v).countP (· ≠ 0) = i - 196 ∧
      (∀ j : Fin 256, v[j].toInt = 0 ∨ v[j].toInt = 1 ∨ v[j].toInt = -1) ∧ ∀ j : Fin 256, i ≤ j.val → v[j].toInt = 0

/-- SAMPU has not ended while its count is not 256 (R111). -/
theorem result_uniform_eq_none_iff (n : Nat) (a : List Coeff) : (Sampling.uniform n a).result = none ↔ n ≠ 256 := by
  simp [Sampling.result]

/-- SAMPE has not ended while its count is not 256 (R112). -/
theorem result_eta_eq_none_iff (n : Nat) (a : List Coeff) : (Sampling.eta n a).result = none ↔ n ≠ 256 := by
  simp [Sampling.result]

/-- SAMPC has not ended while its index is not 256 (R114). -/
theorem result_challenge_eq_none_iff (signs : BitVec 64) (i : Nat) (v : RingElement) :
    (Sampling.challenge signs i v).result = none ↔ i ≠ 256 := by
  simp [Sampling.result]

/-- The invariant's progress is sound progress that has not ended. -/
theorem Sampling.ok_iff (t : Sampling) : t.Ok ↔ t.Sound ∧ t.result = none := by
  cases t with
  | uniform n a =>
    rw [result_uniform_eq_none_iff]
    exact ⟨fun ⟨hn, hlt, ha⟩ => ⟨⟨hn, hlt.le, ha⟩, hlt.ne⟩, fun ⟨⟨hn, hle, ha⟩, hne⟩ => ⟨hn, hle.lt_of_ne hne, ha⟩⟩
  | eta n a =>
    rw [result_eta_eq_none_iff]
    exact ⟨fun ⟨hn, hlt, ha⟩ => ⟨⟨hn, hlt.le, ha⟩, hlt.ne⟩, fun ⟨⟨hn, hle, ha⟩, hne⟩ => ⟨hn, hle.lt_of_ne hne, ha⟩⟩
  | challenge signs i v =>
    rw [result_challenge_eq_none_iff]
    exact ⟨fun ⟨hlow, hlt, hv⟩ => ⟨⟨hlow, hlt.le, hv⟩, hlt.ne⟩,
      fun ⟨⟨hlow, hle, hv⟩, hne⟩ => ⟨hlow, hle.lt_of_ne hne, hv⟩⟩

/-! ### A draw -/

/-- An accepted draw keeps sound progress of SAMPU (R111). -/
theorem uniform_sound_succ {n : Nat} {a : List Coeff} (h : (Sampling.uniform n a).Sound) (hn : n ≠ 256) {v : Nat}
    (hv : v < 8380417) : (Sampling.uniform (n + 1) (coeff v :: a)).Sound := by
  obtain ⟨hlength, hle, ha⟩ := h
  have hvalue : (coeff v).toInt = v := (coeff_toInt _).trans (wrap32_of_range (by omega))
  refine ⟨by rw [hlength, List.length_cons], hle.lt_of_ne hn, List.forall_mem_cons.mpr ⟨?_, ha⟩⟩
  rw [hvalue]
  omega

/-- SAMPE's coefficient of a nibble is between -2 and 2 (R112). -/
theorem etaCoeff_toInt (t : Nat) : (etaCoeff t).toInt = 2 - ((t % 5 : Nat) : Int) := by
  rw [etaCoeff, coeff_toInt]
  exact wrap32_of_range (by omega)

/-- Taking a nibble keeps sound progress of SAMPE, whether the nibble is accepted or not (R112). -/
theorem etaAccept_sound {n : Nat} {a : List Coeff} (h : (Sampling.eta n a).Sound) (t : Nat) :
    (Sampling.eta (etaAccept t n a).1 (etaAccept t n a).2).Sound := by
  obtain ⟨hn, hle, ha⟩ := h
  unfold etaAccept
  split
  · next haccept =>
    refine ⟨by rw [hn, List.length_cons], haccept.2, List.forall_mem_cons.mpr ⟨?_, ha⟩⟩
    rw [etaCoeff_toInt]
    omega
  · exact ⟨hn, hle, ha⟩

/-- SAMPC's sign is `-1` for a set bit and `1` for a clear one (R114). -/
theorem signCoeff_toInt (signs : BitVec 64) : (signCoeff signs).toInt = if signs.getLsbD 0 then -1 else 1 := by
  rw [signCoeff, coeff_toInt, wrap32_of_range (by omega), BitVec.getLsbD, Nat.testBit_zero]
  have hbit : signs.toNat % 2 = 0 ∨ signs.toNat % 2 = 1 := by omega
  rcases hbit with h | h <;> simp [h]

/-- One assignment pair of SAMPC, `c[i] <- c[b]` and `c[b] <- e`, in bounds (R114). -/
def shuffleStep (v : RingElement) (i b : Nat) (e : Coeff) : RingElement :=
  (v.setIfInBounds i (v.getD b 0)).setIfInBounds b e

/-- Coefficient `j` after one assignment pair. -/
theorem shuffleStep_getElem (v : RingElement) {i b : Nat} (hb : b ≤ i) (hi : i < 256) (e : Coeff) (j : Nat)
    (hj : j < 256) : (shuffleStep v i b e)[j] = if j = b then e else if j = i then v[b] else v[j] := by
  have hb' : b < 256 := by omega
  have hget : v.getD b 0 = v[b] := by simp [Vector.getD, hb']
  rw [shuffleStep, hget, Vector.getElem_setIfInBounds, Vector.getElem_setIfInBounds]
  simp only [eq_comm]

/-- The integers after one assignment pair. -/
theorem ints_shuffleStep (v : RingElement) {i b : Nat} (hb : b ≤ i) (hi : i < 256) (e : Coeff) :
    ints (shuffleStep v i b e) = ((ints v).set i (v[b]'(by omega)).toInt).set b e.toInt := by
  refine List.ext_getElem (by simp) fun j hj _ => ?_
  rw [ints_length] at hj
  rw [ints_getElem _ j hj, shuffleStep_getElem v hb hi e j hj, List.getElem_set, List.getElem_set, ints_getElem _ j hj]
  grind

/-- Where coefficient `i` was 0, one assignment pair with a sign adds one to the coefficients that are not 0. -/
theorem countP_shuffleStep (v : RingElement) {i b : Nat} (hb : b ≤ i) (hi : i < 256) {e : Coeff} (he : e.toInt ≠ 0)
    (hzero : v[i].toInt = 0) :
    (ints (shuffleStep v i b e)).countP (· ≠ 0) = (ints v).countP (· ≠ 0) + 1 := by
  have hb' : b < 256 := by omega
  rw [ints_shuffleStep v hb hi, List.countP_set (by simpa using hb'), List.countP_set (by simpa using hi)]
  have hmoved : ((ints v).set i v[b].toInt)[b]'(by simpa using hb') = v[b].toInt := by
    rw [List.getElem_set, ints_getElem v b hb']
    exact ite_self _
  rw [hmoved, ints_getElem v i hi, hzero]
  simp [he]

/-- An accepted draw of SAMPC makes one assignment pair and uses up one index and one sign bit (R114). -/
theorem draw_challenge_of_le {signs : BitVec 64} {i b : Nat} {v : RingElement} {x : Xof} (hb : (x.byteAt 0).toNat = b)
    (hle : b ≤ i) : (Sampling.challenge signs i v).draw x =
      (.challenge (signs >>> 1) (i + 1) (shuffleStep v i b (signCoeff signs)), 1, x.after 1) := by
  subst hb
  exact (draw_challenge signs i v x).trans (if_pos hle)

/-- A rejected draw of SAMPC uses up its byte only (R114). -/
theorem draw_challenge_of_gt {signs : BitVec 64} {i b : Nat} {v : RingElement} {x : Xof} (hb : (x.byteAt 0).toNat = b)
    (hgt : i < b) : (Sampling.challenge signs i v).draw x = (.challenge signs i v, 1, x.after 1) := by
  subst hb
  exact (draw_challenge signs i v x).trans (if_neg hgt.not_ge)

/-- An accepted draw keeps sound progress of SAMPC (R114). -/
theorem challenge_sound_succ {signs : BitVec 64} {i : Nat} {v : RingElement} (h : (Sampling.challenge signs i v).Sound)
    (hi : i < 256) {b : Nat} (hb : b ≤ i) (signs' : BitVec 64) :
    (Sampling.challenge signs' (i + 1) (shuffleStep v i b (signCoeff signs))).Sound := by
  obtain ⟨hlow, -, hcount, hvals, hzero⟩ := h
  have hsign : (signCoeff signs).toInt = 1 ∨ (signCoeff signs).toInt = -1 := by
    rw [signCoeff_toInt]
    split <;> simp
  refine ⟨by omega, hi, ?count, fun j => ?vals, fun j hj => ?zero⟩
  case count =>
    rw [countP_shuffleStep v hb hi (by omega) (hzero ⟨i, hi⟩ le_rfl), hcount]
    omega
  case vals =>
    have hj := shuffleStep_getElem v hb hi (signCoeff signs) j j.isLt
    have hvb := hvals ⟨b, by omega⟩
    have hvj := hvals j
    simp only [Fin.getElem_fin] at hvb hvj ⊢
    grind
  case zero =>
    have hvj := hzero j (by omega)
    rw [Fin.getElem_fin, shuffleStep_getElem v hb hi _ j j.isLt, if_neg (by omega), if_neg (by omega)]
    exact hvj

/-- A draw of a sampler that has not ended keeps its progress sound. -/
theorem draw_sound {t : Sampling} (h : t.Sound) (hrunning : t.result = none) (x : Xof) : (t.draw x).1.Sound := by
  cases t with
  | uniform n a =>
    rw [result_uniform_eq_none_iff] at hrunning
    rw [draw_uniform]
    split
    · next haccept => exact uniform_sound_succ h hrunning haccept
    · exact h
  | eta n a =>
    rw [draw_eta]
    exact etaAccept_sound (etaAccept_sound h _) _
  | challenge signs i v =>
    rw [result_challenge_eq_none_iff] at hrunning
    rcases le_or_gt (x.byteAt 0).toNat i with hb | hb
    · obtain ⟨-, hle, -⟩ := id h
      rw [draw_challenge_of_le rfl hb]
      exact challenge_sound_succ h (hle.lt_of_ne hrunning) hb _
    · rw [draw_challenge_of_gt rfl hb]
      exact h

/-- A burst keeps the progress of a sampler sound. -/
theorem drawMany_sound (n : Nat) {r : Running} (h : r.task.Sound) (x : Xof) : (drawMany n r x).1.task.Sound := by
  induction n generalizing r x with
  | zero => exact h
  | succ n ih =>
    cases hres : r.task.result with
    | some v => rwa [drawMany_ended _ _ hres]
    | none =>
      rw [drawMany_succ _ _ hres]
      exact ih (draw_sound h hres x) _

end Sys2Proof.Machine
end

section
/-! PROOFS. The invariant (R15, R16, R19, R111, R112, R114, R164): the state after reset has it, and each of the ways a step
can go keeps it. -/

namespace Sys2Proof.Machine

/-! ### Updates of the state -/

/-- Settles O16: nothing is listed, recorded or running after reset. -/
theorem resetHasTheInvariant : Obligations.ResetHasTheInvariant where
  buf_wf := Memory.wf_nil
  buf_range := nofun
  fault_ok := ⟨fun _ => ⟨rfl, rfl⟩, nofun, fun _ => rfl, by decide⟩
  running_ok := nofun

/-- Bytes stored within `BUF` keep the invariant (R19). -/
theorem State.Inv.storeBytes {s : State} (h : s.Inv) {addr : Nat} {bs : List Byte} (hb : addr + bs.length ≤ 8192) :
    (s.storeBytes addr bs).Inv where
  buf_wf := Memory.writeBytes_wf h.buf_wf addr bs
  buf_range := Memory.writeBytes_inRange h.buf_range hb
  fault_ok := ⟨h.fault_ok.clear, h.fault_ok.recorded, h.fault_ok.info_range, h.fault_ok.info_bound⟩
  running_ok := h.running_ok

/-- A fault taken while no command is in progress keeps the invariant (R161, R163). -/
theorem State.Inv.raiseFault {s : State} (h : s.Inv) (hidle : s.running = none) (w : Word) {c : Cause} {n : Nat}
    (hc : c ≠ .none) (hn : n < 2048) (h0 : c ≠ .range → n = 0) : (s.raiseFault w c n).Inv where
  buf_wf := h.buf_wf
  buf_range := h.buf_range
  fault_ok := by
    refine ⟨nofun, fun _ => hc, fun hrange => ?_, ?_⟩
    · rw [State.raiseFault_fault, h0 hrange]
      rfl
    · rw [State.raiseFault_fault, BitVec.toNat_ofNat]
      omega
  running_ok r hr := by
    rw [State.raiseFault_running, hidle] at hr
    cases hr

/-- The return from a fault while no command is in progress keeps the invariant (R165). -/
theorem State.Inv.clearFault {s : State} (h : s.Inv) (hidle : s.running = none) : s.clearFault.Inv where
  buf_wf := h.buf_wf
  buf_range := h.buf_range
  fault_ok := ⟨fun _ => ⟨rfl, rfl⟩, nofun, fun _ => rfl, resetHasTheInvariant.fault_ok.info_bound⟩
  running_ok r hr := by
    rw [State.clearFault_running, hidle] at hr
    cases hr

/-- Clearing the data keeps the invariant (R72). -/
theorem State.Inv.clearData {s : State} (h : s.Inv) : s.clearData.Inv where
  buf_wf := Memory.wf_nil
  buf_range := nofun
  fault_ok := ⟨h.fault_ok.clear, h.fault_ok.recorded, h.fault_ok.info_range, h.fault_ok.info_bound⟩
  running_ok := h.running_ok

/-- A run of a sampler with sound progress keeps the invariant: it ends, or goes on not ended (R116). -/
theorem State.Inv.runSampler {s : State} (h : s.Inv) (herr : s.err = false) {r : Running} (hr : r.task.Sound) :
    (runSampler r s).Inv := by
  obtain ⟨v, -, heq⟩ | ⟨hgoes, heq⟩ := runSampler_cases r s <;> rw [heq]
  · exact ⟨h.buf_wf, h.buf_range, ⟨h.fault_ok.clear, h.fault_ok.recorded, h.fault_ok.info_range, h.fault_ok.info_bound⟩,
      nofun⟩
  · refine ⟨h.buf_wf, h.buf_range, ⟨h.fault_ok.clear, h.fault_ok.recorded, h.fault_ok.info_range, h.fault_ok.info_bound⟩,
      fun r' hr' => ⟨herr, ?_⟩⟩
    cases hr'
    exact (Sampling.ok_iff _).mpr ⟨drawMany_sound _ hr _, hgoes⟩

/-! ### Commands -/

/-- SAMPC starts with sound progress: the zero polynomial at index 196 (R114). -/
theorem startChallenge_sound (signs : BitVec 64) : (Sampling.challenge signs 196 zeroRing).Sound := by
  have hzero : ∀ j : Fin 256, zeroRing[j].toInt = 0 := fun j => by simp [zeroRing]
  have hcount : (ints zeroRing).countP (· ≠ 0) = 0 := by decide +kernel
  exact ⟨le_rfl, by decide, hcount, fun j => .inl (hzero j), fun j _ => hzero j⟩

/-- A command executed while none is in progress keeps the invariant; while `ERR = 1` only CLRERR is executed (R164). -/
theorem exec_keeps_inv {i : Instr} {s t : State} (h : s.Inv) (hidle : s.running = none)
    (herr : s.err = false ∨ i = .clrerr) (hexec : exec i s = .next t) : t.Inv := by
  cases effect_of_exec hexec with
  | nop => exact h.of_fields rfl rfl rfl rfl rfl
  | poly => exact h.of_fields rfl rfl rfl rfl rfl
  | group => exact h.of_fields (by simp) (by simp) (by simp) (by simp) (by simp)
  | masked => exact h.of_fields rfl rfl rfl rfl rfl
  | clrerr => exact (h.clearFault hidle).of_fields rfl rfl rfl rfl rfl
  | zeroize => exact h.clearData.of_fields rfl rfl rfl rfl rfl
  | store addr bs _ _ haddr => exact (h.storeBytes haddr).of_fields rfl rfl rfl rfl rfl
  | fault c n _ _ hc hn h0 =>
    exact h.raiseFault hidle _ (by rcases hc with rfl | rfl | rfl | rfl <;> decide) hn h0
  | uniform pd hi => exact h.runSampler (by simpa [hi] using herr) ⟨rfl, by decide, nofun⟩
  | eta pd hi => exact h.runSampler (by simpa [hi] using herr) ⟨rfl, by decide, nofun⟩
  | challenge pd signs hi =>
    have hxs : (s.setXs (s.xs.after 8)).Inv := h.of_fields rfl rfl rfl rfl rfl
    exact hxs.runSampler (r := ⟨pd, _, 8⟩) (by simpa [hi] using herr) (startChallenge_sound signs)

/-! ### Host moves and steps -/

/-- The address map with its numbers written out (R36 to R38). -/
theorem target_eq (offset size : Nat) : target offset size =
    if 16384 < offset + size then .outside else if 8192 ≤ offset then .buffer (offset - 8192)
    else if 24 ≤ offset then .reserved else if size = 4 ∧ offset % 4 = 0 then .control (offset / 4) else .badShape :=
  rfl

/-- Everything a host write can do: nothing, a command written to `CMD`, or bytes stored within `BUF` (R36, R37). -/
theorem hostWrite_cases {offset size value : Nat} {s t : State} (h : hostWrite offset size value s = .next t) :
    t = s ∨ accept (BitVec.ofNat 32 value) s = .next t ∨
      ∃ addr bs, addr + List.length bs ≤ 8192 ∧ t = s.storeBytes addr bs := by
  unfold hostWrite at h
  split at h
  · exact .inr (.inl h)
  · exact .inl (Host.Outcome.next.inj h).symm
  · next addr htarget =>
    refine .inr (.inr ⟨addr, bytesOf size value, ?_, (Host.Outcome.next.inj h).symm⟩)
    rw [target_eq] at htarget
    rw [bytesOf_length]
    grind
  all_goals cases h

/-- A host read changes nothing but the answer (R35). -/
theorem hostRead_cases {offset size : Nat} {s t : State} (h : hostRead offset size s = .next t) :
    ∃ v, t = s.setReply v := by
  unfold hostRead at h
  split at h
  case h_1 | h_2 => exact ⟨_, (Host.Outcome.next.inj h).symm⟩
  all_goals cases h

/-- A written word keeps the invariant while no command is in progress: dropped, executed, or illegal (R75). -/
theorem accept_keeps_inv {w : Word} {s t : State} (h : s.Inv) (hidle : s.running = none) (ht : accept w s = .next t) :
    t.Inv := by
  obtain ⟨-, -, hdrop⟩ | ⟨hdone, i, hi, hexec⟩ | ⟨-, -, -, hillegal⟩ := accept_cases w s
  · rw [hdrop] at ht
    exact Host.Outcome.next.inj ht ▸ h
  · rw [hexec] at ht
    refine exec_keeps_inv h hidle (hdone.imp id fun hw => ?_) ht
    rw [hw] at hi
    exact (Decoded.instr.inj hi).symm
  · rw [hillegal] at ht
    exact Host.Outcome.next.inj ht ▸ h.raiseFault hidle w (by decide) (by decide) fun _ => rfl

/-- A host move that takes effect keeps the invariant: reset and reads always, the others while no command is in
progress (R40). -/
theorem perform_keeps_inv {m : HostMove} {s t : State} (h : s.Inv) (hnow : s.running = none ∨ m.neverWaits = true)
    (ht : perform m s = .next t) : t.Inv := by
  cases m with
  | write offset size value =>
    have hidle : s.running = none := hnow.resolve_right nofun
    obtain rfl | haccept | ⟨addr, bs, hb, rfl⟩ := hostWrite_cases ht
    · exact h
    · exact accept_keeps_inv h hidle haccept
    · exact h.storeBytes hb
  | read offset size =>
    obtain ⟨v, rfl⟩ := hostRead_cases ht
    exact h.of_fields rfl rfl rfl rfl rfl
  | reset => exact Host.Outcome.next.inj ht ▸ resetHasTheInvariant.of_fields rfl rfl rfl rfl rfl
  | reseed xs => exact Host.Outcome.next.inj ht ▸ h.of_fields rfl rfl rfl rfl rfl

/-- Everything a step can do: nothing, the running sampler's own progress, or the effect of the host's next move (R40,
R116, R173). -/
theorem step_cases {s t : State} (h : step s = .next t) :
    (s.running = none ∧ s.host = [] ∧ t = s) ∨ (∃ r, s.running = some r ∧ t = runSampler r s) ∨
      ∃ m ms, s.host = m :: ms ∧ (s.running = none ∨ m.neverWaits = true) ∧ perform m { s with host := ms } = .next t := by
  by_cases hnow : ∃ m ms, s.host = m :: ms ∧ (s.running = none ∨ m.neverWaits = true)
  · obtain ⟨m, ms, hhost, hidle | hm⟩ := hnow
    · exact .inr (.inr ⟨m, ms, hhost, .inl hidle, step_move hidle hhost ▸ h⟩)
    · exact .inr (.inr ⟨m, ms, hhost, .inr hm, step_neverWaits hhost hm ▸ h⟩)
  · rcases Option.eq_none_or_eq_some s.running with hidle | ⟨r, hr⟩
    · have hhost : s.host = [] := List.eq_nil_iff_forall_not_mem.mpr fun m hm => by
        obtain ⟨m, ms, hms⟩ := List.exists_cons_of_ne_nil (List.ne_nil_of_mem hm)
        exact hnow ⟨m, ms, hms, .inl hidle⟩
      rw [step_idle hidle hhost] at h
      exact .inl ⟨hidle, hhost, (Host.Outcome.next.inj h).symm⟩
    · have hwaits : ∀ m ms, s.host = m :: ms → m.neverWaits = false := fun m ms hms =>
        Bool.eq_false_iff.mpr fun hm => hnow ⟨m, ms, hms, .inr hm⟩
      rw [step_running hr hwaits] at h
      exact .inr (.inl ⟨r, hr, (Host.Outcome.next.inj h).symm⟩)

/-- Settles O15: by the three things a step can do; a running sampler has sound progress and `ERR = 0`. -/
theorem stepKeepsTheInvariant : Obligations.StepKeepsTheInvariant := by
  intro s t h hstep
  obtain ⟨-, -, rfl⟩ | ⟨r, hr, rfl⟩ | ⟨m, ms, -, hnow, hm⟩ := step_cases hstep
  · exact h
  · obtain ⟨herr, hok⟩ := h.running_ok r hr
    exact h.runSampler herr ((Sampling.ok_iff _).mp hok).1
  · exact perform_keeps_inv (s := { s with host := ms }) (h.of_fields rfl rfl rfl rfl rfl) hnow hm

end Sys2Proof.Machine
end

section
/-! PROOFS. What the commands may change and when they count (R14 to R18, R75, R160, R161), read off the effects a command
can have; and the step that runs a written command. -/

namespace Sys2Proof.Machine

/-! ### Faults -/

/-- Settles O11: of the effects of a command executed with `ERR = 0`, the fault alone sets `ERR`. -/
theorem faultsArePrecise : Obligations.FaultsArePrecise := by
  intro i s t herr hexec hfault
  cases effect_of_exec hexec with
  | fault c n _ _ hc => exact ⟨rfl, hc⟩
  | nop | poly | store | group | masked | zeroize => simp [herr] at hfault
  | clrerr => simp at hfault
  | uniform | eta | challenge =>
    obtain ⟨-, hkept, -⟩ := runSampler_frame _ _
    rw [hkept] at hfault
    simp [herr] at hfault

/-- Settles O12: the effects that set `ERR` are those of a command with a span in `BUF`. -/
theorem onlyBufferCommandsFault : Obligations.OnlyBufferCommandsFault := by
  intro i s t herr hspan hexec
  cases effect_of_exec hexec with
  | nop | poly | masked | zeroize => exact ⟨herr, fun _ => ⟨rfl, rfl⟩⟩
  | clrerr hi => exact ⟨rfl, fun hne => absurd hi hne⟩
  | store _ _ _ hs =>
    rw [hspan] at hs
    cases hs
  | group pd addr _ _ hi =>
    rw [hi] at hspan
    cases hspan
  | fault _ _ _ hs => exact absurd hspan hs
  | uniform | eta | challenge =>
    obtain ⟨-, hkept, -, hfault, hfaultcmd, -⟩ := runSampler_frame _ _
    exact ⟨hkept.trans herr, fun _ => ⟨hfault, hfaultcmd⟩⟩

/-! ### Counting -/

/-- A run of a sampler counts itself exactly when it ends (R116). -/
theorem runSampler_counted (r : Running) {s : State} (herr : s.err = false) :
    (runSampler r s).cmdcnt =
      if (runSampler r s).err = true ∨ (runSampler r s).busy = true then s.cmdcnt else s.cmdcnt + 1 := by
  obtain ⟨-, hkept, -, -, -, -, -, -, hcount⟩ := runSampler_frame r s
  rw [hcount, hkept, herr]
  simp

/-- Settles O13: a fault does not count, a sampler counts when it ends, and every other effect completes. -/
theorem completedCommandsAreCounted : Obligations.CompletedCommandsAreCounted := by
  intro i s t herr hidle hexec
  cases effect_of_exec hexec with
  | fault => simp
  | nop | poly | store | group | masked | zeroize | clrerr => simp [State.busy, herr, hidle]
  | uniform | eta => exact runSampler_counted _ herr
  | challenge pd signs => exact runSampler_counted (s := s.setXs (s.xs.after 8)) _ herr

/-! ### The frame -/

/-- Settles O14: each effect changes only what its command may write. -/
theorem commandsWriteOnlyTheirOwnState : Obligations.CommandsWriteOnlyTheirOwnState := by
  intro i s t hexec
  cases effect_of_exec hexec with
  | nop | clrerr | fault => exact ⟨fun _ _ => rfl, fun _ _ => rfl, fun _ _ _ _ _ => rfl, fun _ => rfl,
      fun _ => ⟨rfl, rfl, fun _ => rfl⟩, rfl, rfl⟩
  | zeroize hi =>
    subst hi
    exact ⟨nofun, nofun, nofun, nofun, fun _ => ⟨rfl, rfl, fun hne => absurd rfl hne⟩, rfl, rfl⟩
  | poly pd v _ hw =>
    refine ⟨fun r hr => State.setPoly_read_other s pd r v ?_, fun _ _ => rfl, fun _ _ _ _ _ => rfl, fun _ => rfl,
      fun _ => ⟨rfl, rfl, fun _ => rfl⟩, rfl, rfl⟩
    simpa [hw] using hr
  | store addr bs _ hs _ _ hb =>
    refine ⟨fun _ _ => rfl, fun hkeeps => ?_, fun addr' n hs' a ha => ?_, fun _ => rfl,
      fun _ => ⟨rfl, rfl, fun _ => rfl⟩, rfl, rfl⟩
    · rw [hb] at hkeeps
      cases hkeeps
    · rw [hs] at hs'
      cases hs'
      exact Memory.read_writeBytes_outside _ _ _ _ ha
  | group pd addr rows b hi _ hl =>
    subst hi
    refine ⟨fun r hr => State.setGroup_read_other s pd r rows ?_, fun _ _ => by simp, fun _ _ _ _ _ => by simp, nofun,
      fun _ => ⟨by simp, by simp, fun _ => by simp⟩, by simp, by simp⟩
    simp only [mayWritePoly, Bool.and_eq_false_iff, decide_eq_false_iff_not] at hr
    omega
  | masked pd v hi =>
    subst hi
    refine ⟨fun r hr => State.setPoly_read_other s pd r v ?_, fun _ _ => rfl, fun _ _ _ _ _ => rfl, fun _ => rfl,
      nofun, rfl, rfl⟩
    simpa [mayWritePoly] using hr
  | uniform pd hi | eta pd hi | challenge pd _ hi =>
    subst hi
    obtain ⟨hbuf, -, hhrej, -, -, hhost, hreply, hregs, -⟩ := runSampler_frame _ _
    refine ⟨fun r hr => hregs r ?_, fun _ a => congrArg (Memory.read · a) hbuf,
      fun _ _ _ a _ => congrArg (Memory.read · a) hbuf, fun _ => hhrej, nofun, hhost, hreply⟩
    simpa [mayWritePoly] using hr

/-! ### Single commands and the step that runs one -/

/-- Settles O8: the three commands are their updates; cleared registers and an empty `BUF` read 0. -/
theorem controlCommandEffects : Obligations.ControlCommandEffects :=
  fun _ => ⟨rfl, rfl, _, rfl, rfl, State.lane_eq_zero_of_p_cleared rfl, Memory.read_nil_eq_zero⟩

/-- Settles O5: the step is the write of the word, which is neither dropped nor illegal. -/
theorem stepRunsTheWrittenCommand : Obligations.StepRunsTheWrittenCommand := by
  intro s w i rest hidle hhost hdecode hdone
  have haccept : accept w { s with host := rest } = exec i { s with host := rest } := by
    obtain ⟨herr, hw, -⟩ | ⟨-, j, hj, hexec⟩ | ⟨-, r, hr, -⟩ := accept_cases w { s with host := rest }
    · rcases hdone with hdone | hdone
      · rw [hdone] at herr
        cases herr
      · exact absurd hdone hw
    · rw [hdecode] at hj
      exact Decoded.instr.inj hj ▸ hexec
    · rw [hdecode] at hr
      cases hr
  calc step s = perform (.write 0 4 w.toNat) { s with host := rest } := step_move hidle hhost
    _ = accept w { s with host := rest } := perform_command w _
    _ = exec i { s with host := rest } := haccept

end Sys2Proof.Machine
end

section
/-! PROOFS. The raw transfers (R73, R74): the bytes of a raw image and the coefficients it stands for, both ways. -/

namespace Sys2Proof.Machine

/-! ### Byte strings of the buffer -/

/-- A part of a byte string read from `BUF` is the byte string read at its place. -/
theorem Memory.take_drop_readBytes (m : Memory) (addr : Nat) {n i k : Nat} (h : i + k ≤ n) :
    ((m.readBytes addr n).drop i).take k = m.readBytes (addr + i) k := by
  refine List.ext_getElem (by simp; omega) fun j hj hk => ?_
  rw [Memory.readBytes_length] at hk
  rw [List.getElem_take, List.getElem_drop, Memory.readBytes_getElem _ _ _ _ (by omega),
    Memory.readBytes_getElem _ _ _ _ hk, Nat.add_assoc]

/-- Writing the bytes that stand there already changes no byte. -/
theorem Memory.read_writeBytes_readBytes (m : Memory) (addr n a : Nat) :
    (m.writeBytes addr (m.readBytes addr n)).read a = m.read a := by
  by_cases ha : addr ≤ a ∧ a < addr + n
  · obtain ⟨i, rfl⟩ := Nat.exists_eq_add_of_le ha.1
    have hi : i < n := by omega
    rw [Memory.read_writeBytes_inside _ _ _ _ (by simpa using hi), Memory.readBytes_getElem _ _ _ _ hi]
  · exact Memory.read_writeBytes_outside _ _ _ _ (by rw [Memory.readBytes_length]; omega)

/-! ### Raw images -/

/-- Byte `k` of coefficient `i` in the image of a list of coefficients (R33 (b)). -/
theorem rawBytes_getElem (l : List Coeff) {i k : Nat} (hi : i < l.length) (hk : k < 4) :
    (l.flatMap fun c => bytesOf 4 c.toNat)[4 * i + k]'(by rw [rawBytes_length]; omega) =
      (bytesOf 4 l[i].toNat)[k]'(by simpa using hk) := by
  induction l generalizing i with
  | nil => simp at hi
  | cons c l ih =>
    simp only [List.flatMap_cons]
    cases i with
    | zero =>
      rw [List.getElem_append_left (by simpa using hk)]
      simp
    | succ i =>
      have hplace : 4 * (i + 1) + k - (bytesOf 4 c.toNat).length = 4 * i + k := by rw [bytesOf_length]; omega
      rw [List.getElem_append_right (by rw [bytesOf_length]; omega)]
      simp only [hplace, List.getElem_cons_succ]
      exact ih _

/-- The image of the coefficients read from an image is that image. -/
theorem rawBytes_rawCoeffs (n : Nat) {bs : List Byte} (h : bs.length = 4 * n) :
    ((rawCoeffs n bs).flatMap fun c => bytesOf 4 c.toNat) = bs := by
  induction n generalizing bs with
  | zero => exact (List.eq_nil_of_length_eq_zero h).symm
  | succ n ih =>
    have hfour : (bs.take 4).length = 4 := by rw [List.length_take]; omega
    have hlt : littleEndian (bs.take 4) < 2 ^ 32 := by
      have := littleEndian_lt (bs.take 4)
      rw [hfour] at this
      exact this
    have hword : bytesOf 4 (littleEndian (bs.take 4)) = bs.take 4 := by
      have := bytesOf_littleEndian (bs.take 4)
      rwa [hfour] at this
    rw [rawCoeffs, List.flatMap_cons, ih (by rw [List.length_drop]; omega), BitVec.toNat_ofNat, Nat.mod_eq_of_lt hlt,
      hword, List.take_append_drop]

/-- Reading the image of a ring element gives it back (R74). -/
theorem ringElement_rawCoeffs_rawImage (v : RingElement) : ringElement (rawCoeffs 256 (rawImage v)) = v := by
  have hcoeffs : rawCoeffs 256 (rawImage v) = v.toList := by
    have hread := rawCoeffs_rawBytes v.toList
    rwa [Vector.length_toList] at hread
  rw [hcoeffs]
  exact Vector.toList_inj.mp (ringElement_toList Vector.length_toList)

/-- The image of a ring element read from an image is that image (R74). -/
theorem rawImage_ringElement_rawCoeffs {bs : List Byte} (h : bs.length = 1024) :
    rawImage (ringElement (rawCoeffs 256 bs)) = bs := by
  rw [rawImage, ringElement_toList (rawCoeffs_length ..)]
  exact rawBytes_rawCoeffs 256 h

/-! ### The commands -/

/-- A buffer command whose bytes lie in `BUF` goes on (R32). -/
theorem buffered_eq_body (i : Instr) {addr n : Nat} (body : State → State) (s : State) (h : addr + n ≤ 8192) :
    buffered i addr n body s = body s := if_pos h

/-- LDRAW with its bytes in `BUF` (R73). -/
theorem exec_ldraw (s : State) (pd : PReg) {addr : Nat} (h : addr + 1024 ≤ 8192) : exec (.ldraw pd addr) s =
    .next (s.setPoly pd (ringElement (rawCoeffs 256 (s.buf.readBytes addr 1024)))).complete :=
  congrArg Host.Outcome.next (buffered_eq_body _ _ _ h)

/-- STRAW with its bytes in `BUF` (R74). -/
theorem exec_straw (s : State) (pa : PReg) {addr : Nat} (h : addr + 1024 ≤ 8192) : exec (.straw pa addr) s =
    .next (s.storeBytes addr (rawImage s.p[pa])).complete :=
  congrArg Host.Outcome.next (buffered_eq_body _ _ _ h)

/-- Settles O17: coefficient `j` is the little-endian number of the four bytes at `4 j` of those read. -/
theorem ldrawLoadsTheRawImage : Obligations.LdrawLoadsTheRawImage := by
  intro s pd addr h
  refine ⟨_, completesInto_of_setPoly (exec_ldraw s pd h), fun j => ?_⟩
  have hbytes : ((s.buf.readBytes addr 1024).drop (4 * j)).take 4 =
      [s.buf.read (addr + 4 * j), s.buf.read (addr + 4 * j + 1), s.buf.read (addr + 4 * j + 2),
        s.buf.read (addr + 4 * j + 3)] := Memory.take_drop_readBytes _ _ (by omega)
  have hlt := littleEndian_lt (((s.buf.readBytes addr 1024).drop (4 * j)).take 4)
  rw [State.complete_p, State.setPoly_read_same, Fin.getElem_fin, ringElement_getElem (rawCoeffs_length ..) j j.isLt,
    rawCoeffs_getElem 256 _ j j.isLt, BitVec.toNat_ofNat]
  rw [hbytes] at hlt ⊢
  simp only [littleEndian, List.length_cons, List.length_nil] at hlt ⊢
  omega

/-- A coefficient read as an unsigned number is its value modulo `2^32`. -/
theorem toNat_eq_toInt_emod (c : Coeff) : (c.toNat : Int) = c.toInt % 2 ^ 32 := by
  have hlt := c.isLt
  rw [BitVec.toInt_eq_toNat_cond]
  split <;> omega

/-- Settles O18: byte `4 j + k` of the image is byte `k` of coefficient `j`. -/
theorem strawStoresTheRawImage : Obligations.StrawStoresTheRawImage := by
  intro s pa addr h
  refine ⟨_, storesInto_of_storeBytes (exec_straw s pa h) (rawImage_length _), fun j k => ?_⟩
  have hbyte : (s.buf.writeBytes addr (rawImage s.p[pa])).read (addr + 4 * j + k) =
      (bytesOf 4 (s.p[pa])[j].toNat)[k.val]'(by simp) := by
    rw [Nat.add_assoc, Memory.read_writeBytes_inside _ _ _ _ (by rw [rawImage_length]; omega)]
    exact (rawBytes_getElem (s.p[pa]).toList (i := j) (by simp) k.isLt).trans (by simp)
  rw [State.complete_buf, State.storeBytes_buf, hbyte, bytesOf_getElem _ _ _ k.isLt, State.lane, ← toNat_eq_toInt_emod,
    pow_mul]
  norm_cast

/-- Settles O19: reading an image back is the identity, and so is storing a ring element read from `BUF`. -/
theorem rawTransfersAreInverse : Obligations.RawTransfersAreInverse := by
  intro s t u r q addr h
  constructor
  case left =>
    intro ht hu
    rw [exec_straw s r h] at ht
    cases ht
    rw [exec_ldraw _ q h] at hu
    cases hu
    have hread := Memory.readBytes_writeBytes s.buf addr (rawImage s.p[r])
    rw [rawImage_length] at hread
    rw [State.complete_p, State.setPoly_read_same, State.complete_buf, State.storeBytes_buf, hread]
    exact ringElement_rawCoeffs_rawImage _
  case right =>
    intro ht hu a
    rw [exec_ldraw s r h] at ht
    cases ht
    rw [exec_straw _ r h] at hu
    cases hu
    rw [State.complete_buf, State.storeBytes_buf, State.complete_p, State.setPoly_read_same,
      rawImage_ringElement_rawCoeffs (Memory.readBytes_length ..)]
    exact Memory.read_writeBytes_readBytes ..

end Sys2Proof.Machine
end

section
/-! PROOFS. The reducers as residues modulo `q`: PRED with PCADDQ (R82), and what MontRed is worth (R80). -/

namespace Sys2Proof.Machine

/-- `CAddQ` of `Reduce32` is the standard representative: `Reduce32` changes its argument by a multiple of `q` only, and
its range is within `q` of 0 (R81, R82). -/
theorem caddq_reduce32 {a : Int} (ha : -2147483648 ≤ a ∧ a < 2147483648) : caddq (reduce32 a) = a % 8380417 := by
  have hrange := reduce32_range ha
  rw [caddq_eq, reduce32_eq] at *
  split <;> omega

/-- Settles O24: the second command finds in its register the lanes that the first left. -/
theorem predThenPcaddqIsStandard : Obligations.PredThenPcaddqIsStandard := by
  intro s pd pa
  obtain ⟨t, ⟨hpred, -⟩, hreduced⟩ := (predReducesEveryLane s pd pa).1
  obtain ⟨u, ⟨hpcaddq, -⟩, hadded⟩ := pcaddqAddsToNegativeLanes t pd pd
  refine ⟨t, u, hpred, hpcaddq, fun j => ?_⟩
  calc u.lane pd j = caddq (t.lane pd j) := hadded j
    _ = caddq (reduce32 (s.lane pa j)) := congrArg caddq (hreduced j)
    _ = s.lane pa j % 8380417 := caddq_reduce32 (lane_range s pa j)

/-- Settles O25: `MontRed(a)` is the exact quotient of `a - t q` by `2^32` for a 32-bit `t`. -/
theorem montRedContract : Obligations.MontRedContract := by
  intro a hlow hhigh
  have hexact := montRed_mul a
  have ht := wrap32_range (a % 4294967296 * qinv)
  simp only [Config.q] at hexact
  generalize wrap32 (a % 4294967296 * qinv) = t at hexact ht
  refine ⟨?_, ?_, ?_, ?_⟩ <;> omega

end Sys2Proof.Machine
end

section
/-! PROOFS. The pack and unpack commands field by field (R131 to R133), once for every format: what is written for an
admitted register, the refusal of any other, and what is read from every byte string. -/

namespace Sys2Proof.Machine

/-! ### Stored values -/

/-- Stored value `j` of a register is the map of the format on lane `j` (R132). -/
theorem storedValues_getElem (f : PackFormat) (s : State) (r : PReg) (j : Fin 256) :
    (storedValues f s.p[r])[j.val]'(by simp [storedValues]) = f.stored (s.lane r j) := by
  simp only [storedValues, List.getElem_map, ints_getElem _ j.val j.isLt]
  rfl

/-- A register is admitted when the stored value of every lane fits its field (R132). -/
theorem PackFormat.admits_of_lanes {f : PackFormat} {s : State} {r : PReg}
    (h : ∀ j, 0 ≤ f.stored (s.lane r j) ∧ f.stored (s.lane r j) < 2 ^ f.width) : f.Admits s.p[r] := by
  intro x hx
  obtain ⟨j, hj, rfl⟩ := List.mem_iff_getElem.mp hx
  have hj' : j < 256 := by simpa [storedValues] using hj
  rw [storedValues_getElem f s r ⟨j, hj'⟩]
  exact h _

/-- Bit `b` of field `j` in the image of an admitted register is bit `b` of stored value `j` (R131). -/
theorem packRing_bit {f : PackFormat} {s : State} {r : PReg} (h : f.Admits s.p[r]) (j : Fin 256) {b : Nat}
    (hb : b < f.width) :
    (((packRing f s.p[r])[(f.width * j + b) / 8]?).getD 0).getLsbD ((f.width * j + b) % 8) =
      (f.stored (s.lane r j)).toNat.testBit b := by
  have hfields : ∀ x ∈ (storedValues f s.p[r]).map Int.toNat, x < 2 ^ f.width := by
    refine List.forall_mem_map.mpr fun x hx => ?_
    obtain ⟨hlow, hhigh⟩ := h x hx
    exact (Int.toNat_lt hlow).mpr (by exact_mod_cast hhigh)
  rw [packRing, packBits_bit _ hfields j b j.isLt hb, List.getElem?_map,
    List.getElem?_eq_getElem (by simp [storedValues]), storedValues_getElem]
  rfl

/-! ### The commands of a format -/

/-- A pack command writes each stored value into its field when all fit (R132). -/
theorem packsBits_of_format {f : PackFormat} {mk : PReg → Nat → Instr}
    (hmk : ∀ pa addr s, exec (mk pa addr) s = .next (pack (mk pa addr) f pa addr s)) :
    packsBits mk f.width f.stored := by
  intro s pa addr haddr hfit
  have hadmits := PackFormat.admits_of_lanes hfit
  have hexec : exec (mk pa addr) s = .next (s.storeBytes addr (packRing f s.p[pa])).complete := by
    rw [hmk, pack_eq_storeBytes _ haddr hadmits]
  refine ⟨_, storesInto_of_storeBytes hexec (packRing_length ..), fun j b hb => ?_⟩
  have hplace : (f.width * j + b) / 8 < (packRing f s.p[pa]).length := by
    have hrow : f.width * j ≤ f.width * 255 := Nat.mul_le_mul_left _ (by omega)
    rw [packRing_length]
    omega
  rw [← packRing_bit hadmits j hb, State.bufBit, State.complete_buf, State.storeBytes_buf,
    Memory.read_writeBytes_inside _ _ _ _ hplace, List.getElem?_eq_getElem hplace, Option.getD_some]

/-- A pack command reports the lowest lane whose stored value does not fit (R132, R163). -/
theorem packsOrRange_of_format {f : PackFormat} {mk : PReg → Nat → Instr}
    (hmk : ∀ pa addr s, exec (mk pa addr) s = .next (pack (mk pa addr) f pa addr s)) :
    packsOrRange mk f.width f.stored := by
  intro s pa addr j haddr hmisfit hbelow
  have hfirst : firstMisfit f.width (storedValues f s.p[pa]) = some j.val := by
    refine (firstMisfit_eq_some _ _ _).mpr ⟨by simp [storedValues], ?_, fun i hi => ?_⟩
    · rwa [storedValues_getElem]
    · rw [storedValues_getElem f s pa ⟨i, hi.trans j.isLt⟩]
      exact hbelow _ hi
  have hpack : pack (mk pa addr) f pa addr s = s.raiseFault (encode (mk pa addr)) .range j.val := by
    rw [pack, buffered_eq_body _ _ _ haddr]
    dsimp only
    rw [hfirst]
  rw [faultsWith, hmk, hpack]
  rfl

/-- An unpack command reads each field, whatever the bytes are (R133). -/
theorem unpacksBits_of_format {f : PackFormat} (hf : f.Lossless) {mk : PReg → Nat → Instr}
    (hmk : ∀ pd addr s, exec (mk pd addr) s = .next (unpack (mk pd addr) f pd addr s)) :
    unpacksBits mk f.width f.restored := by
  intro s pd addr haddr
  have hexec : exec (mk pd addr) s =
      .next (s.setPoly pd (unpackRing f (s.buf.readBytes addr (32 * f.width)))).complete := by
    rw [hmk, unpack_eq_setPoly _ haddr]
  refine ⟨_, completesInto_of_setPoly hexec, fun j => ?_⟩
  have hfield := unpackBits_lt f.width (s.buf.readBytes addr (32 * f.width)) _
    (List.getElem_mem (n := j.val) (by simp))
  refine ⟨_, hfield, ?_, fun b hb => ?_⟩
  · rw [lane_setPoly_complete, unpackRing_toInt]
    exact wrap32_of_range (hf.restored_fits _ hfield)
  · exact unpackBits_range_testBit (fun i => s.buf.read (addr + i)) j.isLt hb

/-- Settles O48: each of the five commands is `pack` of its format. -/
theorem packCommandsWriteTheFields : Obligations.PackCommandsWriteTheFields :=
  ⟨packsBits_of_format (f := formatT1) fun _ _ _ => rfl, packsBits_of_format (f := formatT0) fun _ _ _ => rfl,
    packsBits_of_format (f := formatEta) fun _ _ _ => rfl, packsBits_of_format (f := formatZ) fun _ _ _ => rfl,
    packsBits_of_format (f := formatW1) fun _ _ _ => rfl⟩

/-- Settles O49: as for O48, with the range check failing. -/
theorem packCommandsRaiseRange : Obligations.PackCommandsRaiseRange :=
  ⟨packsOrRange_of_format (f := formatT1) fun _ _ _ => rfl, packsOrRange_of_format (f := formatT0) fun _ _ _ => rfl,
    packsOrRange_of_format (f := formatEta) fun _ _ _ => rfl, packsOrRange_of_format (f := formatZ) fun _ _ _ => rfl,
    packsOrRange_of_format (f := formatW1) fun _ _ _ => rfl⟩

/-- Settles O50: each of the five commands is `unpack` of its format, and no format's lanes wrap. -/
theorem unpackCommandsReadTheFields : Obligations.UnpackCommandsReadTheFields :=
  ⟨unpacksBits_of_format formatT1_lossless fun _ _ _ => rfl, unpacksBits_of_format formatT0_lossless fun _ _ _ => rfl,
    unpacksBits_of_format formatEta_lossless fun _ _ _ => rfl, unpacksBits_of_format formatZ_lossless fun _ _ _ => rfl,
    unpacksBits_of_format formatW1_lossless fun _ _ _ => rfl⟩

end Sys2Proof.Machine
end

section
/-! PROOFS. The host's accesses (R35 to R40): what each part of the address map answers, and what waits while a command
runs. -/

namespace Sys2Proof.Machine

/-! ### The buffer window -/

/-- The number a byte string stands for is the sum of its bytes with their weights (R33). -/
theorem littleEndian_map_range (byte : Nat → Byte) (n : Nat) :
    littleEndian ((List.range n).map byte) = ∑ k ∈ Finset.range n, 256 ^ k * (byte k).toNat := by
  induction n generalizing byte with
  | zero => rfl
  | succ n ih =>
    rw [List.range_succ_eq_map, List.map_cons, List.map_map, littleEndian, ih, Finset.sum_range_succ', Finset.mul_sum,
      Nat.add_comm]
    congr 1
    · exact Finset.sum_congr rfl fun k _ => by simp only [Function.comp_apply]; ring
    · simp

/-- Settles O56: an access inside the window is `MemWrite` or `MemRead` at its place in `BUF`. -/
theorem hostAccessesTheBufferWindow : Obligations.HostAccessesTheBufferWindow := by
  intro s a n v rest hidle hfit
  have htarget : target (0x2000 + a) n = .buffer a := target_buffer hfit
  constructor
  case left =>
    intro hhost
    refine ⟨State.storeBytes { s with host := rest } a (bytesOf n v), ?_, rfl, fun k hk => ?_, fun b hb => ?_⟩
    · rw [step_move hidle hhost, perform, hostWrite, htarget]
    · rw [State.storeBytes_buf, Memory.read_writeBytes_inside _ _ _ _ (by simpa using hk), bytesOf_getElem _ _ _ hk]
    · exact Memory.read_writeBytes_outside _ _ _ _ (by simpa using hb)
  case right =>
    intro hhost
    rw [step_move hidle hhost, perform, hostRead, htarget]
    dsimp only
    rw [Memory.readBytes, littleEndian_map_range]
    rfl

/-! ### The control registers -/

/-- Two bit strings end to end are the sum of their numbers with the weight of the upper one. -/
theorem toNat_append_eq_add {v w : Nat} (x : BitVec v) (y : BitVec w) :
    (x ++ y).toNat = 2 ^ w * x.toNat + y.toNat := by
  rw [BitVec.toNat_append, ← Nat.shiftLeft_add_eq_or_of_lt y.isLt, Nat.shiftLeft_eq, Nat.mul_comm]

/-- The word read from a control register is the number made of its fields (R14 to R17). -/
theorem toNat_controlWord (s : State) (k : Nat) : (s.controlWord k).toNat = s.controlValue k := by
  match k with
  | 1 =>
    simp only [State.controlWord, State.statusWord, State.controlValue, State.busy]
    cases s.running.isSome <;> cases s.err <;> cases s.hrej <;> rfl
  | 2 =>
    simp only [State.controlWord, FaultReg.word, State.controlValue, toNat_append_eq_add]
    cases s.fault.cause <;> simp [Cause.code]
  | 0 | 3 | 4 | 5 | k + 6 => rfl

/-- Settles O57: an aligned word access below `0x18` is one of the six registers, and only `CMD` acts on a write. -/
theorem hostReadsTheControlRegisters : Obligations.HostReadsTheControlRegisters := by
  intro s k v rest hidle hk
  have htarget : target (4 * k) 4 = .control k := target_control hk
  constructor
  case left =>
    intro hhost
    rw [step_move hidle hhost, perform, hostRead, htarget, ← toNat_controlWord s k]
    rfl
  case right =>
    intro hpos hhost
    obtain ⟨k, rfl⟩ := Nat.exists_eq_add_of_le' hpos
    rw [step_move hidle hhost, perform, hostWrite, htarget]
    rfl

/-! ### While a command runs -/

/-- Settles O58: the waiting moves leave the step to the sampler, whose frame is known; the `STATUS` read is performed. -/
theorem hostWaitsWhileACommandRuns : Obligations.HostWaitsWhileACommandRuns := by
  intro s r m rest hr hhost
  constructor
  case left =>
    intro hreset hstatus
    have hwaits : ∀ m' ms, s.host = m' :: ms → m'.neverWaits = false := by
      intro m' ms hms
      rw [hhost, List.cons.injEq] at hms
      rw [← hms.1, Bool.eq_false_iff, ne_eq, neverWaits_iff]
      exact not_or.mpr ⟨hreset, hstatus⟩
    refine ⟨_, step_running hr hwaits, rfl, ?_⟩
    obtain ⟨v, -, heq⟩ | ⟨-, heq⟩ := runSampler_cases r s <;> rw [heq]
    · refine ⟨rfl, nofun, fun _ => ⟨rfl, fun q hq => ?_⟩⟩
      have hne : r.pd.val ≠ q.val := fun h => hq (Fin.ext h.symm)
      simp [hne]
    · exact ⟨rfl, fun _ => ⟨rfl, rfl, rfl⟩, nofun⟩
  case right =>
    rintro rfl
    have htarget : target 4 4 = .control 1 := target_control (k := 1) (by decide)
    rw [step_neverWaits hhost rfl, perform, hostRead, htarget]
    dsimp only
    rw [toNat_controlWord, State.controlValue, hr]
    rfl

/-! ### Accesses without a meaning -/

/-- A step whose host access reaches no part of the block stops, whether it reads or writes. -/
theorem step_eq_of_target {s : State} {off n v : Nat} {rest : List HostMove} (hidle : s.running = none)
    (hhost : s.host = .write off n v :: rest ∨ s.host = .read off n :: rest) :
    (target off n = .reserved → step s = .refused .reservedOffset) ∧
    (target off n = .badShape → step s = .refused .registerAccessShape) ∧
    (target off n = .outside → step s = .fault .outsideBlock) := by
  rcases hhost with hhost | hhost <;> rw [step_move hidle hhost]
  · refine ⟨fun h => ?_, fun h => ?_, fun h => ?_⟩ <;> rw [perform, hostWrite, h]
  · refine ⟨fun h => ?_, fun h => ?_, fun h => ?_⟩ <;> rw [perform, hostRead, h]

/-- Settles O59: the three kinds of offset and size fall on the three targets that stop. -/
theorem meaninglessHostAccessesStop : Obligations.MeaninglessHostAccessesStop := by
  intro s off n v rest hidle hhost
  obtain ⟨hreserved, hshape, houtside⟩ := step_eq_of_target hidle hhost
  refine ⟨fun hlow hhigh hend => hreserved ?_, fun hoff hend hbad => hshape ?_, fun hend => houtside ?_⟩
  all_goals rw [target_eq]
  · rw [if_neg (by omega), if_neg (by omega), if_pos hlow]
  · rw [if_neg (by omega), if_neg (by omega), if_neg (by omega), if_neg (by omega)]
  · exact if_pos hend

end Sys2Proof.Machine
end

section
/-! PROOFS. Runs of a rejection sampler as repeated draws (R110, R116): one draw is a function on the progress and the
stream, a burst is its iteration up to the end of the loop, and a run that ends commits after so many draws, however many
steps of the machine they take. -/

namespace Sys2Proof.Machine

/-! ### Draws as an iteration -/

/-- One draw, whether or not the loop has ended, with its bytes counted. -/
def drawOnce (c : Running × Xof) : Running × Xof :=
  ({ c.1 with task := (c.1.task.draw c.2).1, taken := c.1.taken + (c.1.task.draw c.2).2.1 }, (c.1.task.draw c.2).2.2)

/-- The loop that stands at `c` ends with draw number `n`, its finished polynomial being `v`. -/
structure EndsAfter (n : Nat) (c : Running × Xof) (v : RingElement) : Prop where
  goes_on : ∀ k < n, (drawOnce^[k] c).1.task.result = none
  ends : (drawOnce^[n] c).1.task.result = some v

/-- A burst in which the loop does not end before the last draw is so many draws. -/
theorem drawMany_eq_iterate {m : Nat} {c : Running × Xof} (h : ∀ k < m, (drawOnce^[k] c).1.task.result = none) :
    drawMany m c.1 c.2 = drawOnce^[m] c := by
  induction m generalizing c with
  | zero => rfl
  | succ m ih =>
    have hfirst : c.1.task.result = none := h 0 m.succ_pos
    rw [drawMany_succ _ _ hfirst, Function.iterate_succ_apply]
    exact ih fun k hk => by simpa only [Function.iterate_succ_apply] using h (k + 1) (by omega)

/-- A burst that is long enough stops at the end of the loop. -/
theorem EndsAfter.drawMany_eq {n m : Nat} {c : Running × Xof} {v : RingElement} (h : EndsAfter n c v) (hm : n ≤ m) :
    drawMany m c.1 c.2 = drawOnce^[n] c := by
  obtain ⟨k, rfl⟩ := Nat.exists_eq_add_of_le hm
  rw [drawMany_add, drawMany_eq_iterate h.goes_on, drawMany_ended _ _ h.ends]

/-- What is left of a loop after `m` of its draws. -/
theorem EndsAfter.drop {n m : Nat} {c : Running × Xof} {v : RingElement} (h : EndsAfter n c v) (hm : m ≤ n) :
    EndsAfter (n - m) (drawOnce^[m] c) v where
  goes_on k hk := by
    rw [← Function.iterate_add_apply]
    exact h.goes_on _ (by omega)
  ends := by
    rw [← Function.iterate_add_apply, Nat.sub_add_cancel hm]
    exact h.ends

/-- Draws keep the destination. -/
@[simp] theorem drawOnce_iterate_pd (n : Nat) (c : Running × Xof) : (drawOnce^[n] c).1.pd = c.1.pd := by
  induction n with
  | zero => rfl
  | succ n ih => rwa [Function.iterate_succ_apply']

/-! ### The commit -/

/-- The end of a sampler that stands at `c` with the finished polynomial `v` (R75, R110). -/
def State.commit (s : State) (c : Running × Xof) (v : RingElement) : State :=
  { s with p := s.p.set c.1.pd.val v, xofcnt := BitVec.ofNat 32 c.1.taken, xs := c.2, running := none,
           cmdcnt := s.cmdcnt + 1 }

/-- From `s` to `t` a sampler has written the lanes `f` of `pd`, counted `bytes` stream bytes and itself, and changed
nothing else. -/
def samplerDone (s t : State) (pd : PReg) (bytes : Nat) (f : Fin 256 → Int) : Prop :=
  t = { s with p := t.p, xofcnt := BitVec.ofNat 32 bytes, xs := s.xs.after bytes, running := none,
               cmdcnt := s.cmdcnt + 1 } ∧
    (∀ j, t.lane pd j = f j) ∧ ∀ r, r ≠ pd → t.p[r] = s.p[r]

/-- A commit whose stream stands after the bytes it counts is all that a sampler does. -/
theorem samplerDone_commit {s : State} {c : Running × Xof} {v : RingElement} {f : Fin 256 → Int}
    (hxs : c.2 = s.xs.after c.1.taken) (hlanes : ∀ j : Fin 256, v[j].toInt = f j) :
    samplerDone s (s.commit c v) c.1.pd c.1.taken f := by
  refine ⟨by rw [State.commit, hxs], fun j => ?_, fun r hr => State.setPoly_read_other s c.1.pd r v hr⟩
  rw [← hlanes j]
  exact lane_setPoly_complete s c.1.pd v j

/-- A run whose loop ends within one burst commits (R116). -/
theorem EndsAfter.runSampler_eq {n : Nat} {r : Running} {s : State} {v : RingElement} (h : EndsAfter n (r, s.xs) v)
    (hn : n ≤ 4096) : runSampler r s = s.commit (drawOnce^[n] (r, s.xs)) v := by
  have hburst : drawMany Config.burstDraws r s.xs = drawOnce^[n] (r, s.xs) := h.drawMany_eq hn
  have hends := h.ends
  obtain ⟨v', hv', heq⟩ | ⟨hnone, -⟩ := runSampler_cases r s
  · rw [hburst, hends] at hv'
    cases hv'
    rw [heq, hburst]
    simp only [State.commit, drawOnce_iterate_pd]
  · rw [hburst, hends] at hnone
    cases hnone

/-- A run whose loop goes on beyond one burst stays in progress, some draws further (R116). -/
theorem EndsAfter.runSampler_goes_on {n : Nat} {r : Running} {s : State} {v : RingElement} (h : EndsAfter n (r, s.xs) v)
    (hn : 4096 < n) : ∃ m, 0 < m ∧ m < n ∧
      runSampler r s = (s.setXs (drawOnce^[m] (r, s.xs)).2).setRunning (some (drawOnce^[m] (r, s.xs)).1) := by
  obtain ⟨m, hm⟩ : ∃ m, m = Config.burstDraws := ⟨_, rfl⟩
  have hm' : m = 4096 := hm
  have hburst : drawMany Config.burstDraws r s.xs = drawOnce^[m] (r, s.xs) :=
    hm ▸ drawMany_eq_iterate fun k hk => h.goes_on k (by omega)
  have hnone := h.goes_on m (by omega)
  obtain ⟨v', hv', -⟩ | ⟨-, heq⟩ := runSampler_cases r s
  · rw [hburst, hnone] at hv'
    cases hv'
  · exact ⟨m, by omega, by omega, by rw [heq, hburst]; rfl⟩

/-! ### Runs of the machine -/

/-- No step at all. -/
theorem run_zero (s : State) : Sys2Proof.core.run 0 s = .next s := rfl

/-- A step and the steps after it. -/
theorem run_succ {s t : State} (h : step s = .next t) (n : Nat) :
    Sys2Proof.core.run (n + 1) s = Sys2Proof.core.run n t := by
  have hstep : Sys2Proof.core.step s = .next t := h
  simp only [Host.Core.run, hstep]

/-- With no host move a running sampler goes on. -/
theorem step_running_of_no_host {s : State} {r : Running} (hr : s.running = some r) (hhost : s.host = []) :
    step s = .next (runSampler r s) :=
  step_running hr (by simp [hhost])

/-- With no host move a run whose loop ends commits after enough further steps (R116). -/
theorem EndsAfter.exists_run {n : Nat} {r : Running} {s : State} {v : RingElement} (h : EndsAfter n (r, s.xs) v)
    (hhost : s.host = []) :
    ∃ k, Sys2Proof.core.run k (runSampler r s) = .next (s.commit (drawOnce^[n] (r, s.xs)) v) := by
  induction n using Nat.strong_induction_on generalizing r s with
  | _ n ih =>
    rcases le_or_gt n 4096 with hn | hn
    · exact ⟨0, by rw [h.runSampler_eq hn]; rfl⟩
    · obtain ⟨m, hpos, hlt, heq⟩ := h.runSampler_goes_on hn
      have hrest := h.drop hlt.le
      have hdraws : drawOnce^[n - m] (drawOnce^[m] (r, s.xs)) = drawOnce^[n] (r, s.xs) := by
        rw [← Function.iterate_add_apply, Nat.sub_add_cancel hlt.le]
      generalize drawOnce^[m] (r, s.xs) = c at heq hrest hdraws
      have hstep := step_running_of_no_host (r := c.1) (s := (s.setXs c.2).setRunning (some c.1)) rfl hhost
      obtain ⟨k, hk⟩ := ih (n - m) (by omega) (r := c.1) (s := (s.setXs c.2).setRunning (some c.1)) hrest hhost
      refine ⟨k + 1, ?_⟩
      rw [heq, ← hdraws]
      exact (run_succ hstep k).trans hk

end Sys2Proof.Machine
end

section
/-! PROOFS. SAMPU (R111): after `k` draws the accepted values among the first `k` chunks. -/

namespace Sys2Proof.Machine

/-- A chunk counted from further on in the stream. -/
theorem uniformChunk_after (x : Xof) (k : Nat) : uniformChunk (x.after (3 * k)) 0 = uniformChunk x k := by
  simp only [uniformChunk, Xof.byteAt_after, Nat.mul_zero, Nat.zero_add, Nat.add_zero, Nat.add_assoc]

/-- One more chunk is accepted or not (R111). -/
theorem uniformAccepted_succ (x : Xof) (k : Nat) : uniformAccepted x (k + 1) =
    uniformAccepted x k ++ if uniformChunk x k < 8380417 then [uniformChunk x k] else [] := by
  simp only [uniformAccepted, List.range_succ, List.map_append, List.filter_append, List.map_cons, List.map_nil,
    List.filter_cons, List.filter_nil, decide_eq_true_eq]

/-- The number of accepted chunks never falls. -/
theorem uniformAccepted_length_mono (x : Xof) : Monotone fun k => (uniformAccepted x k).length :=
  monotone_nat_of_le_succ fun k => by
    rw [uniformAccepted_succ, List.length_append]
    exact Nat.le_add_right ..

/-- An accepted value is below `q`. -/
theorem lt_of_mem_uniformAccepted {x : Xof} {k v : Nat} (h : v ∈ uniformAccepted x k) : v < 8380417 :=
  of_decide_eq_true (List.mem_filter.mp h).2

/-- The progress of SAMPU after `k` draws (R111). -/
theorem drawOnce_iterate_uniform (pd : PReg) (x : Xof) (k : Nat) :
    drawOnce^[k] (⟨pd, .uniform 0 [], 0⟩, x) =
      (⟨pd, .uniform (uniformAccepted x k).length ((uniformAccepted x k).map fun v : Nat => coeff v).reverse, 3 * k⟩,
        x.after (3 * k)) := by
  induction k with
  | zero => simp [uniformAccepted]
  | succ k ih =>
    rw [Function.iterate_succ_apply', ih, drawOnce, draw_uniform, uniformChunk_after, uniformAccepted_succ]
    split <;> simp [Xof.after_after, Nat.mul_succ]

/-- SAMPU ends with the chunk that is the 256th accepted one (R111). -/
theorem uniform_endsAfter {pd : PReg} {x : Xof} {n : Nat} (hlast : (uniformAccepted x n).length = 256)
    (hbefore : (uniformAccepted x (n - 1)).length = 255) : EndsAfter n (⟨pd, .uniform 0 [], 0⟩, x)
      (ringElement ((uniformAccepted x n).map fun v : Nat => coeff v)) where
  goes_on k hk := by
    have hle : (uniformAccepted x k).length ≤ (uniformAccepted x (n - 1)).length :=
      uniformAccepted_length_mono x (by omega)
    rw [drawOnce_iterate_uniform, result_uniform_eq_none_iff]
    omega
  ends := by simp [drawOnce_iterate_uniform, Sampling.result, hlast]

/-- The commit of SAMPU leaves the accepted values (R111). -/
theorem uniform_samplerDone (s : State) (pd : PReg) {n : Nat} (hlast : (uniformAccepted s.xs n).length = 256) :
    samplerDone s (s.commit (drawOnce^[n] (⟨pd, .uniform 0 [], 0⟩, s.xs))
      (ringElement ((uniformAccepted s.xs n).map fun v : Nat => coeff v))) pd (3 * n)
      fun j => (((uniformAccepted s.xs n)[j.val]?).getD 0 : Nat) := by
  rw [drawOnce_iterate_uniform]
  refine samplerDone_commit rfl fun j => ?_
  have hj : j.val < (uniformAccepted s.xs n).length := by
    rw [hlast]
    exact j.isLt
  have hlt := lt_of_mem_uniformAccepted (List.getElem_mem hj)
  rw [Fin.getElem_fin, ringElement_getElem (by simpa using hlast) j j.isLt, List.getElem_map, coeff_toInt,
    wrap32_of_range (by omega), List.getElem?_eq_getElem hj, Option.getD_some]

/-- Settles O37: the loop ends within the first burst. -/
theorem sampuTakesTheAcceptedChunks : Obligations.SampuTakesTheAcceptedChunks := by
  intro s pd n hn hlast hbefore
  have hends : EndsAfter n (⟨pd, .uniform 0 [], 0⟩, s.xs) _ := uniform_endsAfter hlast hbefore
  exact ⟨_, congrArg Host.Outcome.next (hends.runSampler_eq hn), uniform_samplerDone s pd hlast⟩

/-- Settles O38: the loop ends in some burst. -/
theorem sampuCompletesWheneverTheStreamAllows : Obligations.SampuCompletesWheneverTheStreamAllows := by
  intro s pd n hhost hlast hbefore
  have hends : EndsAfter n (⟨pd, .uniform 0 [], 0⟩, s.xs) _ := uniform_endsAfter hlast hbefore
  obtain ⟨k, hk⟩ := hends.exists_run hhost
  exact ⟨_, k, _, rfl, hk, uniform_samplerDone s pd hlast⟩

end Sys2Proof.Machine
end

section
/-! PROOFS. SAMPE (R112): after `k` draws the first 256 of the accepted nibbles among the first `2 k`. -/

namespace Sys2Proof.Machine

/-- The accepted nibbles among the first `k` (R112). -/
def etaNibbles (x : Xof) (k : Nat) : List Nat := ((List.range k).map (nibble x)).filter (· < 15)

/-- The accepted coefficients are those of the accepted nibbles. -/
theorem etaAccepted_eq (x : Xof) (n : Nat) :
    etaAccepted x n = (etaNibbles x (2 * n)).map fun t => 2 - ((t % 5 : Nat) : Int) := rfl

/-- One more nibble is accepted or not (R112). -/
theorem etaNibbles_succ (x : Xof) (k : Nat) :
    etaNibbles x (k + 1) = etaNibbles x k ++ if nibble x k < 15 then [nibble x k] else [] := by
  simp only [etaNibbles, List.range_succ, List.map_append, List.filter_append, List.map_cons, List.map_nil,
    List.filter_cons, List.filter_nil, decide_eq_true_eq]

/-- The number of accepted nibbles never falls. -/
theorem etaNibbles_length_mono (x : Xof) : Monotone fun k => (etaNibbles x k).length :=
  monotone_nat_of_le_succ fun k => by
    rw [etaNibbles_succ, List.length_append]
    exact Nat.le_add_right ..

/-- The low nibble of the byte that comes next. -/
theorem nibble_after_zero (x : Xof) (k : Nat) : nibble (x.after k) 0 = nibble x (2 * k) := by
  simp [nibble, Xof.byteAt_after]

/-- The high nibble of the byte that comes next. -/
theorem nibble_after_one (x : Xof) (k : Nat) : nibble (x.after k) 1 = nibble x (2 * k + 1) := by
  have hodd : (2 * k + 1) % 2 = 1 := by omega
  have hhalf : (2 * k + 1) / 2 = k := by omega
  simp [nibble, Xof.byteAt_after, hodd, hhalf]

/-- The progress of SAMPE with the accepted nibbles `l`: there is room for 256. -/
def etaTask (l : List Nat) : Sampling := .eta (min l.length 256) ((l.take 256).map etaCoeff).reverse

/-- Taking a nibble into the progress: accepted nibbles beyond the 256th find no room (R112). -/
theorem etaAccept_take (l : List Nat) (t : Nat) :
    etaAccept t (min l.length 256) ((l.take 256).map etaCoeff).reverse =
      (min (l ++ if t < 15 then [t] else []).length 256,
        (((l ++ if t < 15 then [t] else []).take 256).map etaCoeff).reverse) := by
  unfold etaAccept
  by_cases ht : t < 15
  · by_cases hroom : l.length < 256
    · have hmin : min l.length 256 = l.length := by omega
      have hmin' : min (l ++ [t]).length 256 = l.length + 1 := by rw [List.length_append, List.length_singleton]; omega
      rw [if_pos ht, hmin, if_pos ⟨ht, hroom⟩, hmin', List.take_of_length_le hroom.le,
        List.take_of_length_le (by rw [List.length_append, List.length_singleton]; omega)]
      simp
    · have hmin : min l.length 256 = 256 := by omega
      have hmin' : min (l ++ [t]).length 256 = 256 := by rw [List.length_append]; omega
      rw [if_pos ht, hmin, if_neg (by omega), hmin', List.take_append_of_le_length (by omega)]
  · rw [if_neg ht, if_neg (by omega), List.append_nil]

/-- The progress of SAMPE after `k` draws (R112). -/
theorem drawOnce_iterate_eta (pd : PReg) (x : Xof) (k : Nat) :
    drawOnce^[k] (⟨pd, .eta 0 [], 0⟩, x) = (⟨pd, etaTask (etaNibbles x (2 * k)), k⟩, x.after k) := by
  induction k with
  | zero => simp [etaTask, etaNibbles]
  | succ k ih =>
    rw [Function.iterate_succ_apply', ih, drawOnce, etaTask, draw_eta, nibble_after_zero, nibble_after_one]
    dsimp only
    rw [etaAccept_take, ← etaNibbles_succ, etaAccept_take, ← etaNibbles_succ, Xof.after_after]
    rfl

/-- SAMPE has not ended while fewer than 256 nibbles are accepted. -/
theorem result_etaTask_eq_none {l : List Nat} (h : l.length < 256) : (etaTask l).result = none := by
  rw [etaTask, result_eta_eq_none_iff]
  omega

/-- SAMPE has ended when 256 nibbles are accepted. -/
theorem result_etaTask_eq_some {l : List Nat} (h : 256 ≤ l.length) :
    (etaTask l).result = some (ringElement ((l.take 256).map etaCoeff)) := by
  simp [etaTask, Sampling.result, h]

/-- SAMPE ends with the byte that brings the 256th accepted nibble (R112). -/
theorem eta_endsAfter {pd : PReg} {x : Xof} {n : Nat} (hlast : 256 ≤ (etaAccepted x n).length)
    (hbefore : (etaAccepted x (n - 1)).length < 256) : EndsAfter n (⟨pd, .eta 0 [], 0⟩, x)
      (ringElement (((etaNibbles x (2 * n)).take 256).map etaCoeff)) where
  goes_on k hk := by
    have hle : (etaNibbles x (2 * k)).length ≤ (etaNibbles x (2 * (n - 1))).length :=
      etaNibbles_length_mono x (by omega)
    rw [etaAccepted_eq, List.length_map] at hbefore
    rw [drawOnce_iterate_eta]
    exact result_etaTask_eq_none (by omega)
  ends := by
    rw [etaAccepted_eq, List.length_map] at hlast
    rw [drawOnce_iterate_eta]
    exact result_etaTask_eq_some hlast

/-- The commit of SAMPE leaves the coefficients of the accepted nibbles (R112). -/
theorem eta_samplerDone (s : State) (pd : PReg) {n : Nat} (hlast : 256 ≤ (etaAccepted s.xs n).length) :
    samplerDone s (s.commit (drawOnce^[n] (⟨pd, .eta 0 [], 0⟩, s.xs))
      (ringElement (((etaNibbles s.xs (2 * n)).take 256).map etaCoeff))) pd n
      fun j => ((etaAccepted s.xs n)[j.val]?).getD 0 := by
  rw [etaAccepted_eq] at hlast ⊢
  rw [drawOnce_iterate_eta]
  refine samplerDone_commit rfl fun j => ?_
  have hlen : 256 ≤ (etaNibbles s.xs (2 * n)).length := by simpa using hlast
  have hj : j.val < (etaNibbles s.xs (2 * n)).length := by omega
  rw [Fin.getElem_fin, ringElement_getElem (by simpa using hlen) j j.isLt, List.getElem_map, List.getElem_take,
    etaCoeff_toInt, List.getElem?_map, List.getElem?_eq_getElem hj, Option.map_some, Option.getD_some]

/-- Settles O39: the loop ends within the first burst. -/
theorem sampeTakesTheAcceptedNibbles : Obligations.SampeTakesTheAcceptedNibbles := by
  intro s pd n hn hlast hbefore
  have hends : EndsAfter n (⟨pd, .eta 0 [], 0⟩, s.xs) _ := eta_endsAfter hlast hbefore
  exact ⟨_, congrArg Host.Outcome.next (hends.runSampler_eq hn), eta_samplerDone s pd hlast⟩

end Sys2Proof.Machine
end

section
/-! PROOFS. SAMPC (R114): after `k` draws the shuffle of the accepted bytes among them; and the weight of what it commits,
on every stream. -/

namespace Sys2Proof.Machine

/-! ### Accepted bytes and their shuffle -/

/-- An accepted draw moves the index on (R114). -/
theorem challengePicks_cons_of_le {i a : Nat} (hi : i < 256) (ha : a ≤ i) (l : List Nat) :
    challengePicks i (a :: l) = a :: challengePicks (i + 1) l := by
  rw [challengePicks, if_pos hi, if_pos ha]

/-- A rejected draw leaves the index (R114). -/
theorem challengePicks_cons_of_gt {i a : Nat} (hi : i < 256) (ha : i < a) (l : List Nat) :
    challengePicks i (a :: l) = challengePicks i l := by
  rw [challengePicks, if_pos hi, if_neg ha.not_ge]

/-- After the last index no draw is made (R114). -/
theorem challengePicks_ended {i : Nat} (hi : 256 ≤ i) (l : List Nat) : challengePicks i l = [] := by
  cases l with
  | nil => rfl
  | cons a l => rw [challengePicks, if_neg hi.not_gt]

/-- One more draw is accepted if the loop has not ended and the byte is at most the index (R114). -/
theorem challengePicks_append_singleton (i : Nat) (l : List Nat) (b : Nat) :
    challengePicks i (l ++ [b]) = challengePicks i l ++
      if i + (challengePicks i l).length < 256 ∧ b ≤ i + (challengePicks i l).length then [b] else [] := by
  rcases lt_or_ge i 256 with hi | hi
  · induction l generalizing i with
    | nil =>
      simp only [List.nil_append, challengePicks, List.length_nil, Nat.add_zero, hi, if_true, true_and]
    | cons a l ih =>
      rw [List.cons_append]
      rcases le_or_gt a i with ha | ha
      · have hplace : i + 1 + (challengePicks (i + 1) l).length = i + ((challengePicks (i + 1) l).length + 1) := by omega
        rw [challengePicks_cons_of_le hi ha, challengePicks_cons_of_le hi ha, List.length_cons, ← hplace, List.cons_append]
        rcases lt_or_ge (i + 1) 256 with hnext | hnext
        · rw [ih _ hnext]
        · rw [challengePicks_ended hnext, challengePicks_ended hnext, if_neg (by omega), List.append_nil]
      · rw [challengePicks_cons_of_gt hi ha, challengePicks_cons_of_gt hi ha, ih _ hi]
  · rw [challengePicks_ended hi, challengePicks_ended hi, if_neg (by omega), List.append_nil]

/-- One more assignment pair at the end of a shuffle (R114). -/
theorem challengeShuffle_append_singleton (sign : Nat → Bool) (i : Nat) (l : List Nat) (b : Nat) (c : Ints) :
    challengeShuffle sign i (l ++ [b]) c =
      ((challengeShuffle sign i l c).put (i + l.length) (challengeShuffle sign i l c b)).put b
        (if sign (i + l.length - 196) then -1 else 1) := by
  induction l generalizing i c with
  | nil => rfl
  | cons a l ih =>
    have hplace : i + 1 + l.length = i + (l.length + 1) := by omega
    rw [List.cons_append, challengeShuffle, ih, challengeShuffle, List.length_cons, hplace]

/-- One more draw after the sign bytes. -/
theorem challengeDraws_succ (x : Xof) (k : Nat) :
    challengeDraws x (k + 1) = challengeDraws x k ++ [(x.byteAt (8 + k)).toNat] := by
  simp only [challengeDraws, List.range_succ, List.map_append, List.map_cons, List.map_nil]

/-- The accepted bytes among the first `k` draws (R114). -/
def picksAfter (x : Xof) (k : Nat) : List Nat := challengePicks 196 (challengeDraws x k)

/-- One more draw is accepted or not (R114). -/
theorem picksAfter_succ (x : Xof) (k : Nat) : picksAfter x (k + 1) = picksAfter x k ++
    if 196 + (picksAfter x k).length < 256 ∧ (x.byteAt (8 + k)).toNat ≤ 196 + (picksAfter x k).length
    then [(x.byteAt (8 + k)).toNat] else [] := by
  rw [picksAfter, challengeDraws_succ, challengePicks_append_singleton]
  rfl

/-- The number of accepted bytes never falls. -/
theorem picksAfter_length_mono (x : Xof) : Monotone fun k => (picksAfter x k).length :=
  monotone_nat_of_le_succ fun k => by
    rw [picksAfter_succ, List.length_append]
    exact Nat.le_add_right ..

/-- Sign bit `k` of the stream (R114). -/
def signAt (x : Xof) (k : Nat) : Bool := (x.byteAt (k / 8)).getLsbD (k % 8)

/-- The sign bits as SAMPC takes them from its first 8 bytes (R114). -/
def signsOf (x : Xof) : BitVec 64 := BitVec.ofNat 64 (littleEndian ((List.range 8).map x.byteAt))

/-- Bit `k` of the taken sign bits is sign bit `k` of the stream. -/
theorem signsOf_getLsbD (x : Xof) {k : Nat} (hk : k < 64) : (signsOf x).getLsbD k = signAt x k := by
  have hbyte : k / 8 < 8 := by omega
  rw [signsOf, BitVec.getLsbD_ofNat, littleEndian_testBit, List.getElem?_map, List.getElem?_range hbyte, Option.map_some,
    Option.getD_some]
  simp [hk, signAt]

/-- The lanes of a partial challenge are those of a shuffle so far. -/
def Shuffled (v : RingElement) (c : Ints) : Prop := ∀ j : Fin 256, v[j].toInt = c j

/-- One assignment pair on the ring element is one on the array. -/
theorem Shuffled.step {v : RingElement} {c : Ints} (h : Shuffled v c) {i b : Nat} (hb : b ≤ i) (hi : i < 256)
    {e : Coeff} {z : Int} (he : e.toInt = z) : Shuffled (shuffleStep v i b e) ((c.put i (c b)).put b z) := by
  intro j
  have hvb := h ⟨b, by omega⟩
  have hvj := h j
  rw [Fin.getElem_fin] at hvb hvj ⊢
  rw [shuffleStep_getElem v hb hi e j j.isLt, ← he]
  simp only [Ints.put]
  split
  · rfl
  · split
    · exact hvb
    · exact hvj

/-! ### The loop -/

/-- Where SAMPC begins: the sign bits taken, the zero polynomial, index 196 (R114). -/
def challengeStart (pd : PReg) (x : Xof) : Running × Xof :=
  (⟨pd, .challenge (signsOf x) 196 zeroRing, 8⟩, x.after 8)

/-- The progress of SAMPC after `k` draws while it has not ended before the last: one index and one sign bit are used up
for each accepted byte (R114). -/
theorem drawOnce_iterate_challenge (pd : PReg) (x : Xof) {k : Nat} (h : ∀ m < k, (picksAfter x m).length < 60) :
    ∃ v, Shuffled v (challengeShuffle (signAt x) 196 (picksAfter x k) fun _ => 0) ∧
      drawOnce^[k] (challengeStart pd x) =
        (⟨pd, .challenge (signsOf x >>> (picksAfter x k).length) (196 + (picksAfter x k).length) v, 8 + k⟩,
          x.after (8 + k)) := by
  induction k with
  | zero =>
    have hnone : picksAfter x 0 = [] := rfl
    refine ⟨zeroRing, fun j => ?_, ?_⟩
    · simp [zeroRing, hnone, challengeShuffle]
    · simp [challengeStart, hnone]
  | succ k ih =>
    obtain ⟨v, hv, hdraws⟩ := ih fun m hm => h m (by omega)
    have hroom := h k k.lt_succ_self
    have hbyte : ((x.after (8 + k)).byteAt 0).toNat = (x.byteAt (8 + k)).toNat := by rw [Xof.byteAt_after, Nat.add_zero]
    rw [Function.iterate_succ_apply', hdraws, drawOnce, picksAfter_succ]
    rcases le_or_gt (x.byteAt (8 + k)).toNat (196 + (picksAfter x k).length) with hb | hb
    · have hsign : (signCoeff (signsOf x >>> (picksAfter x k).length)).toInt =
          if signAt x (picksAfter x k).length then -1 else 1 := by
        rw [signCoeff_toInt, BitVec.getLsbD_ushiftRight, Nat.add_zero, signsOf_getLsbD x (by omega)]
      rw [draw_challenge_of_le hbyte hb, if_pos ⟨by omega, hb⟩, challengeShuffle_append_singleton,
        Nat.add_sub_cancel_left, List.length_append, List.length_singleton, BitVec.shiftRight_add, Xof.after_after]
      exact ⟨_, hv.step hb (by omega) hsign, rfl⟩
    · rw [draw_challenge_of_gt hbyte hb, if_neg (not_and_of_not_right _ hb.not_ge), List.append_nil, Xof.after_after]
      exact ⟨v, hv, rfl⟩

/-- SAMPC ends with the draw that is the 60th accepted one, with the shuffle of the accepted bytes (R114). -/
theorem challenge_endsAfter (pd : PReg) {x : Xof} {n : Nat} (hlast : (picksAfter x n).length = 60)
    (hbefore : (picksAfter x (n - 1)).length = 59) :
    ∃ v, EndsAfter n (challengeStart pd x) v ∧
      Shuffled v (challengeShuffle (signAt x) 196 (picksAfter x n) fun _ => 0) ∧
      (drawOnce^[n] (challengeStart pd x)).1.taken = 8 + n ∧ (drawOnce^[n] (challengeStart pd x)).2 = x.after (8 + n) := by
  have hless : ∀ k < n, (picksAfter x k).length < 60 := fun k hk => by
    have hle : (picksAfter x k).length ≤ (picksAfter x (n - 1)).length := picksAfter_length_mono x (by omega)
    omega
  obtain ⟨v, hv, hdraws⟩ := drawOnce_iterate_challenge pd x hless
  refine ⟨v, ⟨fun k hk => ?_, ?_⟩, hv, by rw [hdraws], by rw [hdraws]⟩
  · obtain ⟨u, -, hk'⟩ := drawOnce_iterate_challenge pd x (k := k) fun m hm => hless m (by omega)
    have hk'' := hless k hk
    rw [hk', result_challenge_eq_none_iff]
    omega
  · simp [hdraws, Sampling.result, hlast]

/-- SAMPC is the run of its loop from where it begins (R114). -/
theorem exec_sampc (s : State) (pd : PReg) :
    exec (.sampc pd) s = .next (runSampler (challengeStart pd s.xs).1 (s.setXs (s.xs.after 8))) :=
  congrArg Host.Outcome.next (startChallenge_eq pd s)

/-- The commit of SAMPC leaves the shuffle (R114). -/
theorem challenge_samplerDone (s : State) (pd : PReg) {n : Nat} {v : RingElement} {c : Ints} (hv : Shuffled v c)
    (htaken : (drawOnce^[n] (challengeStart pd s.xs)).1.taken = 8 + n)
    (hxs : (drawOnce^[n] (challengeStart pd s.xs)).2 = s.xs.after (8 + n)) :
    samplerDone s ((s.setXs (s.xs.after 8)).commit (drawOnce^[n] (challengeStart pd s.xs)) v) pd (8 + n)
      fun j => c j := by
  have hdone := samplerDone_commit (s := s) (hxs.trans (by rw [htaken])) hv
  rw [htaken, drawOnce_iterate_pd] at hdone
  exact hdone

/-- Settles O41: the loop ends within the first burst. -/
theorem sampcShufflesTheAcceptedBytes : Obligations.SampcShufflesTheAcceptedBytes := by
  intro s pd n hn hlast hbefore
  obtain ⟨v, hends, hv, htaken, hxs⟩ := challenge_endsAfter pd hlast hbefore
  have hrun := hends.runSampler_eq (s := s.setXs (s.xs.after 8)) hn
  exact ⟨_, (exec_sampc s pd).trans (congrArg Host.Outcome.next hrun), challenge_samplerDone s pd hv htaken hxs⟩

/-- Settles O60: the loop of either sampler ends in some burst. -/
theorem sampeAndSampcCompleteWheneverTheStreamAllows : Obligations.SampeAndSampcCompleteWheneverTheStreamAllows := by
  intro s pd n hhost
  constructor
  case left =>
    intro hlast hbefore
    have hends : EndsAfter n (⟨pd, .eta 0 [], 0⟩, s.xs) _ := eta_endsAfter hlast hbefore
    obtain ⟨k, hk⟩ := hends.exists_run hhost
    exact ⟨_, k, _, rfl, hk, eta_samplerDone s pd hlast⟩
  case right =>
    intro hlast hbefore
    obtain ⟨v, hends, hv, htaken, hxs⟩ := challenge_endsAfter pd hlast hbefore
    obtain ⟨k, hk⟩ := hends.exists_run (s := s.setXs (s.xs.after 8)) hhost
    exact ⟨_, k, _, exec_sampc s pd, hk, challenge_samplerDone s pd hv htaken hxs⟩

/-! ### The weight -/

/-- A finished sound challenge has 60 coefficients that are not 0 (R114, corner case (i)). -/
theorem weightSixty_of_sound {s : State} {pd : PReg} {signs : BitVec 64}
    (h : (Sampling.challenge signs 256 s.p[pd]).Sound) : s.weightSixty pd := by
  obtain ⟨-, -, hcount, hvals, -⟩ := h
  refine ⟨hvals, hcount, ?_⟩
  have hall := List.length_eq_countP_add_countP (fun z : Int => decide (z ≠ 0)) (l := ints s.p[pd])
  rw [ints_length, hcount] at hall
  have hzeros : (ints s.p[pd]).countP (· = 0) = (ints s.p[pd]).countP fun z => decide ¬ decide (z ≠ 0) = true :=
    List.countP_congr fun z _ => by simp
  rw [hzeros]
  omega

/-- A draw of SAMPC is still SAMPC's, and so is a burst. -/
theorem drawMany_challenge (n : Nat) {r : Running} (h : ∃ signs i v, r.task = .challenge signs i v) (x : Xof) :
    ∃ signs i v, (drawMany n r x).1.task = .challenge signs i v := by
  induction n generalizing r x with
  | zero => exact h
  | succ n ih =>
    cases hres : r.task.result with
    | some v => rwa [drawMany_ended _ _ hres]
    | none =>
      rw [drawMany_succ _ _ hres]
      refine ih ?_ _
      obtain ⟨signs, i, v, htask⟩ := h
      rcases le_or_gt (x.byteAt 0).toNat i with hb | hb
      · exact ⟨_, _, _, by rw [htask, draw_challenge_of_le rfl hb]⟩
      · exact ⟨_, _, _, by rw [htask, draw_challenge_of_gt rfl hb]⟩

/-- A run of a sound SAMPC that ends leaves a challenge of weight 60. -/
theorem runSampler_weightSixty {r : Running} {s : State} (hsound : r.task.Sound)
    (htask : ∃ signs i v, r.task = .challenge signs i v) (hidle : (runSampler r s).busy = false) :
    (runSampler r s).weightSixty r.pd := by
  obtain ⟨v, hv, heq⟩ | ⟨-, heq⟩ := runSampler_cases r s
  · obtain ⟨signs, i, u, htask'⟩ := drawMany_challenge Config.burstDraws htask s.xs
    have hsound' := drawMany_sound Config.burstDraws hsound s.xs
    rw [htask'] at hv hsound'
    simp only [Sampling.result, Option.ite_none_right_eq_some, Option.some.injEq] at hv
    obtain ⟨rfl, rfl⟩ := hv
    have hreg : (runSampler r s).p[r.pd] = u := by
      rw [heq]
      exact State.setPoly_read_same ..
    exact weightSixty_of_sound (signs := signs) (hreg ▸ hsound')
  · rw [heq] at hidle
    cases hidle

/-- Settles O42: SAMPC begins with sound progress, and the invariant says that a running one has it; the only host moves
that a running sampler does not hold up are reset, excluded here, and a `STATUS` read, which leaves it running. -/
theorem sampcHasWeightSixty : Obligations.SampcHasWeightSixty := by
  constructor
  case left =>
    intro s t pd _ hexec hidle
    rw [exec_sampc] at hexec
    cases hexec
    exact runSampler_weightSixty (startChallenge_sound _) ⟨_, _, _, rfl⟩ hidle
  case right =>
    intro s t r signs i v hinv hr htask hreset hstep hidle
    obtain ⟨hnone, -, -⟩ | ⟨r', hr', rfl⟩ | ⟨m, ms, hhost, hnow, hm⟩ := step_cases hstep
    · rw [hnone] at hr
      cases hr
    · rw [hr] at hr'
      cases hr'
      obtain ⟨-, hok⟩ := hinv.running_ok r hr
      exact runSampler_weightSixty ((Sampling.ok_iff _).mp hok).1 ⟨_, _, _, htask⟩ hidle
    · have hnow : m.neverWaits = true := hnow.resolve_left (by simp [hr])
      rcases (neverWaits_iff m).mp hnow with rfl | rfl
      · exact absurd hhost (hreset ms)
      · obtain ⟨a, rfl⟩ := hostRead_cases (offset := 4) (size := 4) (s := { s with host := ms }) hm
        simp [State.busy, hr] at hidle

end Sys2Proof.Machine
end

section
/-! PROOFS. What a rejection sampler does on a stream that rejects every draw, and that nothing but the stream decides what it
does (R115, R116). -/

namespace Sys2Proof.Machine

/-! ### The three rejection samplers at their beginning -/

/-- A progress that draws of `w` bytes `0xFF` leave as it is. -/
structure Stuck (w : Nat) (t : Sampling) : Prop where
  goes_on : t.result = none
  draw_eq : ∀ x : Xof, (∀ k < w, x.byteAt k = 0xFF) → t.draw x = (t, w, x.after w)

/-- SAMPU rejects a chunk of ones: it is above `q` (R111). -/
theorem stuck_uniform : Stuck 3 (.uniform 0 []) where
  goes_on := rfl
  draw_eq x hx := by
    have hchunk : uniformChunk x 0 = 8388607 := by
      rw [uniformChunk, hx (3 * 0) (by decide), hx (3 * 0 + 1) (by decide), hx (3 * 0 + 2) (by decide)]
      decide
    rw [draw_uniform, hchunk, if_neg (by decide)]

/-- SAMPE rejects both nibbles of a byte of ones (R112). -/
theorem stuck_eta : Stuck 1 (.eta 0 []) where
  goes_on := rfl
  draw_eq x hx := by
    have hlow : nibble x 0 = 15 := by
      rw [nibble, if_pos rfl, Nat.zero_div, hx 0 (by decide)]
      decide
    have hhigh : nibble x 1 = 15 := by
      rw [nibble, if_neg (by decide), hx 0 (by decide)]
      decide
    rw [draw_eta, hlow, hhigh]
    rfl

/-- SAMPC rejects a byte of ones at its first index (R114). -/
theorem stuck_challenge (signs : BitVec 64) : Stuck 1 (.challenge signs 196 zeroRing) where
  goes_on := rfl
  draw_eq x hx := draw_challenge_of_gt (congrArg BitVec.toNat (hx 0 (by decide))) (by decide)

/-- Each rejection sampler is the run of a loop whose beginning depends on the stream alone; the bytes it takes before the
loop and in `n + 1` bursts of rejected draws are at most `12288 (n + 1)` (R110 to R114). -/
theorem exec_rejection_sampler {mk : PReg → Instr} (hmk : mk = .sampu ∨ mk = .sampe ∨ mk = .sampc) (x : Xof) :
    ∃ w t taken before, Stuck w t ∧ (∀ n, before + w * 4096 * (n + 1) ≤ 12288 * (n + 1)) ∧
      ∀ (s : State) (pd : PReg), s.xs = x →
        exec (mk pd) s = .next (runSampler ⟨pd, t, taken⟩ (s.setXs (x.after before))) := by
  rcases hmk with rfl | rfl | rfl
  · exact ⟨3, _, 0, 0, stuck_uniform, fun n => by omega, fun s pd hx => by subst hx; rw [Xof.after_zero]; rfl⟩
  · exact ⟨1, _, 0, 0, stuck_eta, fun n => by omega, fun s pd hx => by subst hx; rw [Xof.after_zero]; rfl⟩
  · exact ⟨1, _, 8, 8, stuck_challenge (signsOf x), fun n => by omega, fun s pd hx => by subst hx; exact exec_sampc s pd⟩

/-! ### A rejecting stream -/

/-- A burst of rejected draws takes its bytes and changes nothing else. -/
theorem Stuck.drawMany_eq {w : Nat} {t : Sampling} (h : Stuck w t) (pd : PReg) (m taken : Nat) {x : Xof}
    (hx : ∀ k < w * m, x.byteAt k = 0xFF) :
    drawMany m ⟨pd, t, taken⟩ x = (⟨pd, t, taken + w * m⟩, x.after (w * m)) := by
  induction m generalizing taken x with
  | zero => simp [drawMany]
  | succ m ih =>
    have hsize : w * (m + 1) = w + w * m := by ring
    have hfirst := h.draw_eq x fun k hk => hx k (by omega)
    have hrest := ih (taken + w) (x := x.after w) fun k hk => by
      rw [Xof.byteAt_after]
      exact hx _ (by omega)
    rw [drawMany_succ (r := ⟨pd, t, taken⟩) _ _ h.goes_on, hfirst, hrest, Xof.after_after, hsize, Nat.add_assoc]

/-- A run on rejected draws stays in progress (R116). -/
theorem Stuck.runSampler_eq {w : Nat} {t : Sampling} (h : Stuck w t) (pd : PReg) (taken : Nat) {s : State}
    (hx : ∀ k < w * 4096, s.xs.byteAt k = 0xFF) : runSampler ⟨pd, t, taken⟩ s =
      { s with xs := s.xs.after (w * 4096), running := some ⟨pd, t, taken + w * 4096⟩ } := by
  have hburst := h.drawMany_eq pd Config.burstDraws taken hx
  obtain ⟨v, hv, -⟩ | ⟨-, heq⟩ := runSampler_cases ⟨pd, t, taken⟩ s
  · rw [hburst] at hv
    exact absurd (h.goes_on.symm.trans hv) nofun
  · rw [heq, hburst]
    rfl

/-- With no host move a run on rejected draws stays in progress for as many steps as the stream rejects (R116). -/
theorem Stuck.exists_run {w : Nat} {t : Sampling} (h : Stuck w t) (pd : PReg) (n taken : Nat) {s : State}
    (hhost : s.host = []) (hx : ∀ k < w * 4096 * (n + 1), s.xs.byteAt k = 0xFF) :
    ∃ x r, Sys2Proof.core.run n (runSampler ⟨pd, t, taken⟩ s) = .next { s with xs := x, running := some r } := by
  induction n generalizing taken s with
  | zero => exact ⟨_, _, congrArg Host.Outcome.next (h.runSampler_eq pd taken fun k hk => hx k (by omega))⟩
  | succ n ih =>
    have hsize : w * 4096 * (n + 1 + 1) = w * 4096 + w * 4096 * (n + 1) := by ring
    rw [h.runSampler_eq pd taken fun k hk => hx k (by omega)]
    have hstep := step_running_of_no_host (r := ⟨pd, t, taken + w * 4096⟩)
      (s := { s with xs := s.xs.after (w * 4096), running := some ⟨pd, t, taken + w * 4096⟩ }) rfl hhost
    obtain ⟨x, r, hrun⟩ := ih (taken + w * 4096)
      (s := { s with xs := s.xs.after (w * 4096), running := some ⟨pd, t, taken + w * 4096⟩ }) hhost fun k hk => by
        rw [Xof.byteAt_after]
        exact hx _ (by omega)
    exact ⟨x, r, (run_succ hstep n).trans hrun⟩

/-- A run that stays in progress has changed the stream and the progress only (R116). -/
theorem runSampler_eq_of_busy {r : Running} {s : State} (h : (runSampler r s).busy = true) :
    runSampler r s = { s with xs := (runSampler r s).xs, running := (runSampler r s).running } := by
  obtain ⟨v, -, heq⟩ | ⟨-, heq⟩ := runSampler_cases r s <;> rw [heq] at h ⊢
  cases h

/-- Settles O43: each of the three is the run of a loop that a stream of ones never lets on. -/
theorem rejectedStreamLeavesTheSamplerBusy : Obligations.RejectedStreamLeavesTheSamplerBusy := by
  intro s pd _ i hi
  obtain ⟨mk, hmk, rfl⟩ : ∃ mk, (mk = Instr.sampu ∨ mk = .sampe ∨ mk = .sampc) ∧ i = mk pd := by
    rcases hi with rfl | rfl | rfl
    · exact ⟨_, .inl rfl, rfl⟩
    · exact ⟨_, .inr (.inl rfl), rfl⟩
    · exact ⟨_, .inr (.inr rfl), rfl⟩
  obtain ⟨w, t, taken, before, hstuck, hbytes, hexec⟩ := exec_rejection_sampler hmk s.xs
  have hexec := hexec s pd rfl
  constructor
  case left =>
    intro u hu hbusy
    rw [hexec] at hu
    cases hu
    exact runSampler_eq_of_busy hbusy
  case right =>
    intro n hhost hones
    have hbound := hbytes n
    obtain ⟨x, r, hrun⟩ := hstuck.exists_run pd n taken (s := s.setXs (s.xs.after before)) hhost fun k hk => by
      rw [State.setXs_xs, Xof.byteAt_after]
      exact hones _ (by omega)
    exact ⟨_, _, hexec, hrun, rfl, rfl⟩

/-! ### Two states with one stream -/

/-- Two states in which a sampler stands alike, with its two destinations (R115). -/
def Alike (s s' : State) (pd pd' : PReg) : Prop :=
  s.xs = s'.xs ∧
    ((∃ t taken, s.running = some ⟨pd, t, taken⟩ ∧ s'.running = some ⟨pd', t, taken⟩) ∨
      (s.running = none ∧ s'.running = none ∧ s.p[pd] = s'.p[pd'] ∧ s.xofcnt = s'.xofcnt))

/-- States that stand alike are what R115 asks for. -/
theorem Alike.sameSampling {s s' : State} {pd pd' : PReg} (h : Alike s s' pd pd') : sameSampling s s' pd pd' := by
  obtain ⟨hxs, ⟨t, taken, hr, hr'⟩ | ⟨hr, hr', hp, hcount⟩⟩ := h
  · exact ⟨hxs, by rw [hr, hr']; rfl, fun hidle => by simp [State.busy, hr] at hidle⟩
  · exact ⟨hxs, by rw [hr, hr'], fun _ => ⟨hp, hcount⟩⟩

/-- Progress with its destination named. -/
theorem Running.eq_of_pd {r : Running} {pd : PReg} (h : r.pd = pd) : r = ⟨pd, r.task, r.taken⟩ := by
  subst h
  rfl

/-- Two runs of one task on one stream stand alike (R115). -/
theorem runSampler_alike (pd pd' : PReg) (t : Sampling) (taken : Nat) {s s' : State} (hxs : s.xs = s'.xs) :
    Alike (runSampler ⟨pd, t, taken⟩ s) (runSampler ⟨pd', t, taken⟩ s') pd pd' := by
  obtain ⟨htask, htaken, hrest⟩ := drawMany_pd_irrelevant Config.burstDraws t taken pd pd' s.xs
  have hpd := Running.eq_of_pd (drawMany_pd Config.burstDraws ⟨pd, t, taken⟩ s.xs)
  have hpd' := Running.eq_of_pd (drawMany_pd Config.burstDraws ⟨pd', t, taken⟩ s.xs)
  have hcases' := runSampler_cases ⟨pd', t, taken⟩ s'
  rw [← hxs, ← htask, ← htaken, ← hrest] at hcases'
  obtain ⟨v, hv, heq⟩ | ⟨hnone, heq⟩ := runSampler_cases ⟨pd, t, taken⟩ s
  · obtain ⟨v', hv', heq'⟩ | ⟨hnone', -⟩ := hcases'
    · rw [hv] at hv'
      cases hv'
      rw [heq, heq']
      exact ⟨rfl, .inr ⟨rfl, rfl, by simp, rfl⟩⟩
    · rw [hv] at hnone'
      cases hnone'
  · obtain ⟨v', hv', -⟩ | ⟨-, heq'⟩ := hcases'
    · rw [hnone] at hv'
      cases hv'
    · rw [heq, heq']
      rw [← htask, ← htaken] at hpd'
      exact ⟨rfl, .inl ⟨_, _, congrArg some hpd, congrArg some hpd'⟩⟩

/-- States that stand alike do so after any number of steps with no host move (R115). -/
theorem Alike.exists_run {s s' : State} {pd pd' : PReg} (h : Alike s s' pd pd') (hhost : s.host = [])
    (hhost' : s'.host = []) (n : Nat) : ∃ u u', Sys2Proof.core.run n s = .next u ∧
      Sys2Proof.core.run n s' = .next u' ∧ Alike u u' pd pd' := by
  induction n generalizing s s' with
  | zero => exact ⟨s, s', rfl, rfl, h⟩
  | succ n ih =>
    obtain ⟨hxs, ⟨t, taken, hr, hr'⟩ | ⟨hr, hr', -⟩⟩ := id h
    · obtain ⟨-, -, -, -, -, hkept, -⟩ := runSampler_frame ⟨pd, t, taken⟩ s
      obtain ⟨-, -, -, -, -, hkept', -⟩ := runSampler_frame ⟨pd', t, taken⟩ s'
      obtain ⟨u, u', hrun, hrun', hu⟩ :=
        ih (runSampler_alike pd pd' t taken hxs) (hkept.trans hhost) (hkept'.trans hhost')
      exact ⟨u, u', (run_succ (step_running_of_no_host hr hhost) n).trans hrun,
        (run_succ (step_running_of_no_host hr' hhost') n).trans hrun', hu⟩
    · obtain ⟨u, u', hrun, hrun', hu⟩ := ih h hhost hhost'
      exact ⟨u, u', (run_succ (step_idle hr hhost) n).trans hrun, (run_succ (step_idle hr' hhost') n).trans hrun', hu⟩

/-- Each of the four samplers begins alike in two states with one stream and no command in progress, and leaves the host's
moves (R110, R115). -/
theorem exec_sampler_alike {mk : PReg → Instr} (hmk : mk = .sampu ∨ mk = .sampe ∨ mk = .sampg ∨ mk = .sampc)
    {s s' : State} (pd pd' : PReg) (hidle : s.running = none) (hidle' : s'.running = none) (hxs : s.xs = s'.xs) :
    ∃ t t', exec (mk pd) s = .next t ∧ exec (mk pd') s' = .next t' ∧ Alike t t' pd pd' ∧ t.host = s.host ∧
      t'.host = s'.host := by
  by_cases hg : mk = .sampg
  · subst hg
    refine ⟨_, _, execSampg_eq pd s, execSampg_eq pd' s', ?_, by simp, by simp⟩
    rw [hxs]
    generalize unpackRing formatZ _ = v
    exact ⟨by simp, .inr ⟨by simpa using hidle, by simpa using hidle', by simp, by simp⟩⟩
  · obtain ⟨w, t, taken, before, -, -, hexec⟩ := exec_rejection_sampler (by simpa [hg] using hmk) s.xs
    obtain ⟨-, -, -, -, -, hkept, -⟩ := runSampler_frame ⟨pd, t, taken⟩ (s.setXs (s.xs.after before))
    obtain ⟨-, -, -, -, -, hkept', -⟩ := runSampler_frame ⟨pd', t, taken⟩ (s'.setXs (s.xs.after before))
    exact ⟨_, _, hexec s pd rfl, hexec s' pd' hxs.symm, runSampler_alike _ _ _ _ rfl, hkept, hkept'⟩

/-- Settles O44: the two states stand alike after the command and after every further step. -/
theorem samplersDependOnTheStreamAlone : Obligations.SamplersDependOnTheStreamAlone := by
  intro mk hmk s s' pd pd' hidle hidle' hxs
  obtain ⟨t, t', ht, ht', halike, hkept, hkept'⟩ := exec_sampler_alike hmk pd pd' hidle hidle' hxs
  refine ⟨t, t', ht, ht', halike.sameSampling, fun n hhost hhost' => ?_⟩
  obtain ⟨u, u', hrun, hrun', hu⟩ := halike.exists_run (hkept.trans hhost) (hkept'.trans hhost') n
  exact ⟨u, u', hrun, hrun', hu.sameSampling⟩

end Sys2Proof.Machine
end

section
/-! PROOFS. What NTT and INTT compute modulo `q` (R90 to R93): the layers work on the residues of a polynomial modulo
`X^len - r`, with `r` running over powers of 1753, and no addition wraps while the coefficients keep within a bound that
grows from layer to layer. -/

namespace Sys2Proof.Machine

/-! ### The residues modulo `q` -/

/-- The integers modulo `q`. -/
abbrev Zq := ZMod 8380417

/-- The 512th root of unity 1753 modulo `q` (R5). -/
def root : Zq := ((1753 : Int) : Zq)

/-- Two integers are the same residue when `q` divides their difference. -/
theorem zq_eq_iff (x y : Int) : (x : Zq) = y ↔ (x - y) % 8380417 = 0 := by
  rw [← sub_eq_zero, ← Int.cast_sub, ZMod.intCast_zmod_eq_zero_iff_dvd]
  exact Int.dvd_iff_emod_eq_zero

/-- The modulus is 0 modulo itself. -/
theorem q_eq_zero : ((8380417 : Int) : Zq) = 0 := (ZMod.intCast_zmod_eq_zero_iff_dvd _ _).mpr (dvd_refl _)

/-- The inverse of `2^32` modulo `q` is 8265825. -/
theorem pow_mul_inverse : (2 : Zq) ^ 32 * 8265825 = 1 := by
  have hint := (zq_eq_iff (2 ^ 32 * 8265825) 1).mpr (by decide)
  exact_mod_cast hint

/-- `2^32` can be cancelled modulo `q`. -/
theorem mul_pow_cancel {x y : Zq} (h : x * 2 ^ 32 = y * 2 ^ 32) : x = y := by
  calc x = x * 2 ^ 32 * 8265825 := by rw [mul_assoc, pow_mul_inverse, mul_one]
    _ = y := by rw [h, mul_assoc, pow_mul_inverse, mul_one]

/-- The root to the power 256 is -1 (R5). -/
theorem root_pow_256 : root ^ 256 = -1 := by
  have hint := (zq_eq_iff (1753 ^ 256) (-1)).mpr (by rw [sub_neg_eq_add]; exact root_of_unity)
  rw [root, ← Int.cast_pow, hint]
  simp

/-- The root to the power 512 is 1 (R5). -/
theorem root_pow_512 : root ^ 512 = 1 := by
  rw [show 512 = 256 * 2 by rfl, pow_mul, root_pow_256]
  ring

/-- Powers of the root depend on the exponent modulo 512 only. -/
theorem root_pow_congr {m n : Nat} (h : m % 512 = n % 512) : root ^ m = root ^ n := by
  rw [pow_eq_pow_mod m root_pow_512, h, ← pow_eq_pow_mod n root_pow_512]

/-! ### Montgomery products -/

/-- A Montgomery product times `2^32` is the product modulo `q` (R80, R86). -/
theorem montMul_mul_pow (x y : Int) : (montMul x y : Zq) * 2 ^ 32 = x * y := by
  obtain ⟨t, -, -, h⟩ := montMul_isMontMul x y
  have hcast := congrArg (Int.cast : Int → Zq) h
  rw [Int.cast_sub, Int.cast_mul, Int.cast_mul, Int.cast_mul, q_eq_zero, mul_zero, sub_zero] at hcast
  rw [← hcast]
  norm_num

/-- A Montgomery product with zeta `k` is a product with a power of the root (R91). -/
theorem montMul_zeta {k : Nat} (hk : k < 256) (hpos : 1 ≤ k) (y : Int) :
    (montMul (zeta k) y : Zq) = root ^ brv8 k * y := by
  have hzeta : (zeta k : Zq) = 2 ^ 32 * root ^ brv8 k := by
    rw [(zq_eq_iff _ _).mpr (zeta_formula k hk hpos), Int.cast_mul, Int.cast_pow, Int.cast_pow]
    rfl
  refine mul_pow_cancel ?_
  rw [montMul_mul_pow, hzeta]
  ring

/-- A Montgomery product with a zeta negated. -/
theorem montMul_neg_zeta {k : Nat} (hk : k < 256) (hpos : 1 ≤ k) (y : Int) :
    (montMul (-zeta k) y : Zq) = -root ^ brv8 k * y := by
  refine mul_pow_cancel ?_
  rw [montMul_mul_pow, neg_mul, neg_mul, ← montMul_zeta hk hpos, montMul_mul_pow, Int.cast_neg, neg_mul]

/-- A Montgomery product lies within `q` of 0 when the product is below `2^31 q` in magnitude (R80 (iv)). -/
theorem abs_montMul_lt {x y : Int} (h : |x * y| < 2 ^ 31 * 8380417) : |montMul x y| < 8380417 := by
  obtain ⟨hlow, hhigh⟩ := abs_lt.mp h
  obtain ⟨-, -, -, hin⟩ := montRedContract (x * y) (by omega) (by omega)
  exact abs_lt.mpr (hin (by omega) hhigh)

/-- A Montgomery product of a coefficient and a factor bounded as the zetas and `F` are lies within `q` of 0. -/
theorem abs_montMul_lt_of_fits {z y : Int} (hz : |z| ≤ 4190208) (hy : FitsCoeff y) : |montMul z y| < 8380417 := by
  refine abs_montMul_lt ?_
  calc |z * y| = |z| * |y| := abs_mul z y
    _ ≤ 4190208 * 2147483648 := mul_le_mul hz (abs_le.mpr ⟨hy.1, hy.2.le⟩) (abs_nonneg y) (by decide)
    _ < 2 ^ 31 * 8380417 := by decide

/-- A zeta is bounded in magnitude. -/
theorem abs_zeta_le (k : Nat) : |zeta k| ≤ 4190208 := abs_le.mpr (zeta_bound k)

/-! ### What a layer leaves at a place -/

/-- A layer of assignments leaves in each block the butterflies of its two halves. -/
theorem Butterfly.runs_apply (B : Butterfly) (len : Nat) {n g G o : Nat} (hg : g ≤ G) (hG : G < g + n) (ho : o < len)
    (a : Ints) :
    B.runs len n g a (G * (2 * len) + o) = B.low G (a (G * (2 * len) + o)) (a (G * (2 * len) + o + len)) ∧
    B.runs len n g a (G * (2 * len) + o + len) = B.high G (a (G * (2 * len) + o)) (a (G * (2 * len) + o + len)) := by
  induction n generalizing g a with
  | zero => omega
  | succ n ih =>
    rcases hg.eq_or_lt with rfl | hlt
    · have hnext : (g + 1) * (2 * len) = g * (2 * len) + 2 * len := Nat.succ_mul ..
      rw [Butterfly.runs, B.runs_apply_before len n (g + 1) _ (by omega), B.runs_apply_before len n (g + 1) _ (by omega),
        B.run_apply g len a le_rfl, B.run_apply g len a le_rfl]
      constructor
      · rw [if_pos (by omega)]
      · rw [if_neg (by omega), if_pos (by omega), Nat.add_sub_cancel]
    · have hlater : g * (2 * len) + 2 * len ≤ G * (2 * len) := by
        rw [← Nat.succ_mul]
        exact Nat.mul_le_mul_right _ hlt
      have hold : ∀ i, G * (2 * len) ≤ i → B.run g len len a i = a i := fun i hi => by
        rw [B.run_apply g len a le_rfl, if_neg (by omega), if_neg (by omega)]
      have hrest := ih hlt (by omega) (B.run g len len a)
      rwa [hold _ (by omega), hold _ (by omega)] at hrest

/-- Every place of an array of `n` blocks of `2 len` is in the lower or the upper half of a block. -/
theorem exists_block_place {len n i : Nat} (hi : i < n * (2 * len)) :
    ∃ G o, G < n ∧ o < len ∧ (i = G * (2 * len) + o ∨ i = G * (2 * len) + o + len) := by
  have hpos : 0 < 2 * len := Nat.pos_of_ne_zero fun h => by simp [h] at hi
  have hdiv := Nat.div_add_mod' i (2 * len)
  have hmod := Nat.mod_lt i hpos
  have hG : i / (2 * len) < n := Nat.div_lt_of_lt_mul (by rwa [Nat.mul_comm])
  rcases lt_or_ge (i % (2 * len)) len with h | h
  · exact ⟨i / (2 * len), i % (2 * len), hG, h, .inl hdiv.symm⟩
  · exact ⟨i / (2 * len), i % (2 * len) - len, hG, by omega, .inr (by omega)⟩

/-! ### The forward layers -/

/-- The exponent of the root that belongs to node `k` of the tree of factors of `X^256 + 1`: node `k` splits into `2 k` and
`2 k + 1`, and nodes 256 to 511 are the linear factors (R90, R92). -/
def rootExp (k : Nat) : Nat := if k < 256 then 2 * brv8 k else 2 * brv8 (k - 256) + 1

/-- The two square roots that node `k` splits into (R92). -/
theorem rootExp_split : ∀ k < 256, 1 ≤ k →
    rootExp k = 2 * brv8 k ∧ rootExp (2 * k) = brv8 k ∧ rootExp (2 * k + 1) = brv8 k + 256 := by
  decide +kernel

/-- The polynomial `f` modulo the factors of one level: block `G` of `len` coefficients is `f` modulo `X^len - r` for the
`r` of node `N + G`; and no coefficient is beyond the bound `b`. -/
structure Evaluated (f : Ints) (N len : Nat) (b : Int) (a : Ints) : Prop where
  size : N * len = 256
  bound : ∀ i < 256, |a i| ≤ b
  value : ∀ G < N, ∀ o < len, (a (G * len + o) : Zq) =
    ∑ m ∈ Finset.range N, (f (o + m * len) : Zq) * (root ^ rootExp (N + G)) ^ m

/-- A sum over powers of `z` is one over the even powers and `z` times one more. -/
theorem sum_even_add_odd (c : Nat → Zq) (z : Zq) (n : Nat) : ∑ m ∈ Finset.range (2 * n), c m * z ^ m =
    ∑ m ∈ Finset.range n, c (2 * m) * (z ^ 2) ^ m + z * ∑ m ∈ Finset.range n, c (2 * m + 1) * (z ^ 2) ^ m := by
  induction n with
  | zero => simp
  | succ n ih =>
    rw [Nat.mul_succ, Finset.sum_range_succ, Finset.sum_range_succ, ih, Finset.sum_range_succ, Finset.sum_range_succ]
    ring

/-- Sound sums do not wrap. -/
theorem wrap32_of_abs_le {x : Int} (h : |x| ≤ 2147483647) : wrap32 x = x := by
  have := abs_le.mp h
  exact wrap32_of_range (by omega)

/-- The butterfly of a forward layer on coefficients within a bound: the sum and the difference do not wrap (R92). -/
theorem forwardButterfly_exact {k g : Nat} {b x y : Int} (hb : b + 8380416 ≤ 2147483647) (hx : |x| ≤ b) (hy : |y| ≤ b) :
    (forwardButterfly k).low g x y = x + montMul (zeta (k + g)) y ∧
    (forwardButterfly k).high g x y = x - montMul (zeta (k + g)) y ∧
    |x + montMul (zeta (k + g)) y| ≤ b + 8380416 ∧ |x - montMul (zeta (k + g)) y| ≤ b + 8380416 := by
  have hyb := abs_le.mp hy
  have hm := abs_lt.mp (abs_montMul_lt_of_fits (abs_zeta_le (k + g)) (y := y) ⟨by omega, by omega⟩)
  have hxb := abs_le.mp hx
  have hsum : |x + montMul (zeta (k + g)) y| ≤ b + 8380416 := abs_le.mpr ⟨by omega, by omega⟩
  have hdiff : |x - montMul (zeta (k + g)) y| ≤ b + 8380416 := abs_le.mpr ⟨by omega, by omega⟩
  exact ⟨wrap32_of_abs_le (hsum.trans hb), wrap32_of_abs_le (hdiff.trans hb), hsum, hdiff⟩

/-- A forward layer splits every factor of its level in two (R92). -/
theorem Evaluated.runs {f a : Ints} {N len : Nat} {b : Int} (h : Evaluated f N (2 * len) b a) (hpos : 1 ≤ N)
    (hb : b + 8380416 ≤ 2147483647) : Evaluated f (2 * N) len (b + 8380416) ((forwardButterfly N).runs len N 0 a) := by
  obtain ⟨hsize, hbound, hvalue⟩ := h
  have hplace : ∀ G < N, ∀ o < len, G * (2 * len) + o + len < 256 := fun G hG o ho => by
    have hle : (G + 1) * (2 * len) ≤ N * (2 * len) := Nat.mul_le_mul_right _ hG
    rw [Nat.succ_mul] at hle
    omega
  have hexact : ∀ G < N, ∀ o < len, _ := fun G hG o ho =>
    forwardButterfly_exact (k := N) (g := G) hb (hbound (G * (2 * len) + o) (by have := hplace G hG o ho; omega))
      (hbound (G * (2 * len) + o + len) (hplace G hG o ho))
  refine ⟨by rw [← hsize]; ring, fun i hi => ?_, fun H hH o ho => ?_⟩
  · obtain ⟨G, o, hG, ho, rfl | rfl⟩ := exists_block_place (hsize ▸ hi)
    all_goals
      obtain ⟨hlow, hhigh⟩ := (forwardButterfly N).runs_apply len (n := N) (Nat.zero_le G) (by omega) ho a
      obtain ⟨hlow', hhigh', hsum, hdiff⟩ := hexact G hG o ho
    · rw [hlow, hlow']
      exact hsum
    · rw [hhigh, hhigh']
      exact hdiff
  · obtain ⟨G, hHG⟩ : ∃ G, H = 2 * G ∨ H = 2 * G + 1 := ⟨H / 2, by omega⟩
    have hG : G < N := by omega
    have hk : N + G < 256 := by
      have hle : N * 2 ≤ N * (2 * len) := Nat.mul_le_mul_left _ (by omega)
      omega
    obtain ⟨hexp, hexp0, hexp1⟩ := rootExp_split (N + G) hk (Nat.le_add_right_of_le hpos)
    obtain ⟨hlow, hhigh⟩ := (forwardButterfly N).runs_apply len (n := N) (Nat.zero_le G) (by omega) ho a
    obtain ⟨hlow', hhigh', -⟩ := hexact G hG o ho
    have hx := hvalue G hG o (by omega)
    have hy := hvalue G hG (o + len) (by omega)
    have hz := montMul_zeta hk (by omega) (a (G * (2 * len) + o + len))
    rw [← Nat.add_assoc] at hy
    have heven : ∀ m, o + 2 * m * len = o + m * (2 * len) := fun m => by ring
    have hodd : ∀ m, o + (2 * m + 1) * len = o + len + m * (2 * len) := fun m => by ring
    have hsquare : (root ^ brv8 (N + G)) ^ 2 = root ^ (2 * brv8 (N + G)) := by rw [← pow_mul, Nat.mul_comm]
    rcases hHG with rfl | rfl
    · have hnode : 2 * N + 2 * G = 2 * (N + G) := by ring
      have hindex : 2 * G * len + o = G * (2 * len) + o := by ring
      rw [hindex, hlow, hlow', Int.cast_add, hz, hx, hy, hexp, hnode, hexp0,
        sum_even_add_odd (fun m => (f (o + m * len) : Zq))]
      simp only [heven, hodd, hsquare]
    · have hnode : 2 * N + (2 * G + 1) = 2 * (N + G) + 1 := by ring
      have hindex : (2 * G + 1) * len + o = G * (2 * len) + o + len := by ring
      have hneg : root ^ (brv8 (N + G) + 256) = -root ^ brv8 (N + G) := by rw [pow_add, root_pow_256]; ring
      rw [hindex, hhigh, hhigh', Int.cast_sub, hz, hx, hy, hexp, hnode, hexp1, hneg,
        sum_even_add_odd (fun m => (f (o + m * len) : Zq))]
      simp only [heven, hodd, neg_sq, hsquare, neg_mul, sub_eq_add_neg]

/-- The forward loops stand before a layer with the running index at `N - 1` and the array at level `N` (R92). -/
structure ForwardAt (f : Ints) (N len : Nat) (b : Int) (ka : Nat × Ints) : Prop where
  index : ka.1 = N - 1
  array : Evaluated f N len b ka.2

/-- The loops over one forward layer (R92). -/
theorem ForwardAt.starts {f : Ints} {len : Nat} {b : Int} {ka : Nat × Ints} (hlen : len ∣ 128)
    (h : ForwardAt f (128 / len) (2 * len) b ka) (hb : b + 8380416 ≤ 2147483647) :
    ForwardAt f (2 * (128 / len)) len (b + 8380416) (forwardStarts len ka) := by
  obtain ⟨k, a⟩ := ka
  obtain ⟨hindex, harray⟩ := h
  dsimp only at hindex harray
  subst hindex
  have hpos : 0 < len := Nat.pos_of_dvd_of_pos hlen (by decide)
  have hcount : 0 < 128 / len := Nat.div_pos (Nat.le_of_dvd (by decide) hlen) hpos
  rw [forwardStarts_eq_runs hpos, Nat.sub_add_cancel hcount]
  exact ⟨by dsimp only; omega, harray.runs hcount hb⟩

/-- The forward loops evaluate the polynomial at the odd powers of the root, and grow no coefficient by more than
`8 (q - 1)` (R90, R92). -/
theorem forwardLoops_evaluated {f : Ints} {b : Int} (hb : b ≤ 2080440319) (hf : ∀ i < 256, |f i| ≤ b) :
    Evaluated f 256 1 (b + 8 * 8380416) (forwardLoops f) := by
  have h0 : ForwardAt f 1 256 b (0, f) := by
    refine ⟨rfl, rfl, hf, fun G hG o _ => ?_⟩
    have hG0 : G = 0 := by omega
    simp [hG0]
  have h128 := h0.starts (len := 128) (by decide) (by omega)
  have h64 := h128.starts (len := 64) (by decide) (by omega)
  have h32 := h64.starts (len := 32) (by decide) (by omega)
  have h16 := h32.starts (len := 16) (by decide) (by omega)
  have h8 := h16.starts (len := 8) (by decide) (by omega)
  have h4 := h8.starts (len := 4) (by decide) (by omega)
  have h2 := h4.starts (len := 2) (by decide) (by omega)
  have h1 := h2.starts (len := 1) (by decide) (by omega)
  have hsum : b + 8380416 + 8380416 + 8380416 + 8380416 + 8380416 + 8380416 + 8380416 + 8380416 = b + 8 * 8380416 := by
    ring
  simp only [forwardLoops, List.foldl_cons, List.foldl_nil]
  exact hsum ▸ h1.array

/-! ### The command NTT -/

/-- The array of a register inside its 256 places. -/
@[simp] theorem State.laneArray_val (s : State) (r : PReg) (j : Fin 256) : s.laneArray r j = s.lane r j :=
  dif_pos j.isLt

/-- A bound on the lanes is one on the array. -/
theorem State.abs_laneArray_le {s : State} {r : PReg} {b : Int} (h : ∀ j, |s.lane r j| ≤ b) :
    ∀ i < 256, |s.laneArray r i| ≤ b := fun i hi => by
  rw [show s.laneArray r i = s.lane r ⟨i, hi⟩ from dif_pos hi]
  exact h _

/-- NTT completes with the lanes evaluated and within the bound (R92). -/
theorem ntt_evaluated {s : State} (pd : PReg) {pa : PReg} {b : Int} (hb : b ≤ 2080440319)
    (hbound : ∀ j, |s.lane pa j| ≤ b) : ∃ t, completesInto s (.ntt pd pa) pd t ∧ (∀ j, |t.lane pd j| ≤ b + 8 * 8380416) ∧
      ∀ i : Fin 256, (t.lane pd i : Zq) = ∑ j : Fin 256, (s.lane pa j : Zq) * root ^ ((2 * brv8 i + 1) * j.val) := by
  obtain ⟨t, ht, hlanes⟩ := nttRunsTheForwardLoops s pd pa
  have hev := forwardLoops_evaluated hb (State.abs_laneArray_le hbound)
  have hlanes : ∀ j : Fin 256, t.lane pd j = forwardLoops (s.laneArray pa) j := hlanes
  refine ⟨t, ht, fun j => ?_, fun i => ?_⟩
  · rw [hlanes]
    exact hev.bound j j.isLt
  · have hi := hev.value i i.isLt 0 (by decide)
    have hexp : rootExp (256 + i) = 2 * brv8 i + 1 := by
      rw [rootExp, if_neg (by omega), Nat.add_sub_cancel_left]
    simp only [mul_one, add_zero, zero_add, hexp] at hi
    rw [hlanes, hi, Finset.sum_range]
    exact Finset.sum_congr rfl fun j _ => by rw [State.laneArray_val, pow_mul]

/-- Settles O28: each of the eight layers adds at most `q - 1`. -/
theorem nttGrowthBound : Obligations.NttGrowthBound := by
  intro s pd pa b _ hb hbound
  obtain ⟨t, ht, hgrown, -⟩ := ntt_evaluated pd hb hbound
  exact ⟨t, ht, hgrown⟩

/-- Settles O29: the last level's factors are linear, and a polynomial modulo one is its value at the root. -/
theorem nttEvaluatesAtTheOddPowers : Obligations.NttEvaluatesAtTheOddPowers := by
  intro s pd pa hbound
  obtain ⟨t, ht, -, hvalue⟩ := ntt_evaluated pd le_rfl hbound
  refine ⟨t, ht, fun i => (zq_eq_iff _ _).mp ?_⟩
  rw [hvalue]
  push_cast [root]
  rfl

end Sys2Proof.Machine
end

section
/-! PROOFS. INTT interpolates, and the two round trips of R94: the inverse layers sum over growing blocks, the roots'
powers are orthogonal, and so INTT undoes NTT and takes point-wise products to products modulo `X^256 + 1`. -/

namespace Sys2Proof.Machine

/-! ### The inverse layers -/

/-- The exponent of the inverse of the root at which NTT's output `i` is evaluated (R93). -/
def inverseExp (i : Nat) : Nat := 511 - 2 * brv8 i

/-- The exponents of block `G` of an inverse layer, and the layer's zeta: the two halves differ in the sign only. -/
theorem inverseExp_halves : ∀ len < 129, len ∣ 128 → ∀ G < 128 / len, ∀ p < len,
    inverseExp (G * (2 * len) + p) * len % 512 = (brv8 (2 * (128 / len) - 1 - G) + 256) % 512 ∧
    inverseExp (G * (2 * len) + (len + p)) * len % 512 = brv8 (2 * (128 / len) - 1 - G) % 512 := by
  decide +kernel

/-- The powers that an inverse layer multiplies the two halves of a block by. -/
theorem root_pow_halves {len G p : Nat} (hlen : len ∣ 128) (hG : G < 128 / len) (hp : p < len) :
    (root ^ inverseExp (G * (2 * len) + p)) ^ len = -root ^ brv8 (2 * (128 / len) - 1 - G) ∧
    (root ^ inverseExp (G * (2 * len) + (len + p))) ^ len = root ^ brv8 (2 * (128 / len) - 1 - G) := by
  have hle : len < 129 := Nat.lt_succ_of_le (Nat.le_of_dvd (by decide) hlen)
  obtain ⟨hlow, hhigh⟩ := inverseExp_halves len hle hlen G hG p hp
  rw [← pow_mul, ← pow_mul, root_pow_congr hlow, root_pow_congr hhigh, pow_add, root_pow_256]
  exact ⟨by ring, rfl⟩

/-- The sums over the blocks of one level: block `G` of `len` coefficients holds at `o` the sum over `f`'s block with the
powers of the inverse roots; and no coefficient is beyond the bound `b`. -/
structure Combined (f : Ints) (N len : Nat) (b : Int) (a : Ints) : Prop where
  size : N * len = 256
  bound : ∀ i < 256, |a i| ≤ b
  value : ∀ G < N, ∀ o < len, (a (G * len + o) : Zq) =
    ∑ p ∈ Finset.range len, (f (G * len + p) : Zq) * (root ^ inverseExp (G * len + p)) ^ o

/-- The butterfly of an inverse layer on coefficients within a bound: nothing wraps (R93, R191). -/
theorem inverseButterfly_exact {k g : Nat} {b x y : Int} (hb : 2 * b ≤ 2147483647) (hq : 8380416 ≤ 2 * b) (hx : |x| ≤ b)
    (hy : |y| ≤ b) :
    (inverseButterfly k).low g x y = x + y ∧ (inverseButterfly k).high g x y = montMul (-zeta (k - g)) (x - y) ∧
    |x + y| ≤ 2 * b ∧ |montMul (-zeta (k - g)) (x - y)| ≤ 2 * b := by
  have hxb := abs_le.mp hx
  have hyb := abs_le.mp hy
  have hsum : |x + y| ≤ 2 * b := abs_le.mpr ⟨by omega, by omega⟩
  have hzeta : |-zeta (k - g)| ≤ 4190208 := (abs_neg _).trans_le (abs_zeta_le _)
  have hprod := abs_montMul_lt_of_fits hzeta (y := x - y) ⟨by omega, by omega⟩
  have hdiff : wrap32 (x - y) = x - y := wrap32_of_range (by omega)
  exact ⟨wrap32_of_abs_le (hsum.trans hb), congrArg (montMul _) hdiff, hsum, by omega⟩

/-- An inverse layer joins the blocks of its level in pairs (R93). -/
theorem Combined.runs {f a : Ints} {len : Nat} {b : Int} (hlen : len ∣ 128)
    (h : Combined f (2 * (128 / len)) len b a) (hb : 2 * b ≤ 2147483647) (hq : 8380416 ≤ 2 * b) :
    Combined f (128 / len) (2 * len) (2 * b)
      ((inverseButterfly (2 * (128 / len) - 1)).runs len (128 / len) 0 a) := by
  obtain ⟨hsize, hbound, hvalue⟩ := h
  have hroots := fun G p => root_pow_halves (G := G) (p := p) hlen
  have hdouble : 128 / len * 2 * len = 256 := by rw [Nat.mul_comm (128 / len), hsize]
  have hle : len ≤ 128 := Nat.le_of_dvd (by decide) hlen
  have hindex : ∀ G < 128 / len, 2 * (128 / len) - 1 - G < 256 ∧ 1 ≤ 2 * (128 / len) - 1 - G := fun G hG => by
    have : 128 / len ≤ 128 := Nat.div_le_self ..
    omega
  generalize 128 / len = M at *
  have hplace : ∀ G < M, ∀ o < len, G * (2 * len) + o + len < 256 := fun G hG o ho => by
    have hle : (G + 1) * (2 * len) ≤ M * (2 * len) := Nat.mul_le_mul_right _ hG
    rw [Nat.succ_mul, ← Nat.mul_assoc M, hdouble] at hle
    omega
  have hexact : ∀ G < M, ∀ o < len, _ := fun G hG o ho =>
    inverseButterfly_exact (k := 2 * M - 1) (g := G) hb hq
      (hbound (G * (2 * len) + o) (by have := hplace G hG o ho; omega))
      (hbound (G * (2 * len) + o + len) (hplace G hG o ho))
  refine ⟨by rw [← Nat.mul_assoc, hdouble], fun i hi => ?_, fun G hG o ho => ?_⟩
  · obtain ⟨G, o, hG, ho, rfl | rfl⟩ := exists_block_place (n := M) (len := len) (by rw [← Nat.mul_assoc, hdouble]; exact hi)
    all_goals
      obtain ⟨hlow, hhigh⟩ := (inverseButterfly (2 * M - 1)).runs_apply len (n := M) (Nat.zero_le G) (by omega) ho a
      obtain ⟨hlow', hhigh', hsum, hprod⟩ := hexact G hG o ho
    · rw [hlow, hlow']
      exact hsum
    · rw [hhigh, hhigh']
      exact hprod
  · have hfirst : ∀ p, G * 2 * len + p = G * (2 * len) + p := fun p => by ring
    have hsecond : ∀ p, (G * 2 + 1) * len + p = G * (2 * len) + (len + p) := fun p => by ring
    have hhalves : ∀ o < len, _ ∧ _ := fun o ho =>
      And.intro (hvalue (G * 2) (by omega) o ho) (hvalue (G * 2 + 1) (by omega) o ho)
    simp only [hfirst, hsecond] at hhalves
    have hsplit : ∀ c : Nat → Zq, ∑ p ∈ Finset.range (2 * len), c p =
        ∑ p ∈ Finset.range len, c p + ∑ p ∈ Finset.range len, c (len + p) := fun c => by
      rw [Nat.two_mul, Finset.sum_range_add]
    obtain ⟨o', ho', rfl | rfl⟩ : ∃ o' < len, o = o' ∨ o = o' + len :=
      (lt_or_ge o len).elim (fun h => ⟨o, h, .inl rfl⟩) fun h => ⟨o - len, by omega, .inr (by omega)⟩
    all_goals
      obtain ⟨hlow, hhigh⟩ := (inverseButterfly (2 * M - 1)).runs_apply len (n := M) (Nat.zero_le G) (by omega) ho' a
      obtain ⟨hlow', hhigh', -⟩ := hexact G hG _ ho'
      obtain ⟨hx, hy⟩ := hhalves _ ho'
      rw [Nat.add_comm len, ← Nat.add_assoc] at hy
    · rw [hlow, hlow', Int.cast_add, hx, hy, hsplit]
    · rw [← Nat.add_assoc, hhigh, hhigh', montMul_neg_zeta (hindex G hG).1 (hindex G hG).2, Int.cast_sub, hx, hy, hsplit,
        mul_sub, Finset.mul_sum, Finset.mul_sum, sub_eq_add_neg, ← Finset.sum_neg_distrib]
      congr 1
      · refine Finset.sum_congr rfl fun p hp => ?_
        rw [pow_add, (hroots G p hG (Finset.mem_range.mp hp)).1]
        ring
      · refine Finset.sum_congr rfl fun p hp => ?_
        rw [pow_add, (hroots G p hG (Finset.mem_range.mp hp)).2]
        ring

/-- The inverse loops stand before a layer with the running index at `N` and the array at level `N` (R93). -/
structure InverseAt (f : Ints) (N len : Nat) (b : Int) (ka : Nat × Ints) : Prop where
  index : ka.1 = N
  array : Combined f N len b ka.2

/-- The loops over one inverse layer (R93). -/
theorem InverseAt.starts {f : Ints} {len : Nat} {b : Int} {ka : Nat × Ints} (hlen : len ∣ 128)
    (h : InverseAt f (2 * (128 / len)) len b ka) (hb : 2 * b ≤ 2147483647) (hq : 8380416 ≤ 2 * b) :
    InverseAt f (128 / len) (2 * len) (2 * b) (inverseStarts len ka) := by
  obtain ⟨k, a⟩ := ka
  obtain ⟨hindex, harray⟩ := h
  dsimp only at hindex harray
  subst hindex
  rw [inverseStarts_eq_runs (Nat.pos_of_dvd_of_pos hlen (by decide))]
  exact ⟨by dsimp only; omega, harray.runs hlen hb hq⟩

/-- The layers of the inverse transform, without the final scaling (R93). -/
def inverseLayers (a : Ints) : Ints :=
  ([1, 2, 4, 8, 16, 32, 64, 128].foldl (fun ka len => inverseStarts len ka) (256, a)).2

/-- The final scaling (R93). -/
theorem inverseLoops_apply (a : Ints) (j : Nat) : inverseLoops a j = montMul 41978 (inverseLayers a j) := rfl

/-- The inverse layers keep every coefficient in 32 bits. -/
theorem inverseLayers_fits {a : Ints} (hfits : ∀ i, FitsCoeff (a i)) (i : Nat) : FitsCoeff (inverseLayers a i) := by
  have hstep : ∀ ka : Nat × Ints, (∀ i, FitsCoeff (ka.2 i)) → ∀ len ∈ [1, 2, 4, 8, 16, 32, 64, 128],
      ∀ i, FitsCoeff ((inverseStarts len ka).2 i) := fun ka hka len hlen => by
    rw [inverseStarts_eq_runs (by simp at hlen; omega)]
    exact Butterfly.runs_fits _ _ _ _ hka
  exact List.foldlRecOn (motive := fun ka : Nat × Ints => ∀ i, FitsCoeff (ka.2 i)) _ _ hfits hstep i

/-- On inputs of magnitude below `q` the inverse layers leave at `j` the sum of the inputs times the inverse roots' powers
(R93). -/
theorem inverseLayers_value {f : Ints} (hf : ∀ i < 256, |f i| ≤ 8380416) {j : Nat} (hj : j < 256) :
    (inverseLayers f j : Zq) = ∑ p ∈ Finset.range 256, (f p : Zq) * (root ^ inverseExp p) ^ j := by
  have h0 : InverseAt f 256 1 8380416 (256, f) := by
    refine ⟨rfl, rfl, hf, fun G _ o ho => ?_⟩
    have ho0 : o = 0 := by omega
    simp [ho0]
  have h1 := h0.starts (len := 1) (by decide) (by decide) (by decide)
  have h2 := h1.starts (len := 2) (by decide) (by decide) (by decide)
  have h4 := h2.starts (len := 4) (by decide) (by decide) (by decide)
  have h8 := h4.starts (len := 8) (by decide) (by decide) (by decide)
  have h16 := h8.starts (len := 16) (by decide) (by decide) (by decide)
  have h32 := h16.starts (len := 32) (by decide) (by decide) (by decide)
  have h64 := h32.starts (len := 64) (by decide) (by decide) (by decide)
  have h128 := h64.starts (len := 128) (by decide) (by decide) (by decide)
  simp only [inverseLayers, List.foldl_cons, List.foldl_nil]
  have hvalue := h128.array.value 0 (by decide) j hj
  simpa only [Nat.zero_mul, Nat.zero_add] using hvalue

/-! ### The command INTT -/

/-- The final scaling by `F` multiplies by `2^32 / 256` (R93). -/
theorem montMul_scale (x : Int) : (256 : Zq) * montMul 41978 x = 2 ^ 32 * x := by
  have hscale : (256 : Zq) * 41978 = 2 ^ 32 * 2 ^ 32 := by
    have hint := (zq_eq_iff (256 * 41978) (2 ^ 32 * 2 ^ 32)).mpr (by decide)
    exact_mod_cast hint
  refine mul_pow_cancel ?_
  rw [mul_assoc, montMul_mul_pow, ← mul_assoc, Int.cast_ofNat, hscale]
  ring

/-- INTT completes with lanes of magnitude below `q`, and on such lanes interpolates (R93). -/
theorem intt_interpolated (s : State) (pd pa : PReg) : ∃ t, completesInto s (.intt pd pa) pd t ∧
    (∀ j, |t.lane pd j| < 8380417) ∧ ((∀ j, |s.lane pa j| < 8380417) → ∀ j : Fin 256, (256 : Zq) * t.lane pd j =
      2 ^ 32 * ∑ i : Fin 256, (s.lane pa i : Zq) * root ^ (inverseExp i * j.val)) := by
  obtain ⟨t, ht, hlanes⟩ := inttRunsTheInverseLoops s pd pa
  have hlanes : ∀ j : Fin 256, t.lane pd j = montMul 41978 (inverseLayers (s.laneArray pa) j) := hlanes
  refine ⟨t, ht, fun j => ?_, fun hbound j => ?_⟩
  · rw [hlanes]
    exact abs_montMul_lt_of_fits (by decide) (inverseLayers_fits (s.laneArray_fits pa) j)
  · have hf := State.abs_laneArray_le (b := 8380416) fun j => Int.le_of_lt_add_one (hbound j)
    rw [hlanes, montMul_scale, inverseLayers_value hf j.isLt, Finset.sum_range]
    exact congrArg _ (Finset.sum_congr rfl fun i _ => by rw [State.laneArray_val, pow_mul])

/-- Settles O30: the layers join the evaluations in pairs until one block holds the sums over all 256, and the final
scaling brings every lane below `q`. -/
theorem inttInterpolatesFromTheOddPowers : Obligations.InttInterpolatesFromTheOddPowers := by
  intro s pd pa
  obtain ⟨t, ht, hrange, hvalue⟩ := intt_interpolated s pd pa
  refine ⟨t, ht, hrange, fun hbound j => (zq_eq_iff _ _).mp ?_⟩
  have hj := hvalue hbound j
  push_cast [root, inverseExp] at hj ⊢
  exact hj

end Sys2Proof.Machine
end

section
/-! PROOFS. The round trips of R94: the roots' powers are orthogonal, so INTT undoes NTT up to the Montgomery factor and
takes point-wise products to products modulo `X^256 + 1`. -/

namespace Sys2Proof.Machine

/-! ### Orthogonality -/

/-- `q` is a prime number (R5). -/
theorem q_prime : Nat.Prime 8380417 := by norm_num

/-- The root has order 512: its power 256 is not yet 1. -/
theorem orderOf_root : orderOf root = 512 := by
  have hne : ¬root ^ 2 ^ 8 = 1 := by
    rw [show 2 ^ 8 = 256 by rfl, root_pow_256]
    intro h
    have hint := (zq_eq_iff (-1) 1).mp (by exact_mod_cast h)
    exact absurd hint (by decide)
  exact orderOf_eq_prime_pow hne root_pow_512

/-- Bit reversal reorders the numbers below 256. -/
theorem sum_brv8 (c : Nat → Zq) : ∑ i : Fin 256, c (brv8 i) = ∑ n ∈ Finset.range 256, c n := by
  have hlt : ∀ n < 256, brv8 n < 256 ∧ brv8 (brv8 n) = n := by decide +kernel
  rw [← Finset.sum_range fun i => c (brv8 i)]
  have hmem : ∀ n ∈ Finset.range 256, brv8 n ∈ Finset.range 256 := fun n hn =>
    Finset.mem_range.mpr (hlt n (Finset.mem_range.mp hn)).1
  have hinv : ∀ n ∈ Finset.range 256, brv8 (brv8 n) = n := fun n hn => (hlt n (Finset.mem_range.mp hn)).2
  exact Finset.sum_nbij' brv8 brv8 hmem hmem hinv hinv fun _ _ => rfl

/-- The powers `e` of the odd powers of the root sum to 0 unless 256 divides `e`. -/
theorem sum_root_pow (e : Nat) :
    ∑ i : Fin 256, root ^ ((2 * brv8 i + 1) * e) = if 256 ∣ e then 256 * root ^ e else 0 := by
  have : Fact (Nat.Prime 8380417) := ⟨q_prime⟩
  have hterm : ∀ i : Fin 256, root ^ ((2 * brv8 i + 1) * e) = (root ^ (2 * e)) ^ brv8 i * root ^ e := fun i => by
    rw [← pow_mul, ← pow_add]
    ring_nf
  have hone : root ^ (2 * e) = 1 ↔ 256 ∣ e := by
    rw [← orderOf_dvd_iff_pow_eq_one, orderOf_root]
    omega
  simp only [hterm]
  rw [← Finset.sum_mul, sum_brv8 fun n => (root ^ (2 * e)) ^ n]
  split_ifs with h
  · rw [hone.mpr h]
    simp
  · have hgeom := geom_sum_mul (root ^ (2 * e)) 256
    have hpow : (root ^ (2 * e)) ^ 256 = 1 := by
      rw [← pow_mul, show 2 * e * 256 = 512 * e by ring, pow_mul, root_pow_512, one_pow]
    rw [hpow, sub_self] at hgeom
    rw [(mul_eq_zero.mp hgeom).resolve_right (sub_ne_zero.mpr (mt hone.mp h)), zero_mul]

/-- An inverse root is power 511 of the root. -/
theorem root_pow_inverseExp (i : Fin 256) (k : Nat) :
    root ^ (inverseExp i * k) = root ^ ((2 * brv8 i + 1) * (511 * k)) := by
  have hexp : ∀ i < 256, inverseExp i % 512 = (2 * brv8 i + 1) * 511 % 512 := by decide +kernel
  rw [pow_mul, root_pow_congr (hexp i i.isLt), ← pow_mul, Nat.mul_assoc]

/-- Interpolation inverts evaluation at the odd powers of the root, up to the factor 256. -/
theorem sum_evaluations (c : Fin 256 → Zq) (k : Fin 256) :
    ∑ i : Fin 256, (∑ j : Fin 256, c j * root ^ ((2 * brv8 i + 1) * j.val)) * root ^ (inverseExp i * k.val) =
      256 * c k := by
  have hterm : ∀ j : Fin 256, ∑ i : Fin 256, c j * root ^ ((2 * brv8 i + 1) * j.val) * root ^ (inverseExp i * k.val) =
      c j * if 256 ∣ j.val + 511 * k.val then 256 * root ^ (j.val + 511 * k.val) else 0 := fun j => by
    rw [← sum_root_pow, Finset.mul_sum]
    refine Finset.sum_congr rfl fun i _ => ?_
    rw [root_pow_inverseExp, mul_assoc, ← pow_add, ← Nat.mul_add]
  simp only [Finset.sum_mul]
  rw [Finset.sum_comm]
  simp only [hterm]
  rw [Finset.sum_eq_single k]
  · have hdvd : k.val + 511 * k.val = 512 * k.val := by ring
    rw [hdvd, if_pos (by omega), pow_mul, root_pow_512, one_pow]
    ring
  · intro j _ hjk
    have hne : ¬256 ∣ j.val + 511 * k.val := fun h => hjk (Fin.ext (by omega))
    rw [if_neg hne, mul_zero]
  · exact fun h => absurd (Finset.mem_univ k) h

/-- INTT turns evaluations of `c` into `c` times the Montgomery factor (R93, R94). -/
theorem intt_of_evaluations {s : State} (pd : PReg) {pa : PReg} {c : Fin 256 → Zq} (hbound : ∀ j, |s.lane pa j| < 8380417)
    (heval : ∀ i : Fin 256, (s.lane pa i : Zq) = ∑ j : Fin 256, c j * root ^ ((2 * brv8 i + 1) * j.val)) :
    ∃ t, completesInto s (.intt pd pa) pd t ∧ ∀ j, (t.lane pd j : Zq) = 2 ^ 32 * c j := by
  obtain ⟨t, ht, -, hvalue⟩ := intt_interpolated s pd pa
  refine ⟨t, ht, fun j => mul_pow_cancel ?_⟩
  have hj := hvalue hbound j
  simp only [heval] at hj
  rw [sum_evaluations c j] at hj
  calc (t.lane pd j : Zq) * 2 ^ 32 = 2 ^ 24 * (256 * t.lane pd j) := by ring
    _ = 2 ^ 32 * c j * 2 ^ 32 := by rw [hj]; ring

/-! ### NTT, PRED and INTT in a row -/

/-- PRED keeps the lanes modulo `q` and leaves them of magnitude below `q` (R81, R84). -/
theorem pred_reduced (s : State) (pd pa : PReg) : ∃ t, completesInto s (.pred pd pa) pd t ∧
    (∀ j, |t.lane pd j| < 8380417) ∧ ∀ j, (t.lane pd j : Zq) = s.lane pa j := by
  obtain ⟨⟨t, ht, hlanes⟩, hrange⟩ := predReducesEveryLane s pd pa
  refine ⟨t, ht, fun j => ?_, fun j => ?_⟩
  · obtain ⟨hlow, hhigh⟩ := hrange j
    rw [hlanes]
    exact abs_lt.mpr ⟨by dsimp only; omega, by dsimp only; omega⟩
  · rw [hlanes, Int.cast_sub, Int.cast_mul, q_eq_zero, mul_zero, sub_zero]

/-- Settles O31: NTT evaluates, PRED keeps the evaluations modulo `q`, and INTT interpolates them. -/
theorem inttUndoesNttUpToTheMontgomeryFactor : Obligations.InttUndoesNttUpToTheMontgomeryFactor := by
  intro s r hbound
  obtain ⟨t, ht, -, heval⟩ := ntt_evaluated r le_rfl hbound
  obtain ⟨u, hu, hsmall, hkept⟩ := pred_reduced t r r
  obtain ⟨v, hv, hvalue⟩ := intt_of_evaluations r hsmall fun i => (hkept i).trans (heval i)
  refine ⟨t, u, v, ht.1, hu.1, hv.1, fun j => (zq_eq_iff _ _).mp ?_⟩
  rw [hvalue]
  push_cast
  rfl

/-! ### Products -/

/-- At a root of `X^256 + 1` the product of two values is the value of the product modulo `X^256 + 1` (R95). -/
theorem eval_ringProduct (a b : Fin 256 → Int) {z : Zq} (hz : z ^ 256 = -1) :
    (∑ j : Fin 256, (a j : Zq) * z ^ j.val) * (∑ l : Fin 256, (b l : Zq) * z ^ l.val) =
      ∑ k : Fin 256, (ringProduct a b k : Zq) * z ^ k.val := by
  have hterm : ∀ i k : Fin 256, (a i : Zq) * z ^ i.val * ((b (k - i) : Zq) * z ^ (k - i).val) =
      ((if i.val ≤ k.val then a i * b (k - i) else -(a i * b (k - i)) : Int) : Zq) * z ^ k.val := fun i k => by
    have hexp : z ^ i.val * z ^ (k - i).val = if i.val ≤ k.val then z ^ k.val else -z ^ k.val := by
      rw [← pow_add]
      split_ifs with h
      · rw [Fin.sub_val_of_le h, Nat.add_sub_cancel' h]
      · have hsum : i.val + (k - i).val = k.val + 256 := by rw [Fin.sub_def]; dsimp only; omega
        rw [hsum, pow_add, hz, mul_neg_one]
    calc _ = (a i : Zq) * b (k - i) * (z ^ i.val * z ^ (k - i).val) := by ring
      _ = _ := by
        rw [hexp]
        split_ifs <;> push_cast <;> ring
  calc _ = ∑ i : Fin 256, ∑ k : Fin 256, (a i : Zq) * z ^ i.val * ((b (k - i) : Zq) * z ^ (k - i).val) := by
        rw [Finset.sum_mul]
        refine Finset.sum_congr rfl fun i _ => ?_
        rw [Finset.mul_sum]
        exact (Equiv.sum_comp (Equiv.subRight i) fun l => (a i : Zq) * z ^ i.val * ((b l : Zq) * z ^ l.val)).symm
    _ = _ := by
        rw [Finset.sum_comm]
        refine Finset.sum_congr rfl fun k _ => ?_
        simp only [hterm]
        rw [ringProduct, Int.cast_sum, Finset.sum_mul]

/-- PWMUL multiplies evaluations: the result evaluates the product of the polynomials times `2^-32` (R94, R122). -/
theorem pwmul_of_evaluations {s : State} (pd : PReg) {pa pb : PReg} {f g : Fin 256 → Int}
    (ha : ∀ j, |s.lane pa j| ≤ 8380416 + 8 * 8380416) (hb : ∀ j, |s.lane pb j| ≤ 8380416 + 8 * 8380416)
    (hf : ∀ i : Fin 256, (s.lane pa i : Zq) = ∑ j : Fin 256, (f j : Zq) * root ^ ((2 * brv8 i + 1) * j.val))
    (hg : ∀ i : Fin 256, (s.lane pb i : Zq) = ∑ j : Fin 256, (g j : Zq) * root ^ ((2 * brv8 i + 1) * j.val)) :
    ∃ t, completesInto s (.pwmul pd pa pb) pd t ∧ (∀ j, |t.lane pd j| < 8380417) ∧ ∀ i : Fin 256, (t.lane pd i : Zq) =
      ∑ k : Fin 256, (ringProduct f g k : Zq) * 8265825 * root ^ ((2 * brv8 i + 1) * k.val) := by
  obtain ⟨t, ht, hprod⟩ := pwmul_lanesBecome s pd pa pb
  refine ⟨t, ht, fun j => ?_, fun i => mul_pow_cancel ?_⟩
  · rw [hprod]
    refine abs_montMul_lt ?_
    calc |s.lane pa j * s.lane pb j| = |s.lane pa j| * |s.lane pb j| := abs_mul ..
      _ ≤ (8380416 + 8 * 8380416) * (8380416 + 8 * 8380416) := mul_le_mul (ha j) (hb j) (abs_nonneg _) (by decide)
      _ < 2 ^ 31 * 8380417 := by decide
  · have hz : (root ^ (2 * brv8 i + 1)) ^ 256 = -1 := by
      rw [← pow_mul, Nat.mul_comm, pow_mul, root_pow_256]
      exact Odd.neg_one_pow ⟨_, rfl⟩
    have hring := eval_ringProduct f g hz
    simp only [← pow_mul] at hring
    rw [hprod, montMul_mul_pow, hf, hg, hring, Finset.sum_mul]
    refine Finset.sum_congr rfl fun k _ => ?_
    calc _ = (ringProduct f g k : Zq) * root ^ ((2 * brv8 i + 1) * k.val) * (2 ^ 32 * 8265825) := by
          rw [pow_mul_inverse, mul_one]
      _ = _ := by ring

/-- Settles O32: PWMUL multiplies the evaluations, which are those of the product, and INTT interpolates them; PWMUL's
factor `2^-32` and INTT's `2^32` cancel. -/
theorem transformsMultiplyInTheRing : Obligations.TransformsMultiplyInTheRing := by
  intro s a b c hab ha hb
  obtain ⟨t, ht, htbound, hteval⟩ := ntt_evaluated a (b := 8380416) (by decide) fun j => Int.le_of_lt_add_one (ha j)
  have htb : t.lane b = s.lane b := funext fun j => by
    rw [State.lane, ht.2.2 b hab.symm]
    rfl
  have hb : ∀ j, |t.lane b j| ≤ 8380416 := fun j => htb ▸ Int.le_of_lt_add_one (hb j)
  obtain ⟨u, hu, hubound, hueval⟩ := ntt_evaluated b (by decide) hb
  have hua : u.lane a = t.lane a := funext fun j => by
    rw [State.lane, hu.2.2 a hab]
    rfl
  obtain ⟨v, hv, hvbound, hveval⟩ := pwmul_of_evaluations c (hua ▸ htbound) hubound (hua ▸ hteval) (htb ▸ hueval)
  obtain ⟨w, hw, hvalue⟩ := intt_of_evaluations c hvbound hveval
  refine ⟨t, u, v, w, ht.1, hu.1, hv.1, hw.1, fun k => (zq_eq_iff _ _).mp ?_⟩
  rw [hvalue, mul_left_comm, pow_mul_inverse, mul_one]

end Sys2Proof.Machine
end

section
/-! PROOFS. HINTENC (R150, R151): the rows of a group as the ones in them, the bytes of their encoding, and the faults in
their order. -/

namespace Sys2Proof.Machine

/-! ### The ones of a row -/

/-- A coefficient is 0 as an integer only if it is 0. -/
theorem coeff_eq_zero_iff (c : Coeff) : c = 0 ↔ c.toInt = 0 := BitVec.toInt_inj (y := 0#32).symm

/-- A coefficient is 1 as an integer only if it is 1. -/
theorem coeff_eq_one_iff (c : Coeff) : c = 1 ↔ c.toInt = 1 := BitVec.toInt_inj (y := 1#32).symm

/-- The ones of a row are rising. -/
theorem onesOf_pairwise (row : RingElement) : (onesOf row).Pairwise (· < ·) := by
  have hfst : ((List.range 256).zip row.toList).map Prod.fst = List.range 256 := List.map_fst_zip (by simp)
  have hpairs : ((List.range 256).zip row.toList).Pairwise fun a b => a.1 < b.1 := by
    rw [← List.pairwise_map (f := Prod.fst) (R := (· < ·)), hfst]
    exact List.pairwise_lt_range
  rw [onesOf, List.pairwise_filterMap]
  refine hpairs.imp fun {a b} hab x hx y hy => ?_
  simp only [Option.ite_none_right_eq_some, Option.some.injEq] at hx hy
  exact hx.2 ▸ hy.2 ▸ hab

/-- The ones of a row are as many as its coefficients equal to 1. -/
theorem onesOf_length (row : RingElement) : (onesOf row).length = (ints row).countP (· = 1) := by
  have hsnd : ((List.range 256).zip row.toList).map Prod.snd = row.toList := List.map_snd_zip (by simp)
  rw [onesOf, List.length_filterMap_eq_countP, ints, List.countP_map]
  conv_rhs => rw [← hsnd, List.countP_map]
  refine List.countP_congr fun p _ => ?_
  by_cases h : p.2 = 1 <;> simp [h, ← coeff_eq_one_iff]

/-! ### The rows of a group -/

/-- The rows of a group as a list. -/
theorem State.group_eq_map (s : State) {r : PReg} (h : r.val ≤ 8) : s.group r = (List.range 8).map (s.row r) := by
  refine List.ext_getElem (by simp [State.group_length s r h]) fun i hi _ => ?_
  rw [State.group_length s r h] at hi
  rw [State.group_getElem s r h i hi, List.getElem_map, List.getElem_range]

/-- Place `256 i + j` of the coefficients of a list of rows is coefficient `j` of row `i`. -/
theorem flatMap_toList_getElem? (rows : List RingElement) (i : Nat) (j : Fin 256) :
    (rows.flatMap Vector.toList)[256 * i + j.val]? = rows[i]?.map (·[j]) := by
  induction rows generalizing i with
  | nil => rfl
  | cons row rows ih =>
    rw [List.flatMap_cons]
    cases i with
    | zero =>
      rw [List.getElem?_append_left (by simp)]
      simp
    | succ i =>
      have hplace : 256 * (i + 1) + j.val - row.toList.length = 256 * i + j.val := by rw [Vector.length_toList]; omega
      rw [List.getElem?_append_right (by rw [Vector.length_toList]; omega), hplace, ih]
      rfl

/-- Place `256 i + j` of the coefficients of a group. -/
theorem State.group_place (s : State) {r : PReg} (hr : r.val ≤ 8) {i : Nat} (hi : i < 8) (j : Fin 256) :
    ((s.group r).flatMap Vector.toList)[256 * i + j.val]? = some (s.row r i)[j] := by
  rw [flatMap_toList_getElem?, List.getElem?_eq_getElem (by rw [s.group_length r hr]; exact hi), s.group_getElem r hr i hi]
  rfl

/-- The check of HINTENC passes a coefficient that is a bit and no other (R151). -/
theorem nonBit_eq_false_iff (c : Coeff) : (decide (c ≠ 0) && decide (c ≠ 1)) = false ↔ c.toInt = 0 ∨ c.toInt = 1 := by
  rw [← coeff_eq_zero_iff, ← coeff_eq_one_iff, Bool.and_eq_false_iff, decide_eq_false_iff_not, decide_eq_false_iff_not,
    not_not, not_not]

/-- No coefficient of a group fails HINTENC's check when all are bits (R151). -/
theorem State.firstNonBit_eq_none_iff (s : State) {r : PReg} (hr : r.val ≤ 8) :
    firstNonBit (s.group r) = none ↔ s.rowsAreBits r := by
  rw [firstNonBit, List.findIdx?_eq_none_iff]
  constructor
  · intro h i hi j
    exact (nonBit_eq_false_iff _).mp (h _ (List.mem_of_getElem? (s.group_place hr hi j)))
  · intro h c hc
    obtain ⟨row, hrow, hc⟩ := List.mem_flatMap.mp hc
    rw [s.group_eq_map hr] at hrow
    obtain ⟨i, hi, rfl⟩ := List.mem_map.mp hrow
    obtain ⟨j, hj, rfl⟩ := List.mem_iff_getElem.mp hc
    rw [Vector.getElem_toList]
    exact (nonBit_eq_false_iff _).mpr (h i (List.mem_range.mp hi) ⟨j, by simpa using hj⟩)

/-- The first coefficient of a group that is no bit is the one HINTENC's check finds (R151). -/
theorem State.firstNonBit_eq_some (s : State) {r : PReg} (hr : r.val ≤ 8) {i : Nat} (hi : i < 8) {j : Fin 256}
    (hbad : ¬(((s.row r i)[j]).toInt = 0 ∨ ((s.row r i)[j]).toInt = 1))
    (hfirst : ∀ i' < 8, ∀ j' : Fin 256, 256 * i' + j'.val < 256 * i + j.val →
      ((s.row r i')[j']).toInt = 0 ∨ ((s.row r i')[j']).toInt = 1) :
    firstNonBit (s.group r) = some (256 * i + j.val) := by
  obtain ⟨hlt, hplace⟩ := List.getElem?_eq_some_iff.mp (s.group_place hr hi j)
  refine List.findIdx?_eq_some_iff_getElem.mpr ⟨hlt, ?_, fun k hk => ?_⟩
  · rw [hplace, ← Bool.not_eq_false]
    exact mt (nonBit_eq_false_iff _).mp hbad
  · have hsplit : 256 * (k / 256) + k % 256 = k := Nat.div_add_mod k 256
    have hrow : k / 256 < 8 := by omega
    obtain ⟨_, hearlier⟩ := List.getElem?_eq_some_iff.mp (s.group_place hr hrow ⟨k % 256, by omega⟩)
    simp only [hsplit] at hearlier
    rw [hearlier, Bool.not_eq_true]
    exact (nonBit_eq_false_iff _).mpr (hfirst _ hrow _ (by dsimp only; omega))

/-! ### The places of the rows' ones in the encoding -/

/-- The indices of rows `0 .. i - 1` together, for the index lists `idx`: where the ones of row `i` begin (R150). -/
def indexStart (idx : Nat → List Nat) (i : Nat) : Nat := ((List.range i).map fun k => (idx k).length).sum

/-- A row's indices end where the next row's begin. -/
theorem indexStart_succ (idx : Nat → List Nat) (i : Nat) :
    indexStart idx (i + 1) = indexStart idx i + (idx i).length := List.sum_range_succ ..

/-- Later rows begin later. -/
theorem indexStart_mono (idx : Nat → List Nat) : Monotone (indexStart idx) :=
  monotone_nat_of_le_succ fun i => by rw [indexStart_succ]; exact Nat.le_add_right ..

/-- The places of a row's indices are before those of later rows. -/
theorem lt_indexStart {idx : Nat → List Nat} {i n k : Nat} (hi : i < n) (hk : k < (idx i).length) :
    indexStart idx i + k < indexStart idx n := by
  have hnext := indexStart_mono idx (Nat.succ_le_of_lt hi)
  rw [Nat.succ_eq_add_one, indexStart_succ] at hnext
  omega

/-- Every place of the indices is in a row. -/
theorem exists_row_of_lt_indexStart (idx : Nat → List Nat) {n m : Nat} (h : m < indexStart idx n) :
    ∃ i < n, ∃ k, k < (idx i).length ∧ m = indexStart idx i + k := by
  induction n with
  | zero => exact absurd h (Nat.not_lt_zero m)
  | succ n ih =>
    rcases lt_or_ge m (indexStart idx n) with hlt | hge
    · obtain ⟨i, hi, hk⟩ := ih hlt
      exact ⟨i, Nat.lt_succ_of_lt hi, hk⟩
    · rw [indexStart_succ] at h
      exact ⟨n, Nat.lt_succ_self n, m - indexStart idx n, by omega, by omega⟩

/-- The ones before a row are the indices of the rows before it. -/
theorem State.onesBefore_eq (s : State) (r : PReg) (i : Nat) :
    s.onesBefore r i = indexStart (fun k => onesOf (s.row r k)) i := by
  simp only [State.onesBefore, indexStart, onesOf_length]

/-- The indices of all rows one after another. -/
theorem flatten_rows_length (idx : Nat → List Nat) (n : Nat) :
    ((List.range n).map idx).flatten.length = indexStart idx n := by
  rw [List.length_flatten, List.map_map]
  rfl

/-- Index `k` of row `i` among the indices of all rows. -/
theorem flatten_rows_getElem? (idx : Nat → List Nat) {n i k : Nat} (hi : i < n) (hk : k < (idx i).length) :
    ((List.range n).map idx).flatten[indexStart idx i + k]? = some (idx i)[k] := by
  induction n with
  | zero => exact absurd hi (Nat.not_lt_zero i)
  | succ n ih =>
    rw [List.range_succ, List.map_append, List.flatten_append, List.map_singleton, List.flatten_singleton]
    rcases Nat.lt_succ_iff_lt_or_eq.mp hi with hlt | rfl
    · rw [List.getElem?_append_left (by rw [flatten_rows_length]; exact lt_indexStart hlt hk)]
      exact ih hlt
    · rw [List.getElem?_append_right (by rw [flatten_rows_length]; omega), flatten_rows_length, Nat.add_sub_cancel_left,
        List.getElem?_eq_getElem hk]

/-- The count bytes are where the rows' indices end. -/
theorem hintCounts_eq_indexStart (idx : Nat → List Nat) (n i : Nat) :
    hintCounts (indexStart idx i) ((List.range' i n).map idx) = (List.range' i n).map fun k => indexStart idx (k + 1) := by
  induction n generalizing i with
  | zero => rfl
  | succ n ih => rw [List.range'_succ, List.map_cons, hintCounts, ← indexStart_succ, ih, List.map_cons]

/-- The bytes `b` are the encoding of eight rows with the indices `idx`: the indices row by row, the zero tail, the
cumulative counts (R150). -/
structure HintImage (idx : Nat → List Nat) (b : Nat → Nat) : Prop where
  count : ∀ i < 8, b (75 + i) = indexStart idx (i + 1)
  index : ∀ i < 8, ∀ k (h : k < (idx i).length), b (indexStart idx i + k) = (idx i)[k]
  tail : ∀ m, indexStart idx 8 ≤ m → m < 75 → b m = 0

/-- The encoding of given rows is determined. -/
theorem HintImage.unique {idx : Nat → List Nat} {b b' : Nat → Nat} (h : HintImage idx b) (h' : HintImage idx b')
    {m : Nat} (hm : m < 83) : b m = b' m := by
  rcases lt_or_ge m 75 with hlt | hge
  · rcases lt_or_ge m (indexStart idx 8) with hin | hout
    · obtain ⟨i, hi, k, hk, rfl⟩ := exists_row_of_lt_indexStart idx hin
      rw [h.index i hi k hk, h'.index i hi k hk]
    · rw [h.tail m hout hlt, h'.tail m hout hlt]
  · obtain ⟨i, rfl⟩ := Nat.exists_eq_add_of_le hge
    rw [h.count i (by omega), h'.count i (by omega)]

/-- The encoding of indices below 256 consists of bytes. -/
theorem HintImage.lt_256 {idx : Nat → List Nat} {b : Nat → Nat} (h : HintImage idx b) (hidx : ∀ i < 8, ∀ x ∈ idx i, x < 256)
    (hcount : indexStart idx 8 ≤ 75) {m : Nat} (hm : m < 83) : b m < 256 := by
  rcases lt_or_ge m 75 with hlt | hge
  · rcases lt_or_ge m (indexStart idx 8) with hin | hout
    · obtain ⟨i, hi, k, hk, rfl⟩ := exists_row_of_lt_indexStart idx hin
      rw [h.index i hi k hk]
      exact hidx i hi _ (List.getElem_mem hk)
    · rw [h.tail m hout hlt]
      decide
  · obtain ⟨i, rfl⟩ := Nat.exists_eq_add_of_le hge
    have hmono := indexStart_mono idx (show i + 1 ≤ 8 by omega)
    rw [h.count i (by omega)]
    omega

/-- The encoding is its 83 bytes. -/
theorem HintImage.congr {idx : Nat → List Nat} {b b' : Nat → Nat} (h : HintImage idx b) (hcount : indexStart idx 8 ≤ 75)
    (hb : ∀ m < 83, b' m = b m) : HintImage idx b' where
  count i hi := (hb _ (by omega)).trans (h.count i hi)
  index i hi k hk := (hb _ (by have := lt_indexStart hi hk; omega)).trans (h.index i hi k hk)
  tail m hm hm75 := (hb _ (by omega)).trans (h.tail m hm hm75)

/-- The list of the model's encoder is the encoding (R150). -/
theorem hintEncode_image {rows : Nat → RingElement} (h : indexStart (fun i => onesOf (rows i)) 8 ≤ 75) :
    HintImage (fun i => onesOf (rows i)) fun m => (hintEncode ((List.range 8).map rows))[m]?.getD 0 := by
  set idx : Nat → List Nat := fun i => onesOf (rows i) with hidx
  have hencode : hintEncode ((List.range 8).map rows) = (((List.range 8).map idx).flatten ++
      List.replicate (75 - indexStart idx 8) 0) ++ (List.range' 0 8).map fun k => indexStart idx (k + 1) := by
    rw [← hintCounts_eq_indexStart, ← List.range_eq_range', ← flatten_rows_length, hintEncode, List.map_map]
    rfl
  have hlen := flatten_rows_length idx 8
  have hlen75 : (((List.range 8).map idx).flatten ++ List.replicate (75 - indexStart idx 8) 0).length = 75 := by
    rw [List.length_append, hlen, List.length_replicate]
    omega
  simp only [hencode]
  refine ⟨fun i hi => ?_, fun i hi k hk => ?_, fun m hm hm75 => ?_⟩
  · rw [List.getElem?_append_right (by omega), hlen75, Nat.add_sub_cancel_left]
    simp [hi]
  · have hin := lt_indexStart hi hk
    rw [List.getElem?_append_left (by omega), List.getElem?_append_left (by omega), flatten_rows_getElem? idx hi hk,
      Option.getD_some]
  · rw [List.getElem?_append_left (by omega), List.getElem?_append_right (by omega), hlen]
    simp [show m - indexStart idx 8 < 75 - indexStart idx 8 by omega]

/-! ### The command -/

/-- HINTENC once its registers and its bytes exist and all its coefficients are bits (R151). -/
theorem exec_hintenc_bits (s : State) {pa : PReg} {addr : Nat} (hr : pa.val ≤ 8) (ha : addr + 83 ≤ 8192)
    (hbits : s.rowsAreBits pa) : exec (.hintenc pa addr) s = .next (if 75 < s.onesBefore pa 8 then
      s.raiseFault (encode (.hintenc pa addr)) .hintcnt 0
    else (s.storeBytes addr ((hintEncode (s.group pa)).map (BitVec.ofNat 8))).complete) := by
  have hsum : ((s.group pa).map fun row => (onesOf row).length).sum = s.onesBefore pa 8 := by
    rw [s.group_eq_map hr, List.map_map, s.onesBefore_eq]
    rfl
  have hnone := (s.firstNonBit_eq_none_iff hr).mpr hbits
  rw [exec, execHintenc, grouped_eq_body _ _ _ hr, buffered_eq_body (n := hintBytes) _ _ _ ha]
  simp only [hnone, hsum]
  rfl

/-- HINTENC with a first coefficient that is no bit (R151). -/
theorem exec_hintenc_nonBit (s : State) {pa : PReg} {addr k : Nat} (hr : pa.val ≤ 8) (ha : addr + 83 ≤ 8192)
    (hk : firstNonBit (s.group pa) = some k) :
    exec (.hintenc pa addr) s = .next (s.raiseFault (encode (.hintenc pa addr)) .range k) := by
  rw [exec, execHintenc, grouped_eq_body _ _ _ hr, buffered_eq_body (n := hintBytes) _ _ _ ha]
  simp only [hk]

/-- Settles O53: the checks stand one behind another, and the search for a coefficient that is no bit goes row by row. -/
theorem hintCommandsFaultInOrder : Obligations.HintCommandsFaultInOrder := by
  refine fun s r addr => ⟨fun hr => ?_, fun hr ha => ⟨fun i hi j hbad hfirst => ?_, fun hbits hmany => ?_⟩⟩
  · exact ⟨congrArg Host.Outcome.next (if_neg (Nat.not_le.mpr hr)), congrArg Host.Outcome.next (if_neg (Nat.not_le.mpr hr))⟩
  · exact exec_hintenc_nonBit s hr ha (s.firstNonBit_eq_some hr hi hbad hfirst)
  · rw [faultsWith, exec_hintenc_bits s hr ha hbits, if_pos hmany]
    rfl

/-- The bytes just stored, read back as numbers. -/
theorem hintByte_storeBytes (s : State) (addr : Nat) (l : List Nat) {m : Nat} (hm : m < l.length) :
    (s.storeBytes addr (l.map (BitVec.ofNat 8))).complete.hintByte addr m = l[m] % 256 := by
  rw [State.hintByte, State.complete_buf, State.storeBytes_buf,
    Memory.read_writeBytes_inside _ _ _ _ (by rw [List.length_map]; exact hm), List.getElem_map, BitVec.toNat_ofNat]

/-- HINTENC of bits with at most 75 ones stores the encoding of its rows and nothing else (R150, R151). -/
theorem hintenc_image (s : State) {pa : PReg} {addr : Nat} (hr : pa.val ≤ 8) (ha : addr + 83 ≤ 8192)
    (hbits : s.rowsAreBits pa) (hcount : s.onesBefore pa 8 ≤ 75) : ∃ t, storesInto s (.hintenc pa addr) addr 83 t ∧
      HintImage (fun i => onesOf (s.row pa i)) (t.hintByte addr) := by
  have hexec := exec_hintenc_bits s hr ha hbits
  rw [if_neg (Nat.not_lt.mpr hcount), s.group_eq_map hr] at hexec
  rw [s.onesBefore_eq] at hcount
  have himage := hintEncode_image hcount
  have hlen : (hintEncode ((List.range 8).map (s.row pa))).length = 83 := by
    refine hintEncode_length (by simp) ?_
    rw [List.map_map, Function.comp_def, flatten_rows_length]
    exact hcount
  refine ⟨_, storesInto_of_storeBytes hexec (by rw [List.length_map, hlen]), himage.congr hcount fun m hm => ?_⟩
  have hlt := himage.lt_256 (fun i _ x hx => ((mem_onesOf _ x).mp hx).1) hcount hm
  rw [List.getElem?_eq_getElem (hlen.symm ▸ hm), Option.getD_some] at hlt ⊢
  rw [hintByte_storeBytes _ _ _ (hlen.symm ▸ hm), Nat.mod_eq_of_lt hlt]

/-- Settles O52: the indices of a row are the rising places of its ones. -/
theorem hintencWritesTheEncoding : Obligations.HintencWritesTheEncoding := by
  intro s pa addr hr ha hbits hcount
  obtain ⟨t, ht, himage⟩ := hintenc_image s hr ha hbits hcount
  refine ⟨t, ht, fun i hi => ?_, fun i hi m hm hm' j hj => ?_, fun i hi m hm hm' => ?_, fun m hm hm75 => ?_⟩
  · rw [himage.count i hi, s.onesBefore_eq]
  · rw [s.onesBefore_eq] at hm hm'
    rw [indexStart_succ] at hm'
    obtain ⟨k, rfl⟩ := Nat.exists_eq_add_of_le hm
    have hk : k < (onesOf (s.row pa i)).length := by omega
    rw [himage.index i hi k hk] at hj
    obtain ⟨_, hone⟩ := (mem_onesOf _ _).mp (hj ▸ List.getElem_mem hk)
    exact (coeff_eq_one_iff _).mp hone
  · rw [s.onesBefore_eq] at hm hm'
    rw [indexStart_succ] at hm'
    obtain ⟨k, rfl⟩ := Nat.exists_eq_add_of_le hm
    have hk : k + 1 < (onesOf (s.row pa i)).length := by omega
    rw [Nat.add_assoc, himage.index i hi (k + 1) hk, himage.index i hi k (by omega)]
    exact List.pairwise_iff_getElem.mp (onesOf_pairwise _) k (k + 1) (by omega) hk (Nat.lt_succ_self k)
  · exact himage.tail m (s.onesBefore_eq pa 8 ▸ hm) hm75

end Sys2Proof.Machine
end

section
/-! PROOFS. HINTDEC (R152 to R154): the four checks, the rows that an accepted encoding stands for, and that encoding and
decoding are inverse. -/

namespace Sys2Proof.Machine

/-! ### What the decoder reads -/

/-- The index bytes of row `i`, as the count bytes say (R150). -/
def State.hintIndices (s : State) (addr i : Nat) : List Nat :=
  (List.range' (s.hintCount addr i) (s.hintCount addr (i + 1) - s.hintCount addr i)).map (s.hintByte addr)

/-- The index bytes of a row are those between two counts. -/
theorem State.mem_hintIndices (s : State) (addr i j : Nat) : j ∈ s.hintIndices addr i ↔
    ∃ m, s.hintCount addr i ≤ m ∧ m < s.hintCount addr (i + 1) ∧ s.hintByte addr m = j := by
  simp only [State.hintIndices, List.mem_map, List.mem_range'_1]
  exact exists_congr fun m => by omega

/-- The checks of the counts and the indices of row `i` (checks 1 to 3 of R152). -/
structure State.RowAccepted (s : State) (addr i : Nat) : Prop where
  rises : s.hintCount addr i ≤ s.hintCount addr (i + 1)
  bound : s.hintCount addr (i + 1) ≤ 75
  indices : (s.hintIndices addr i).IsChain (· < ·)

/-- Check 3 of R152 is that a list rises step by step. -/
theorem strictlyRising_iff_isChain (l : List Nat) : strictlyRising l = true ↔ l.IsChain (· < ·) := by
  induction l using strictlyRising.induct with
  | case1 x y l ih => simp [strictlyRising, ih]
  | case2 l h =>
    rcases l with - | ⟨x, - | ⟨y, l⟩⟩
    · simp [strictlyRising]
    · simp [strictlyRising]
    · exact absurd rfl (h x y l)

/-- The four checks row by row (R152). -/
theorem State.canonicalHint_iff (s : State) (addr : Nat) : s.CanonicalHint addr ↔
    (∀ i < 8, s.RowAccepted addr i) ∧ ∀ m, s.hintCount addr 8 ≤ m → m < 75 → s.hintByte addr m = 0 := by
  have hchain : ∀ i, (s.hintIndices addr i).IsChain (· < ·) ↔ ∀ m, s.hintCount addr i ≤ m →
      m + 1 < s.hintCount addr (i + 1) → s.hintByte addr m < s.hintByte addr (m + 1) := fun i => by
    simp only [State.hintIndices, List.isChain_iff_getElem, List.length_map, List.length_range', List.getElem_map,
      List.getElem_range', Nat.one_mul]
    constructor
    · intro h m hm hm'
      obtain ⟨k, rfl⟩ := Nat.exists_eq_add_of_le hm
      exact h k (by omega)
    · exact fun h k hk => h _ (Nat.le_add_right ..) (by omega)
  constructor
  · rintro ⟨hrise, hbound, hindices, htail⟩
    exact ⟨fun i hi => ⟨hrise i hi, hbound i hi, (hchain i).mpr (hindices i hi)⟩, htail⟩
  · rintro ⟨hrows, htail⟩
    exact ⟨fun i hi => (hrows i hi).rises, fun i hi => (hrows i hi).bound,
      fun i hi => (hchain i).mp (hrows i hi).indices, htail⟩

/-- The index bytes of a row as the decoder takes them. -/
theorem State.take_drop_hintBytes (s : State) {addr i : Nat}
    (hbound : s.hintCount addr (i + 1) ≤ 75) : (((List.range 75).map (s.hintByte addr)).drop (s.hintCount addr i)).take
      (s.hintCount addr (i + 1) - s.hintCount addr i) = s.hintIndices addr i := by
  refine List.ext_getElem (by simp [State.hintIndices]; omega) fun k _ _ => ?_
  simp [State.hintIndices]

/-- The check of the tail as the decoder makes it (check 4 of R152). -/
theorem State.tail_all_zero_iff (s : State) (addr k : Nat) :
    (((List.range 75).map (s.hintByte addr)).drop k).all (· = 0) = true ↔
      ∀ m, k ≤ m → m < 75 → s.hintByte addr m = 0 := by
  simp only [List.all_eq_true, decide_eq_true_eq, List.forall_mem_iff_getElem, List.length_drop, List.length_map,
    List.length_range, List.getElem_drop, List.getElem_map, List.getElem_range]
  constructor
  · intro h m hm hm75
    obtain ⟨j, rfl⟩ := Nat.exists_eq_add_of_le hm
    exact h j (by omega)
  · exact fun h j hj => h _ (Nat.le_add_right ..) (by omega)

/-- The decoder's loop behind the last row (R152). -/
theorem hintRows_nil_eq_some_iff (y : List Nat) (k : Nat) (rows : List RingElement) :
    hintRows y [] k = some rows ↔ (y.drop k).all (· = 0) = true ∧ rows = [] := by
  rw [hintRows, Option.ite_none_right_eq_some, Option.some.injEq, eq_comm (a := [])]

/-- The decoder's loop at a row (R152). -/
theorem hintRows_cons_eq_some_iff (y : List Nat) (c : Nat) (counts : List Nat) (k : Nat) (rows : List RingElement) :
    hintRows y (c :: counts) k = some rows ↔ (k ≤ c ∧ c ≤ 75 ∧ strictlyRising ((y.drop k).take (c - k)) = true) ∧
      ∃ rest, hintRows y counts c = some rest ∧ rows = rowOfOnes ((y.drop k).take (c - k)) :: rest := by
  rw [hintRows, Option.ite_none_left_eq_some, Option.ite_none_right_eq_some, Option.map_eq_some_iff, not_or, not_lt,
    not_lt, and_assoc, and_assoc, and_assoc]
  simp only [Config.omega, eq_comm]

/-- The decoder's loop over rows `i` to `i + n - 1` (R152). -/
theorem hintRows_eq_some_iff (s : State) (addr n i : Nat) (rows : List RingElement) :
    hintRows ((List.range 75).map (s.hintByte addr)) ((List.range' (i + 1) n).map (s.hintCount addr))
      (s.hintCount addr i) = some rows ↔
    ((∀ i', i ≤ i' → i' < i + n → s.RowAccepted addr i') ∧
      ∀ m, s.hintCount addr (i + n) ≤ m → m < 75 → s.hintByte addr m = 0) ∧
    rows = (List.range' i n).map fun i' => rowOfOnes (s.hintIndices addr i') := by
  induction n generalizing i rows with
  | zero =>
    rw [List.range'_zero, List.range'_zero, List.map_nil, List.map_nil, hintRows_nil_eq_some_iff, s.tail_all_zero_iff]
    exact and_congr_left' (iff_and_self.mpr fun _ i' hle hlt => by omega)
  | succ n ih =>
    rw [List.range'_succ, List.range'_succ, List.map_cons, List.map_cons, hintRows_cons_eq_some_iff,
      show i + (n + 1) = i + 1 + n by omega]
    simp only [ih]
    constructor
    · rintro ⟨⟨hrise, hbound, hrising⟩, rest, ⟨⟨hrows, htail⟩, rfl⟩, rfl⟩
      rw [s.take_drop_hintBytes hbound] at hrising ⊢
      refine ⟨⟨fun i' hle hlt => ?_, htail⟩, rfl⟩
      rcases hle.eq_or_lt with rfl | hlater
      · exact ⟨hrise, hbound, (strictlyRising_iff_isChain _).mp hrising⟩
      · exact hrows i' hlater hlt
    · rintro ⟨⟨hrows, htail⟩, rfl⟩
      obtain ⟨hrise, hbound, hchain⟩ := hrows i le_rfl (by omega)
      rw [s.take_drop_hintBytes hbound]
      exact ⟨⟨hrise, hbound, (strictlyRising_iff_isChain _).mpr hchain⟩, _,
        ⟨⟨fun i' hle hlt => hrows i' (by omega) hlt, htail⟩, rfl⟩, rfl⟩

/-- The decoder accepts what passes the four checks, and reads the rows off the index bytes (R152). -/
theorem hintDecode_eq_some_iff (s : State) (addr : Nat) (rows : List RingElement) :
    hintDecode (s.buf.readBytes addr 83) = some rows ↔
      s.CanonicalHint addr ∧ rows = (List.range 8).map fun i => rowOfOnes (s.hintIndices addr i) := by
  have hbytes : (s.buf.readBytes addr 83).map BitVec.toNat = (List.range 83).map (s.hintByte addr) := by
    rw [Memory.readBytes, List.map_map]
    rfl
  have hindex : ((List.range 83).map (s.hintByte addr)).take 75 = (List.range 75).map (s.hintByte addr) := by
    rw [← List.map_take, List.take_range]
    rfl
  have hcount : ((List.range 83).map (s.hintByte addr)).drop 75 = (List.range' 1 8).map (s.hintCount addr) := rfl
  have hloop := hintRows_eq_some_iff s addr 8 0 rows
  rw [s.canonicalHint_iff, List.range_eq_range', hintDecode, hbytes, Config.omega, hindex, hcount]
  rw [show s.hintCount addr 0 = 0 from rfl] at hloop
  simpa only [Nat.zero_le, Nat.zero_add, forall_const] using hloop

/-! ### The command -/

/-- HINTDEC of an encoding that passes the checks (R152). -/
theorem exec_hintdec_accept (s : State) {pd : PReg} {addr : Nat} (hr : pd.val ≤ 8) (ha : addr + 83 ≤ 8192)
    (h : s.CanonicalHint addr) : exec (.hintdec pd addr) s = .next ((s.setGroup pd ((List.range 8).map fun i =>
      rowOfOnes (s.hintIndices addr i))).setHrej false).complete := by
  have hdecode : hintDecode (s.buf.readBytes addr hintBytes) = _ := (hintDecode_eq_some_iff s addr _).mpr ⟨h, rfl⟩
  rw [exec, execHintdec, grouped_eq_body _ _ _ hr, buffered_eq_body (n := hintBytes) _ _ _ ha]
  simp only [hdecode]

/-- HINTDEC of an encoding that fails a check (R152, R153). -/
theorem exec_hintdec_reject (s : State) {pd : PReg} {addr : Nat} (hr : pd.val ≤ 8) (ha : addr + 83 ≤ 8192)
    (h : ¬s.CanonicalHint addr) : exec (.hintdec pd addr) s =
      .next ((s.setGroup pd (List.replicate 8 zeroRing)).setHrej true).complete := by
  have hdecode : hintDecode (s.buf.readBytes addr hintBytes) = none :=
    Option.eq_none_iff_forall_ne_some.mpr fun rows hrows => h ((hintDecode_eq_some_iff s addr rows).mp hrows).1
  rw [exec, execHintdec, grouped_eq_body _ _ _ hr, buffered_eq_body (n := hintBytes) _ _ _ ha]
  simp only [hdecode]
  rfl

/-- A row of the group just written. -/
theorem State.row_setGroup (s : State) {r : PReg} (hr : r.val ≤ 8) {rows : List RingElement} {i : Nat} (hi : i < 8)
    (hl : i < rows.length) (b : Bool) : (((s.setGroup r rows).setHrej b).complete).row r i = rows[i] := by
  have hlt : r.val + i < 16 := by omega
  have hread := s.setGroup_read_row r ⟨r.val + i, hlt⟩ rows (Nat.le_add_right ..) (by simpa using hl)
  simp only [Nat.add_sub_cancel_left] at hread
  rw [State.row, Vector.getElem?_eq_getElem hlt, Option.getD_some]
  exact hread

/-- A command that writes a group and `HREJ` and counts itself changes no register outside the group. -/
theorem State.setGroup_frame (s : State) (pd : PReg) {rows : List RingElement} (hl : rows.length = 8) (b : Bool) (r : PReg)
    (h : r.val < pd.val ∨ pd.val + 8 ≤ r.val) : ((s.setGroup pd rows).setHrej b).complete.p[r] = s.p[r] :=
  s.setGroup_read_other pd r rows (hl.symm ▸ h)

/-- A coefficient of a row of given ones, as an integer. -/
theorem rowOfOnes_toInt (idx : List Nat) (j : Fin 256) :
    ((rowOfOnes idx)[j]).toInt = if j.val ∈ idx then 1 else 0 := by
  rw [Fin.getElem_fin, rowOfOnes_getElem idx j j.isLt]
  split_ifs <;> rfl

/-- HINTDEC of an accepted encoding writes the rows that its indices stand for (R152). -/
theorem hintdec_rows (s : State) {pd : PReg} {addr : Nat} (hr : pd.val ≤ 8) (ha : addr + 83 ≤ 8192)
    (h : s.CanonicalHint addr) : ∃ t, exec (.hintdec pd addr) s = .next t ∧
      t = { s with p := t.p, hrej := false, cmdcnt := s.cmdcnt + 1 } ∧
      (∀ r : PReg, r.val < pd.val ∨ pd.val + 8 ≤ r.val → t.p[r] = s.p[r]) ∧
      ∀ i < 8, t.row pd i = rowOfOnes (s.hintIndices addr i) :=
  ⟨_, exec_hintdec_accept s hr ha h, rfl, s.setGroup_frame pd (by simp) false, fun i hi => by
    rw [s.row_setGroup hr hi (by simpa using hi), List.getElem_map, List.getElem_range]⟩

/-- Settles O54: the decoder's loop makes the four checks row by row, and a row has its ones at its indices. -/
theorem hintdecAcceptsCanonicalEncodings : Obligations.HintdecAcceptsCanonicalEncodings := by
  intro s pd addr hr ha
  by_cases h : s.CanonicalHint addr
  · obtain ⟨t, hexec, ht, hframe, hrows⟩ := hintdec_rows s hr ha h
    have hrej : t.hrej = false := by rw [ht]
    refine ⟨t, hexec, hrej ▸ ht, hframe, fun _ => ⟨hrej, fun i hi j => ?_⟩, fun hnot => absurd h hnot⟩
    rw [hrows i hi, rowOfOnes_toInt, ← s.mem_hintIndices]
    exact ⟨fun hmem => if_pos hmem, fun hmem => if_neg hmem⟩
  · refine ⟨_, exec_hintdec_reject s hr ha h, rfl, s.setGroup_frame pd (by simp) true, fun hc => absurd hc h,
      fun _ => ⟨rfl, fun i hi j => ?_⟩⟩
    rw [s.row_setGroup hr hi (by simpa using hi), List.getElem_replicate]
    simp [zeroRing]

/-! ### Encoding and decoding -/

/-- Index places depend on the rows before only. -/
theorem indexStart_congr {idx idx' : Nat → List Nat} {n : Nat} (h : ∀ i < n, idx' i = idx i) :
    indexStart idx' n = indexStart idx n :=
  congrArg List.sum (List.map_congr_left fun i hi => congrArg List.length (h i (List.mem_range.mp hi)))

/-- The encoding depends on the eight rows only. -/
theorem HintImage.congr_rows {idx idx' : Nat → List Nat} {b : Nat → Nat} (h : HintImage idx b)
    (hidx : ∀ i < 8, idx' i = idx i) : HintImage idx' b := by
  have hstart : ∀ i ≤ 8, indexStart idx' i = indexStart idx i := fun i hi =>
    indexStart_congr fun k hk => hidx k (by omega)
  refine ⟨fun i hi => ?_, fun i hi k hk => ?_, fun m hm hm75 => ?_⟩
  · rw [h.count i hi, hstart (i + 1) hi]
  · have hk' : k < (idx i).length := hidx i hi ▸ hk
    simp only [hstart i hi.le, h.index i hi k hk', hidx i hi]
  · exact h.tail m (hstart 8 le_rfl ▸ hm) hm75

/-- In accepted bytes the counts are where the rows' indices begin (R150). -/
theorem State.CanonicalHint.indexStart_eq {s : State} {addr : Nat} (h : s.CanonicalHint addr) {i : Nat} (hi : i ≤ 8) :
    indexStart (s.hintIndices addr) i = s.hintCount addr i := by
  induction i with
  | zero => rfl
  | succ i ih =>
    have hrise := h.counts_rise i hi
    rw [indexStart_succ, ih (by omega), State.hintIndices, List.length_map, List.length_range']
    omega

/-- Accepted bytes are the encoding of the rows that their indices stand for (R154). -/
theorem State.CanonicalHint.image {s : State} {addr : Nat} (h : s.CanonicalHint addr) :
    HintImage (s.hintIndices addr) (s.hintByte addr) := by
  refine ⟨fun i hi => ?_, fun i hi k hk => ?_, fun m hm hm75 => ?_⟩
  · rw [h.indexStart_eq hi, State.hintCount, if_neg (Nat.succ_ne_zero i)]
    exact congrArg _ (by omega)
  · rw [h.indexStart_eq hi.le]
    simp [State.hintIndices]
  · exact h.tail_zero m (h.indexStart_eq le_rfl ▸ hm) hm75

section
variable {s : State} {addr : Nat} {idx : Nat → List Nat} (h : HintImage idx (s.hintByte addr))
include h

/-- The counts in an encoding. -/
theorem HintImage.hintCount_eq {i : Nat} (hi : i ≤ 8) : s.hintCount addr i = indexStart idx i := by
  cases i with
  | zero => rfl
  | succ i =>
    rw [← h.count i hi, State.hintCount, if_neg (Nat.succ_ne_zero i)]
    exact congrArg _ (by omega)

/-- The indices in an encoding. -/
theorem HintImage.hintIndices_eq {i : Nat} (hi : i < 8) : s.hintIndices addr i = idx i := by
  have hlen : s.hintCount addr (i + 1) - s.hintCount addr i = (idx i).length := by
    rw [h.hintCount_eq hi.le, h.hintCount_eq hi, indexStart_succ, Nat.add_sub_cancel_left]
  refine List.ext_getElem (by simp [State.hintIndices, hlen]) fun k _ hk => ?_
  rw [← h.index i hi k hk, ← h.hintCount_eq hi.le]
  simp [State.hintIndices]

/-- The encoding of rising rows with at most 75 indices passes the four checks (R154). -/
theorem HintImage.canonical (hcount : indexStart idx 8 ≤ 75) (hrising : ∀ i < 8, (idx i).Pairwise (· < ·)) :
    s.CanonicalHint addr := by
  have hmono := indexStart_mono idx
  refine (s.canonicalHint_iff addr).mpr ⟨fun i hi => ⟨?_, ?_, ?_⟩, fun m hm hm75 => ?_⟩
  · rw [h.hintCount_eq hi.le, h.hintCount_eq hi]
    exact hmono (Nat.le_succ i)
  · rw [h.hintCount_eq hi]
    exact (hmono hi).trans hcount
  · rw [h.hintIndices_eq hi]
    exact (hrising i hi).isChain
  · exact h.tail m (h.hintCount_eq le_rfl ▸ hm) hm75

end

/-- The ones of a row of given rising ones. -/
theorem onesOf_rowOfOnes {idx : List Nat} (hrising : idx.Pairwise (· < ·)) (hlt : ∀ j ∈ idx, j < 256) :
    onesOf (rowOfOnes idx) = idx := by
  refine (onesOf_pairwise _).eq_of_mem_iff hrising fun j => ?_
  rw [mem_onesOf]
  constructor
  · rintro ⟨hj, hone⟩
    rw [rowOfOnes_getElem idx j hj] at hone
    by_contra hmem
    exact absurd (if_neg hmem ▸ hone) (by decide)
  · intro hmem
    exact ⟨hlt j hmem, by rw [rowOfOnes_getElem idx j (hlt j hmem), if_pos hmem]⟩

/-- A row of bits is the row of its ones. -/
theorem rowOfOnes_onesOf {row : RingElement} (hbits : ∀ j : Fin 256, row[j].toInt = 0 ∨ row[j].toInt = 1) :
    rowOfOnes (onesOf row) = row := by
  refine Vector.ext fun j hj => ?_
  rw [rowOfOnes_getElem _ j hj]
  rcases hbits ⟨j, hj⟩ with hzero | hone
  · have hc : row[j] = 0 := (coeff_eq_zero_iff _).mpr hzero
    rw [hc, if_neg]
    intro hmem
    obtain ⟨_, hone⟩ := (mem_onesOf row j).mp hmem
    exact absurd (hc ▸ hone) (by decide)
  · have hc : row[j] = 1 := (coeff_eq_one_iff _).mpr hone
    rw [hc, if_pos ((mem_onesOf row j).mpr ⟨hj, hc⟩)]

/-- A command that answers without a fault has taken none. -/
theorem ne_raiseFault_of_err {i : Instr} {s t : State} (hexec : exec i s = .next t) (herr : t.err = false) (w : Word)
    (c : Cause) (n : Nat) : exec i s ≠ .next (s.raiseFault w c n) := by
  intro hfault
  cases hexec.symm.trans hfault
  cases herr

/-- A hint command that takes no fault has its registers and its bytes (R32, R160). -/
theorem operands_of_no_fault {i : Instr} {r : PReg} {addr : Nat} {body : State → State} {s t : State}
    (hi : exec i s = .next (grouped i r (buffered i addr hintBytes body) s)) (hexec : exec i s = .next t)
    (herr : t.err = false) : r.val ≤ 8 ∧ addr + 83 ≤ 8192 := by
  have hno := ne_raiseFault_of_err hexec herr (encode i)
  rcases grouped_cases i r (buffered i addr hintBytes body) s with ⟨hr, hgroup⟩ | ⟨-, hgroup⟩
  · rcases buffered_cases i addr hintBytes body s with ⟨ha, -⟩ | ⟨-, hfault⟩
    · exact ⟨hr, ha⟩
    · exact (hno _ _ (hi.trans (congrArg _ (hgroup.trans hfault)))).elim
  · exact (hno _ _ (hi.trans (congrArg _ hgroup))).elim

/-- HINTENC takes no fault on bits with at most 75 ones only (R151). -/
theorem bits_of_hintenc_no_fault {s t : State} {pa : PReg} {addr : Nat} (hexec : exec (.hintenc pa addr) s = .next t)
    (herr : t.err = false) :
    pa.val ≤ 8 ∧ addr + 83 ≤ 8192 ∧ s.rowsAreBits pa ∧ s.onesBefore pa 8 ≤ 75 := by
  obtain ⟨hr, ha⟩ := operands_of_no_fault rfl hexec herr
  have hno := ne_raiseFault_of_err hexec herr (encode (.hintenc pa addr))
  have hbits : s.rowsAreBits pa := by
    refine (s.firstNonBit_eq_none_iff hr).mp (Option.eq_none_iff_forall_ne_some.mpr fun k hk => ?_)
    exact hno _ _ (exec_hintenc_nonBit s hr ha hk)
  refine ⟨hr, ha, hbits, Nat.le_of_not_lt fun hmany => hno .hintcnt 0 ?_⟩
  rw [exec_hintenc_bits s hr ha hbits, if_pos hmany]

/-- What HINTENC wrote HINTDEC accepts, restoring the rows (R154). -/
theorem hintdec_of_hintenc {s t : State} {pa pd : PReg} {addr : Nat}
    (hexec : exec (.hintenc pa addr) s = .next t) (herr : t.err = false) (hd : pd.val ≤ 8) :
    ∃ u, exec (.hintdec pd addr) t = .next u ∧ u.err = false ∧ u.hrej = false ∧ ∀ i < 8, u.row pd i = s.row pa i := by
  obtain ⟨hr, ha, hbits, hcount⟩ := bits_of_hintenc_no_fault hexec herr
  obtain ⟨t', ⟨hexec', -, -⟩, himage⟩ := hintenc_image s hr ha hbits hcount
  cases hexec.symm.trans hexec'
  rw [s.onesBefore_eq] at hcount
  have hcanonical := himage.canonical hcount fun i _ => onesOf_pairwise (s.row pa i)
  obtain ⟨u, hu, hfields, -, hrows⟩ := hintdec_rows t hd ha hcanonical
  refine ⟨u, hu, by rw [hfields]; exact herr, by rw [hfields], fun i hi => ?_⟩
  rw [hrows i hi, himage.hintIndices_eq hi, rowOfOnes_onesOf (hbits i hi)]

/-- What HINTDEC accepted HINTENC encodes again to the same bytes (R154). -/
theorem hintenc_of_hintdec {s t : State} {pd : PReg} {addr addr2 : Nat} (hexec : exec (.hintdec pd addr) s = .next t)
    (herr : t.err = false) (hrej : t.hrej = false) (ha2 : addr2 + 83 ≤ 8192) :
    ∃ u, exec (.hintenc pd addr2) t = .next u ∧ u.err = false ∧
      ∀ m < 83, u.buf.read (addr2 + m) = s.buf.read (addr + m) := by
  obtain ⟨hr, ha⟩ := operands_of_no_fault rfl hexec herr
  have hcanonical : s.CanonicalHint addr := by
    by_contra hnot
    cases hexec.symm.trans (exec_hintdec_reject s hr ha hnot)
    cases hrej
  obtain ⟨t', hexec', -, -, hrows⟩ := hintdec_rows s hr ha hcanonical
  cases hexec.symm.trans hexec'
  have hbits : t.rowsAreBits pd := fun i hi j => by
    rw [hrows i hi, rowOfOnes_toInt]
    split_ifs <;> simp
  have hones : ∀ i < 8, onesOf (t.row pd i) = s.hintIndices addr i := fun i hi => by
    have haccepted := ((s.canonicalHint_iff addr).mp hcanonical).1 i hi
    rw [hrows i hi]
    refine onesOf_rowOfOnes (List.isChain_iff_pairwise.mp haccepted.indices) fun j hj => ?_
    obtain ⟨m, -, -, rfl⟩ := (s.mem_hintIndices addr i j).mp hj
    exact BitVec.isLt _
  have hcount : t.onesBefore pd 8 ≤ 75 := by
    rw [t.onesBefore_eq, indexStart_congr hones, hcanonical.indexStart_eq le_rfl]
    exact hcanonical.counts_bound 7 (by decide)
  obtain ⟨u, ⟨hu, hfields, -⟩, himage⟩ := hintenc_image t hr ha2 hbits hcount
  refine ⟨u, hu, by rw [hfields]; exact herr, fun m hm => BitVec.eq_of_toNat_eq ?_⟩
  exact himage.unique (hcanonical.image.congr_rows hones) hm

/-- Settles O55: the rows determine the 83 bytes, and the bytes the rows. -/
theorem hintEncodingIsCanonical : Obligations.HintEncodingIsCanonical :=
  ⟨fun _ _ _ _ _ _ hexec herr hd => hintdec_of_hintenc hexec herr hd,
    fun _ _ _ _ _ _ hexec herr hrej ha2 => hintenc_of_hintdec hexec herr hrej ha2⟩

end Sys2Proof.Machine
end
